-- ==== Sys2Proof/Word.lean ====
section
/-! DEFINITION. The words of the block: the byte, and the two fixed-length byte sequences the spec
works with whole (8 bytes: a prefix, an interface identifier, a link address; 16 bytes: an IPv6
address). Spec: 00_scope.md R8 (byte sequences), R7 (PREFIX_BYTES, ADDR_BYTES, LINK_ADDR_BYTES). -/

namespace Sys2Proof

/-- A byte: 8 bits, bit 0 the least significant (R8). -/
abbrev Byte := BitVec 8

/-- Eight bytes, `b0` the first on the wire: a context prefix, an IID, or a link address (R7). -/
structure Oct where
  b0 : Byte
  b1 : Byte
  b2 : Byte
  b3 : Byte
  b4 : Byte
  b5 : Byte
  b6 : Byte
  b7 : Byte
deriving DecidableEq, Repr

/-- An IPv6 address: bytes 0 to 7 are the prefix, bytes 8 to 15 the IID (R8, R9). -/
structure Addr where
  pfx : Oct
  iid : Oct
deriving DecidableEq, Repr

/-- Eight bytes of 0x00, `zeros(8)` of R8. -/
def Oct.zero : Oct := ⟨0, 0, 0, 0, 0, 0, 0, 0⟩

/-- The unspecified address, `zeros(16)` (R9). -/
def Addr.zero : Addr := ⟨Oct.zero, Oct.zero⟩

end Sys2Proof
end

