-- ==== Sys2Proof/Config.lean ====
section
/-! DEFINITION. The parameters of the block at their listed defaults (00_scope.md R7, log 11), the
values the spec marks as general knowledge (93_implementation_defined.md part 1, log 12), and the
one free value (log 7). -/

namespace Sys2Proof

/-- N_CTX (R7, fixed). -/
abbrev Config.nCtx : Nat := 16
/-- PREFIX_BYTES (R7, fixed): the bytes of a context prefix. The type `Oct` holds as many. -/
abbrev Config.prefixBytes : Nat := 8
/-- ADDR_BYTES (R7, fixed): the bytes of an IPv6 address. The type `Addr` holds as many. -/
abbrev Config.addrBytes : Nat := 16
/-- FRAG_SIZE_BITS (R7, fixed): the width of the size of a datagram. -/
abbrev Config.fragSizeBits : Nat := 11
/-- LINK_ADDR_BYTES (R7, D5: "only 8 is specified"): the bytes of a link address. The type `Oct` holds
as many, so another value is another model (log 11). -/
abbrev Config.linkAddrBytes : Nat := 8
/-- CUR_W (R7, R21, D6): the default, and the width that State stores FB.CUR in. -/
abbrev Config.curW : Nat := 16
/-- TIME_W (R7, D32): the default, and the width that State stores a timestamp in (milliseconds). -/
abbrev Config.timeW : Nat := 32
/-- FRAG_SLOTS (R7, D31): the default, and the number of slots that State stores. -/
abbrev Config.fragSlots : Nat := 4
/-- FB_CAP (R7, D4). -/
def Config.fbCap : Nat := 2048
/-- PB_CAP (R7, D4). -/
def Config.pbCap : Nat := 2048
/-- OB_CAP (R7, D4): PB_CAP + 48. -/
def Config.obCap : Nat := 2096
/-- FRAG_BUF_CAP (R7, D31): the bytes of one reassembly buffer, bounded by FRAG_SIZE_BITS. A store
beyond it is refused like one beyond TOTAL (20_memory.md R46, R231). -/
def Config.fragBufCap : Nat := 2047
/-- FRAG_OFFSET_UNIT (R7, fixed). -/
def Config.fragOffsetUnit : Nat := 8
/-- RANGE_SLOTS (R7, D31). -/
def Config.rangeSlots : Nat := 256
/-- MAX_AGE_MS (R7, D32). -/
def Config.maxAgeMs : Nat := 2000
/-- The parameters that the spec chose (R7), as inputs of the operations that they bear on
(10_state.md R31), each with its listed default. State stores `fragSlots` slots, a cursor of `curW` bits
and timestamps of `timeW` bits in fields that hold the defaults and every smaller value (`fits`,
log 11). -/
structure Params where
  fragSlots : Nat := Config.fragSlots
  curW : Nat := Config.curW
  timeW : Nat := Config.timeW
  fbCap : Nat := Config.fbCap
  pbCap : Nat := Config.pbCap
  obCap : Nat := Config.obCap
  fragBufCap : Nat := Config.fragBufCap
  rangeSlots : Nat := Config.rangeSlots
  maxAgeMs : Nat := Config.maxAgeMs
deriving DecidableEq, Repr

/-- The parameters that State has room for. -/
abbrev Params.fits (p : Params) : Prop :=
  p.fragSlots ≤ Config.fragSlots ∧ p.curW ≤ Config.curW ∧ p.timeW ≤ Config.timeW

/-- The largest cursor value, 0xFFFF by default (R21, R116): all ones in CUR_W bits. -/
def Params.curMax (p : Params) : Nat := 2 ^ p.curW - 1

/-- The parameters of the machine: the listed defaults (log 11). -/
def Config.params : Params := {}

/-- PORT_BASE (R7, fixed). -/
def Config.portBase : BitVec 16 := 0xF0B0
/-- TC_C: mask in IPHC byte 0, traffic class elided (R7, R63, D37). -/
def Config.tcC : Byte := 0x10
/-- FL_C: mask in IPHC byte 0, flow label elided (R7, R63, D37). -/
def Config.flC : Byte := 0x08
/-- NH_C: mask in IPHC byte 0, next header elided (R7, R65). -/
def Config.nhC : Byte := 0x04

/-- The next-header number of UDP (R13, fixed by the source). -/
def Config.nhUdp : Byte := 17
/-- The next-header number of ICMPv6 (R13, R142, G6). UNVERIFIED (log 12), unsafe. -/
def Config.nhIcmpv6 : Byte := 58
/-- The next-header number of hop-by-hop options (R13, R142, G6). UNVERIFIED (log 12), unsafe. -/
def Config.nhHbh : Byte := 0
/-- The size of an uncompressed IPv6 header (R210, G10). UNVERIFIED (log 12), unsafe. -/
def Config.ipv6Hdr : Nat := 40
/-- The size of an uncompressed UDP header (R210, R256, G8, G10). UNVERIFIED (log 12), unsafe. -/
def Config.udpHdr : Nat := 8
/-- The link-local prefix `FE 80 00 00 00 00 00 00` (R68, R9, G14). -/
def Config.linkLocal : Oct := ⟨0xFE, 0x80, 0, 0, 0, 0, 0, 0⟩

/-- The context index of both sides when there is no CID byte (R67, R190, G7). UNVERIFIED (log 12),
unsafe. -/
def Config.noCidIndex : BitVec 4 := 0

/-- FREE VALUE (log 7, log 10; safe): the byte at index `i` of a buffer that nothing has written,
in draw `d`. R25, R322 and U2 say "any value": no body, so nothing can be proved of it. -/
opaque Config.unwrittenByte (d i : Nat) : Byte

end Sys2Proof
end

