-- ==== Sys2Proof/Syntax.lean ====
section
/-! DEFINITION. The instructions: one constructor per row of spec/opcode_table.json. The first 31
are the host commands (30_encoding.md R100), each with the operands its row names; the other 45
are the wire-format rows (30_encoding.md R60 to R96), each with its own bits and its inline bytes.
Also the two forms in which an instruction reaches the block (`Code`). -/

namespace Sys2Proof

/-- A command as the host presents it: the tuple `(op, A0, A1, A2, BYTES)` of R100. A tuple without
BYTES carries the empty sequence (log 2). -/
structure CmdTuple where
  op : BitVec 8
  a0 : BitVec 32
  a1 : BitVec 32
  a2 : BitVec 32
  bytes : List Byte
deriving DecidableEq, Repr

/-- The place in a frame header that a wire-format row fills (R60 to R91): what the decoder reads
next. -/
inductive Slot where
  /-- the dispatch byte (R60) -/
  | dispatch
  /-- the IPHC word (R62) -/
  | word
  /-- the CID byte (R67) -/
  | cid
  /-- traffic class and flow label (R63, R64) -/
  | tf
  /-- next header (R65) -/
  | nh
  /-- hop limit (R66) -/
  | hlim
  /-- source address (R68) -/
  | src
  /-- destination address (R70) -/
  | dst
  /-- the NHC header (R80 to R82) -/
  | nhc
  /-- a first-fragment header (R90) -/
  | frag1Hdr
  /-- a continuation-fragment header (R91) -/
  | fragnHdr
deriving DecidableEq, Repr

/-- An encoded instruction: a command tuple, or a piece of a frame header in its slot. `w` holds
the bits of the IPHC word that choose the form (0 in the slots that are not chosen by it), `bytes`
the bytes at the piece's place. -/
inductive Code where
  | command (t : CmdTuple)
  | wire (slot : Slot) (w : BitVec 16) (bytes : List Byte)
deriving DecidableEq, Repr

/-- One constructor per row of spec/opcode_table.json, in the table's order. -/
inductive Instr where
  /-- SETBYTES, op 0x01 (R111) -/
  | setbytes (data : List Byte)
  /-- GETBYTE, op 0x02 (R112) -/
  | getbyte (off : BitVec 32)
  /-- GET16, op 0x03 (R113) -/
  | get16 (off : BitVec 32)
  /-- GET24, op 0x04 (R114) -/
  | get24 (off : BitVec 32)
  /-- COPYOUT, op 0x05 (R115) -/
  | copyout (srcOff dstOff length : BitVec 32)
  /-- INCPOS, op 0x06 (R116) -/
  | incpos (delta : BitVec 32)
  /-- PAYLOADLEN, op 0x07 (R117) -/
  | payloadlen
  /-- SETATTR, op 0x08 (R118) -/
  | setattr (att valid value : BitVec 32) (addr : List Byte)
  /-- GETATTR, op 0x09 (R119) -/
  | getattr (att : BitVec 32)
  /-- PB_LOAD, op 0x0A (R120) -/
  | pbLoad (data : List Byte)
  /-- RDBUF, op 0x0B (R121) -/
  | rdbuf (space off length : BitVec 32)
  /-- CTX_SET, op 0x10 (R132) -/
  | ctxSet (idx : BitVec 32) (pfx : List Byte)
  /-- CTX_LOOKUP, op 0x11 (R133) -/
  | ctxLookup (addr : List Byte)
  /-- CTX_GET, op 0x12 (R134) -/
  | ctxGet (idx : BitVec 32)
  /-- HM_WR, op 0x18 (R140) -/
  | hmWr (fld value : BitVec 32) (addr : List Byte)
  /-- HM_RD, op 0x19 (R141) -/
  | hmRd (fld : BitVec 32)
  /-- SETPAYLOAD, op 0x1A (R142) -/
  | setpayload (kind : BitVec 32)
  /-- ENCODE, op 0x20 (R150) -/
  | encode
  /-- CLASSIFY, op 0x28 (R180) -/
  | classify
  /-- DECODE, op 0x29 (R181) -/
  | decode
  /-- REASM, op 0x30 (R220) -/
  | reasm (now : BitVec 32)
  /-- SWEEP, op 0x31 (R241) -/
  | sweep (now : BitVec 32)
  /-- FRAG_STAT, op 0x32 (R243) -/
  | fragStat (j : BitVec 32)
  /-- CSUM_PSEUDO, op 0x38 (R253) -/
  | csumPseudo (nh payloadLength : BitVec 32) (addrs : List Byte)
  /-- CSUM_FOLD, op 0x39 (R254) -/
  | csumFold (off length : BitVec 32)
  /-- CSUM_FINAL, op 0x3A (R255) -/
  | csumFinal
  /-- UDP_CSUM, op 0x3B (R257) -/
  | udpCsum
  /-- UDP_VERIFY, op 0x3C (R258) -/
  | udpVerify
  /-- RESET, op 0x40 (R271) -/
  | reset
  /-- CLRFLAGS, op 0x41 (R272) -/
  | clrflags (mask : BitVec 32)
  /-- RDSTATUS, op 0x42 (R273) -/
  | rdstatus
  /-- dispatch byte `01000001` (R60, R96) -/
  | uncompIpv6
  /-- dispatch byte `011tfnhh` (R60) -/
  | iphc (tc fl nh : Bool) (hlim : BitVec 2)
  /-- dispatch byte `11000sss` (R60) -/
  | frag1 (sizeHi : BitVec 3)
  /-- dispatch byte `11100sss` (R60) -/
  | fragn (sizeHi : BitVec 3)
  /-- a dispatch byte that matches none of the four patterns (R60) -/
  | other (b : Byte)
  /-- the IPHC word `011tfnhhcsaamdbb` (R62) -/
  | iphcWord (tc fl nh : Bool) (hlim : BitVec 2) (cid sac : Bool) (sam : BitVec 2)
      (m dac : Bool) (dam : BitVec 2)
  /-- the CID byte `ssssdddd` (R67) -/
  | cidByte (sci dci : BitVec 4)
  /-- the first-fragment header, 4 bytes (R90) -/
  | frag1Hdr (size : BitVec 11) (tag : BitVec 16)
  /-- the continuation-fragment header, 5 bytes (R91) -/
  | fragnHdr (size : BitVec 11) (tag : BitVec 16) (offset : BitVec 8)
  /-- TF, both elided: 0 inline bytes (R63) -/
  | tfElided
  /-- TF, 1 byte `eedddddd` (R64) -/
  | tfTcOnly (ecn : BitVec 2) (dscp : BitVec 6)
  /-- TF, 3 bytes `eeppffff ffffffff ffffffff` (R64) -/
  | tfFlOnly (ecn pad : BitVec 2) (fl : BitVec 20)
  /-- TF, 4 bytes `eedddddd ppppffff ffffffff ffffffff` (R64) -/
  | tfFull (ecn : BitVec 2) (dscp : BitVec 6) (pad : BitVec 4) (fl : BitVec 20)
  /-- NH, 1 inline byte (R65) -/
  | nhInline (nh : Byte)
  /-- NH elided: UDP, an NHC header follows (R65) -/
  | nhUdpNhc
  /-- HLIM, 1 inline byte (R66) -/
  | hlimInline (h : Byte)
  /-- HLIM code 01: hop limit 1 (R66) -/
  | hlim1
  /-- HLIM code 10: hop limit 64 (R66) -/
  | hlim64
  /-- HLIM code 11: hop limit 255 (R66) -/
  | hlim255
  /-- SAC 0, SAM 00: 16 inline bytes (R68) -/
  | srcFull (a : Addr)
  /-- SAC 0, SAM 01: 8 inline bytes (R68) -/
  | srcLl64 (iid : Oct)
  /-- SAC 0, SAM 10: 2 inline bytes (R68, R69) -/
  | srcLl16 (x y : Byte)
  /-- SAC 0, SAM 11: IID from LINK_SRC (R68) -/
  | srcLlMac
  /-- SAC 1, SAM 00: the unspecified address (R68) -/
  | srcUnspec
  /-- SAC 1, SAM 01 (R68) -/
  | srcCtx64 (iid : Oct)
  /-- SAC 1, SAM 10 (R68, R69) -/
  | srcCtx16 (x y : Byte)
  /-- SAC 1, SAM 11 (R68) -/
  | srcCtxMac
  /-- M 0, DAC 0, DAM 00: 16 inline bytes (R70) -/
  | dstFull (a : Addr)
  /-- M 0, DAC 0, DAM 01 (R70) -/
  | dstLl64 (iid : Oct)
  /-- M 0, DAC 0, DAM 10 (R70) -/
  | dstLl16 (x y : Byte)
  /-- M 0, DAC 0, DAM 11: IID from LINK_DST (R70) -/
  | dstLlMac
  /-- M 0, DAC 1, DAM 00: reserved (R70, R95) -/
  | dstReservedDac1Dam00
  /-- M 0, DAC 1, DAM 01 (R70) -/
  | dstCtx64 (iid : Oct)
  /-- M 0, DAC 1, DAM 10 (R70) -/
  | dstCtx16 (x y : Byte)
  /-- M 0, DAC 1, DAM 11 (R70) -/
  | dstCtxMac
  /-- M 1, DAC 0, DAM 00: 16 inline bytes (R70) -/
  | dstMcFull (a : Addr)
  /-- M 1, DAC 0, DAM 01: 6 inline bytes (R70) -/
  | dstMc48 (x0 x1 x2 x3 x4 x5 : Byte)
  /-- M 1, DAC 0, DAM 10: 4 inline bytes (R70) -/
  | dstMc32 (x0 x1 x2 x3 : Byte)
  /-- M 1, DAC 0, DAM 11: 1 inline byte (R70) -/
  | dstMc8 (x : Byte)
  /-- M 1, DAC 1, any DAM: reserved (R70, R95) -/
  | dstReservedM1Dac1 (dam : BitVec 2)
  /-- UDP NHC byte `11110c00` with its ports; `csum` is present iff c = 0 (R80 to R82) -/
  | udpNhcFullPorts (sport dport : BitVec 16) (csum : Option (BitVec 16))
  /-- UDP NHC byte `11110c11` with its nibble ports; `csum` is present iff c = 0 (R80 to R82) -/
  | udpNhcNibblePorts (s d : BitVec 4) (csum : Option (BitVec 16))
  /-- UDP NHC byte `11110c01`: unsupported (R95, R207) -/
  | udpNhcP01 (c : Bool)
  /-- UDP NHC byte `11110c10`: unsupported (R95, R207) -/
  | udpNhcP10 (c : Bool)
  /-- an NHC byte that is not `11110xxx`: unsupported (R95, R207) -/
  | nhcOther (b : Byte)
deriving DecidableEq, Repr

end Sys2Proof
end

