-- ==== Sys2Proof/Machine/State.lean ====
section
/-! DEFINITION. The state of the block as plain data: all that 10_state.md lists, and the model's
own fields (the command port and the free-value counter). INVENTORY.md gives each one's width, rule
and reset value. -/

namespace Sys2Proof.Machine

/-- A byte space: (index, byte) pairs with strictly rising indices (20_memory.md R40). An index
that is not listed has never been written; `memByte` (Machine/Ops.lean) says what it reads as
(log 10). -/
abbrev Memory := List Host.Cell

/-- The one canonical form of a byte space: strictly rising indices. No unlisted index has a value
of its own that an entry could repeat (log 10). -/
abbrev Memory.wf (m : Memory) : Prop := m.Pairwise (fun x y => x.1 < y.1)

/-- A buffer FB, PB or OB: LEN, and DATA at the indices below LEN (R20, R23; log 9). -/
structure Buf where
  len : Nat
  mem : Memory
deriving DecidableEq, Repr

/-- The canonical form of a buffer: exactly the indices 0 to LEN-1 are listed, in order. -/
abbrev Buf.wf (b : Buf) : Prop := b.mem.map Prod.fst = List.range b.len

/-- The empty buffer (R35). -/
def Buf.empty : Buf := ⟨0, []⟩

/-- The payload kind of the header model, fld 7 (R11). -/
inductive PKind where
  | none
  | udp
  | icmpv6
  | hbh
  | opaqueBytes
deriving DecidableEq, Repr

/-- The header-model register file HM (R10, R11). VERSION is hardwired (R11) and has no field. -/
structure HM where
  tc : BitVec 8
  fl : BitVec 20
  nh : BitVec 8
  hlim : BitVec 8
  src : Addr
  dst : Addr
  pkind : PKind
  sport : BitVec 16
  dport : BitVec 16
  csum : BitVec 16
  csumInline : Bool
deriving DecidableEq, Repr

/-- HM after reset (R35). -/
def HM.reset : HM := ⟨0, 0, 0, 0, Addr.zero, Addr.zero, .none, 0, 0, 0, false⟩

/-- One slot of the address-context table (R17); `pfx` has meaning only when `valid` (log 8). -/
structure CtxSlot where
  valid : Bool
  pfx : Oct
deriving DecidableEq, Repr

/-- An attribute holding a link address of LINK_ADDR_BYTES bytes (R22, R7); `addr` has meaning
only when `valid` (log 8). -/
structure LinkAttr where
  valid : Bool
  addr : Oct
deriving DecidableEq, Repr

/-- The attribute PKT_TYPE (R22); `val` has meaning only when `valid` (log 8). -/
structure PktAttr where
  valid : Bool
  val : BitVec 32
deriving DecidableEq, Repr

/-- A recorded range: the declared byte offset and the payload length of a stored fragment (R25,
R230). -/
structure Range where
  off : BitVec 16
  length : BitVec 16
deriving DecidableEq, Repr

/-- A reassembly context FRAG[j] (R25). NRANGES is the length of `ranges`. `draw` is the model's: the
draw of free values that the unwritten indices of `buf` come from (log 7). -/
structure FragSlot where
  valid : Bool
  key : Oct
  tag : BitVec 16
  total : BitVec Config.fragSizeBits
  recvd : BitVec 16
  created : BitVec Config.timeW
  adj : BitVec 8
  buf : Memory
  draw : Nat
  ranges : List Range
deriving DecidableEq, Repr

/-- A reassembly slot after power-on (R35; log 7, log 8). -/
def FragSlot.reset : FragSlot := ⟨false, Oct.zero, 0, 0, 0, 0, 0, [], 0, []⟩

/-- What a command returns to the host: `(STATUS, RES0, RES1, OUT)` (R100, R270 step 5; log 3). -/
structure Response where
  status : BitVec 8
  res0 : BitVec 32
  res1 : BitVec 32
  /-- OUT, the "one optional byte-sequence result" of R100. DESIGN CHOICE (log 17): the spec does not
  say whether an absent OUT differs from an empty one; a command that returns no OUT has the empty
  sequence here. -/
  out : List Byte
deriving DecidableEq, Repr

/-- The command on whose behalf a frame header is read: the three that fetch at the cursor (R21,
R180, R181, R220). -/
inductive Reader where
  | classify
  | decode
  | reasm
deriving DecidableEq, Repr

/-- The temporaries of a command that reads a frame header (R30, R181, R220; log 4): where it stands
(`slot`, none between commands), for whom, the operand `now`, the start and the running offset, the
IPHC word, the context indices, the truncation mark, the candidate header model, and the size and
tag of a first fragment. -/
structure Walk where
  slot : Option Slot
  reader : Reader
  now : BitVec Config.timeW
  base : Nat
  pos : Nat
  w : BitVec 16
  sci : BitVec 4
  dci : BitVec 4
  trunc : Bool
  cand : HM
  size : BitVec Config.fragSizeBits
  tag : BitVec 16
deriving DecidableEq, Repr

/-- No header is being read: the temporaries between commands (R30). -/
def Walk.idle : Walk := ⟨none, .decode, 0, 0, 0, 0, 0, 0, false, HM.reset, 0, 0⟩

/-- The state of the block. -/
structure State where
  /-- HM (R10, R11) -/
  hm : HM
  /-- RES0 (R14) -/
  res0 : BitVec 32
  /-- RES1 (R14) -/
  res1 : BitVec 32
  /-- STATUS (R16) -/
  status : BitVec 8
  /-- ERRPOS (R16) -/
  errpos : BitVec 16
  /-- FLAGS (R15): bit 0 F_TRUNC, 1 F_CSUM_BAD, 2 F_NHC_UNSUP, 3 F_EVICT -/
  flags : BitVec 4
  /-- EVICT_COUNT (R16) -/
  evictCount : BitVec 32
  /-- CTX[0..15] (R17) -/
  ctx : Vector CtxSlot Config.nCtx
  /-- SUM (R18) -/
  sum : BitVec 16
  /-- FB.LEN and FB.DATA (R20) -/
  fb : Buf
  /-- FB.CUR (R21) -/
  cur : BitVec Config.curW
  /-- LINK_SRC (R22) -/
  linkSrc : LinkAttr
  /-- LINK_DST (R22) -/
  linkDst : LinkAttr
  /-- PKT_TYPE (R22) -/
  pktType : PktAttr
  /-- PB (R23) -/
  pb : Buf
  /-- OB (R23) -/
  ob : Buf
  /-- FRAG[0..3] (R25) -/
  frag : Vector FragSlot Config.fragSlots
  /-- the temporaries of the running command (R30; log 4) -/
  walk : Walk
  /-- the model's: the next draw of free values (log 7) -/
  draws : Nat
  /-- the model's: the tuples the host will present, in order (log 1) -/
  host : List CmdTuple
  /-- the model's: the tuple the last command returned (log 3) -/
  resp : Option Response
deriving DecidableEq, Repr

/-- The block right after reset (R35, R310; the model's own choices: log 1, log 3, log 4, log 7,
log 8). -/
def State.reset : State where
  hm := HM.reset
  res0 := 0
  res1 := 0
  status := 0
  errpos := 0
  flags := 0
  evictCount := 0
  ctx := Vector.replicate Config.nCtx ⟨false, Oct.zero⟩
  sum := 0
  fb := Buf.empty
  cur := 0
  linkSrc := ⟨false, Oct.zero⟩
  linkDst := ⟨false, Oct.zero⟩
  pktType := ⟨false, 0⟩
  pb := Buf.empty
  ob := Buf.empty
  frag := Vector.replicate Config.fragSlots FragSlot.reset
  walk := Walk.idle
  draws := 1
  host := []
  resp := none

/-- Why the block stops with a fault: never. "Nothing in the block is treated as `fault`: every
command ends with a status" (93_implementation_defined.md, last paragraph; 60_exceptions.md R280;
log 13). -/
inductive Fault
deriving DecidableEq, Repr

/-- Why a step has no meaning. -/
inductive Refusal where
  /-- Raised by an arm of `exec` whose instruction has no meaning yet (none is left). Safe. -/
  | notModelled (mnemonic : String)
deriving DecidableEq, Repr

end Sys2Proof.Machine
end

