-- ==== Sys2Proof/Machine/Flags.lean ====
section
/-! DEFINITION. The status codes (60_exceptions.md R281), the sticky flags (10_state.md R15), and how
the advisories a command noted set flags and choose its status (60_exceptions.md R288). -/

namespace Sys2Proof.Machine

/-- The status codes of R281. -/
inductive Status where
  | ok
  | pass
  | incomplete
  | complete
  | duplicate
  | nhcUnsupported
  | csumMismatch
  | truncated
  | missingContext
  | notIphc
  | reservedEncoding
  | missingLinkAddr
  | badIndex
  | badModel
  | outputOverflow
  | fragInconsistent
  | fragOverflow
  | fragTableFull
  | fragRangeFull
  | fragHeaderUndecodable
  | badCommand
  | badOperand
deriving DecidableEq, Repr

/-- The number of a status code (R281). -/
def statusCode : Status → BitVec 8
  | .ok => 0x00
  | .pass => 0x01
  | .incomplete => 0x02
  | .complete => 0x03
  | .duplicate => 0x04
  | .nhcUnsupported => 0x10
  | .csumMismatch => 0x11
  | .truncated => 0x12
  | .missingContext => 0x20
  | .notIphc => 0x21
  | .reservedEncoding => 0x22
  | .missingLinkAddr => 0x23
  | .badIndex => 0x24
  | .badModel => 0x25
  | .outputOverflow => 0x26
  | .fragInconsistent => 0x27
  | .fragOverflow => 0x28
  | .fragTableFull => 0x29
  | .fragRangeFull => 0x2A
  | .fragHeaderUndecodable => 0x2B
  | .badCommand => 0x2C
  | .badOperand => 0x2D

/-- Every status code, in the order of R281. -/
def allStatuses : List Status :=
  [.ok, .pass, .incomplete, .complete, .duplicate, .nhcUnsupported, .csumMismatch, .truncated,
   .missingContext, .notIphc, .reservedEncoding, .missingLinkAddr, .badIndex, .badModel,
   .outputOverflow, .fragInconsistent, .fragOverflow, .fragTableFull, .fragRangeFull,
   .fragHeaderUndecodable, .badCommand, .badOperand]

/-- The mask of F_TRUNC (R15). -/
def fTrunc : BitVec 4 := 0x1
/-- The mask of F_CSUM_BAD (R15). -/
def fCsumBad : BitVec 4 := 0x2
/-- The mask of F_NHC_UNSUP (R15). -/
def fNhcUnsup : BitVec 4 := 0x4
/-- The mask of F_EVICT (R15). -/
def fEvict : BitVec 4 := 0x8

/-- The advisories a command noted (R280, R281). -/
structure Adv where
  trunc : Bool
  nhc : Bool
  csum : Bool
deriving DecidableEq, Repr

/-- No advisory. -/
def noAdv : Adv := ⟨false, false, false⟩

/-- The truncation advisory alone (R45, R284). -/
def truncAdv (t : Bool) : Adv := ⟨t, false, false⟩

/-- The checksum advisory alone (R170, R285). -/
def csumAdv (c : Bool) : Adv := ⟨false, false, c⟩

/-- The flags that the noted advisories set: all of them (R288 point 3, R15). -/
def advFlags (a : Adv) : BitVec 4 :=
  (if a.trunc then fTrunc else 0) ||| (if a.csum then fCsumBad else 0) |||
    (if a.nhc then fNhcUnsup else 0)

/-- The status of a command that commits: TRUNCATED over NHC_UNSUPPORTED over CSUM_MISMATCH over its
own success status (R288 points 3 and 4). -/
def advStatus (a : Adv) (success : Status) : Status :=
  if a.trunc then .truncated
  else if a.nhc then .nhcUnsupported
  else if a.csum then .csumMismatch
  else success

end Sys2Proof.Machine
end

