-- ==== Sys2Proof/Machine/Bytes.lean ====
section
/-! DEFINITION. Byte order and bit fields, said once: big-endian assembly (20_memory.md R41), the
8- and 16-byte sequences as lists of bytes (00_scope.md R8), the class of a dispatch byte
(30_encoding.md R60), and the rotations of the traffic class (30_encoding.md R64). -/

namespace Sys2Proof

/-- The byte of a list at an index, 0 beyond its end. -/
def byteOf (l : List Byte) (i : Nat) : Byte := l.getD i 0

/-- The eight bytes in wire order. -/
def octBytes (o : Oct) : List Byte := [o.b0, o.b1, o.b2, o.b3, o.b4, o.b5, o.b6, o.b7]

/-- The eight bytes of a list from index `i` on. -/
def octAt (l : List Byte) (i : Nat) : Oct :=
  ⟨byteOf l i, byteOf l (i + 1), byteOf l (i + 2), byteOf l (i + 3),
   byteOf l (i + 4), byteOf l (i + 5), byteOf l (i + 6), byteOf l (i + 7)⟩

/-- The sixteen bytes of an address in wire order (R8). -/
def addrBytes (a : Addr) : List Byte := octBytes a.pfx ++ octBytes a.iid

/-- The sixteen bytes of a list from index `i` on, as an address. -/
def addrAt (l : List Byte) (i : Nat) : Addr := ⟨octAt l i, octAt l (i + 8)⟩

/-- A BYTES operand of exactly PREFIX_BYTES bytes (R101, R132), or none. -/
def octOperand (l : List Byte) : Option Oct :=
  if l.length = Config.prefixBytes then some (octAt l 0) else none

/-- A BYTES operand of exactly LINK_ADDR_BYTES bytes (R101, R118), or none. -/
def linkOperand (l : List Byte) : Option Oct :=
  if l.length = Config.linkAddrBytes then some (octAt l 0) else none

/-- A BYTES operand of exactly ADDR_BYTES bytes (R101), or none. -/
def addrOperand (l : List Byte) : Option Addr :=
  if l.length = Config.addrBytes then some (addrAt l 0) else none

/-- The unsigned big-endian integer of a byte sequence (R8 `MemRead`, R41). -/
def beNat (l : List Byte) : Nat := l.foldl (fun acc b => acc * 256 + b.toNat) 0

/-- A 16-bit word from its two bytes, the first the more significant (R41). -/
def be16 (hi lo : Byte) : BitVec 16 := hi ++ lo

/-- The two bytes of a 16-bit word, the more significant first (R41). -/
def be16Bytes (v : BitVec 16) : List Byte := [v.extractLsb' 8 8, v.extractLsb' 0 8]

/-- The four bytes of a 32-bit word, the most significant first (R41). -/
def be32Bytes (v : BitVec 32) : List Byte :=
  [v.extractLsb' 24 8, v.extractLsb' 16 8, v.extractLsb' 8 8, v.extractLsb' 0 8]

/-- Whether the flag of a mask (TC_C, FL_C, NH_C of R7) is set in IPHC byte 0 (R63, R65). -/
def flagSet (mask b0 : Byte) : Bool := b0 &&& mask != 0

/-- The same in the IPHC word, whose upper half is byte 0 (R62). -/
def wordFlag (mask : Byte) (w : BitVec 16) : Bool := flagSet mask (w.extractLsb' 8 8)

/-- The mask of a flag of IPHC byte 0 where the flag is set, else no bit (R63, R65). -/
def maskIf (mask : Byte) (c : Bool) : Byte := if c then mask else 0

/-- An IPHC word in which only the bits of `b0` in byte 0 are set (R62). -/
def wordOf (b0 : Byte) : BitVec 16 := b0 ++ (0 : Byte)

/-- The class code of a dispatch byte (R60, R180): 1 UNCOMP_IPV6, 2 IPHC, 3 FRAG1, 4 FRAGN,
0 OTHER. -/
def dispatchClass (d : Byte) : Nat :=
  if d = 0x41 then 1
  else if d &&& 0xE0 = 0x60 then 2
  else if d &&& 0xF8 = 0xC0 then 3
  else if d &&& 0xF8 = 0xE0 then 4
  else 0

/-- `wire_tc` of R64: ECN in bits 7:6, DSCP in bits 5:0. -/
def wireTc (tc : Byte) : Byte := ((tc &&& 0x03) <<< 6) ||| (tc >>> 2)

/-- `model_tc` of R64: DSCP in bits 7:2, ECN in bits 1:0. -/
def modelTc (w : Byte) : Byte := ((w <<< 2) &&& 0xFC) ||| ((w >>> 6) &&& 0x03)

/-- The three bytes of the flow label in the low 20 bits (R64, R153): the pad bits are 0. -/
def flBytes (fl : BitVec 20) : List Byte :=
  [(0 : BitVec 4) ++ fl.extractLsb' 16 4, fl.extractLsb' 8 8, fl.extractLsb' 0 8]

/-- The low 20 bits of three bytes (R64, R191): the top nibble of the first is ignored. -/
def flOf (x y z : Byte) : BitVec 20 := x.extractLsb' 0 4 ++ y ++ z

/-- `iid_from_link` of R68, R195: the link address with bit 0x02 of its first byte inverted. -/
def iidFromLink (l : Oct) : Oct :=
  ⟨l.b0 ^^^ 0x02, l.b1, l.b2, l.b3, l.b4, l.b5, l.b6, l.b7⟩

/-- `zeros(6) ++ inline[0..2)`: the IID of the 16-bit form (R68, R69). -/
def iidOf16 (x y : Byte) : Oct := ⟨0, 0, 0, 0, 0, 0, x, y⟩

/-- The 48-bit multicast form: `FF ++ x0 ++ zeros(9) ++ x1..x5` (R70). -/
def mc48 (x0 x1 x2 x3 x4 x5 : Byte) : Addr :=
  ⟨⟨0xFF, x0, 0, 0, 0, 0, 0, 0⟩, ⟨0, 0, 0, x1, x2, x3, x4, x5⟩⟩

/-- The 32-bit multicast form: `FF ++ x0 ++ zeros(11) ++ x1..x3` (R70). -/
def mc32 (x0 x1 x2 x3 : Byte) : Addr :=
  ⟨⟨0xFF, x0, 0, 0, 0, 0, 0, 0⟩, ⟨0, 0, 0, 0, 0, x1, x2, x3⟩⟩

/-- The 8-bit multicast form: `FF 02 ++ zeros(13) ++ x` (R70). -/
def mc8 (x : Byte) : Addr :=
  ⟨⟨0xFF, 0x02, 0, 0, 0, 0, 0, 0⟩, ⟨0, 0, 0, 0, 0, 0, 0, x⟩⟩

/-- A port of the 4-bit range: `0xF0B0 + d` (R81). -/
def nibblePort (d : BitVec 4) : BitVec 16 := Config.portBase + d.zeroExtend 16

end Sys2Proof
end

