-- ==== Sys2Proof/Machine/Operands.lean ====
section
/-! DEFINITION. The operand forms of the host commands (30_encoding.md R100, R101): ranges of
scalars, the signed delta (40_buffer_ops.md R116), the numbered spaces, attributes, fields and
payload kinds. -/

namespace Sys2Proof.Machine

/-- Whether a scalar operand lies in 0 to `hi` (R101). -/
def inRange (v : BitVec 32) (hi : Nat) : Bool := v.toNat ≤ hi

/-- A cursor offset operand is 0 to 0xFFFF (R112 to R115). -/
def offOk (off : BitVec 32) : Bool := inRange off 0xFFFF

/-- The signed reading of INCPOS's operand: 32-bit two's complement (R116). -/
def signedDelta (delta : BitVec 32) : Int := delta.toInt

/-- The code of a payload kind (R11, fld 7). -/
def pkindCode : PKind → BitVec 3
  | .none => 0
  | .udp => 1
  | .icmpv6 => 2
  | .hbh => 3
  | .opaqueBytes => 4

/-- The payload kind that SETPAYLOAD's operand names: 1 to 4 (R142). -/
def kindOperand (kind : BitVec 32) : Option PKind :=
  match kind.toNat with
  | 1 => some .udp
  | 2 => some .icmpv6
  | 3 => some .hbh
  | 4 => some .opaqueBytes
  | _ => none

/-- The buffer that RDBUF's `space` operand names (R121). -/
def spaceOperand (s : State) (space : BitVec 32) : Option Buf :=
  match space.toNat with
  | 0 => some s.fb
  | 1 => some s.pb
  | 2 => some s.ob
  | _ => none

/-- The next-header number that a payload kind fixes (R13, R142): OPAQUE and NONE fix none. -/
def dispatchCode : PKind → Option Byte
  | .udp => some Config.nhUdp
  | .icmpv6 => some Config.nhIcmpv6
  | .hbh => some Config.nhHbh
  | .opaqueBytes => none
  | .none => none

end Sys2Proof.Machine
end

