-- ==== Sys2Proof/Machine/Ops.lean ====
section
/-! DEFINITION. The shared operations: byte spaces and buffers (20_memory.md), the tolerant read
(R44, R45), the header-model fields, the context table lookup (41_context_table.md R131), and how a
command ends (47_system_ops.md R270, 60_exceptions.md R288 to R290). Ending a command is all the
block has of taking an exception (R289); there is no return from one (R292). -/

namespace Sys2Proof.Machine

/-! ## Byte spaces -/

/-- The byte of a space at an index: what was last written there; an index that nothing has written
reads as the free value of the draw (log 7, log 10). -/
def memByte (draw : Nat) (m : Memory) (a : Nat) : Byte :=
  (m.lookup a).getD (Config.unwrittenByte draw a)

/-- The `n` bytes of a space from an index on (R8 `MemRead`, as a sequence). -/
def memRange (draw : Nat) (m : Memory) (a n : Nat) : List Byte :=
  (List.range n).map (fun k => memByte draw m (a + k))

/-- Writing one byte, in order of index (R8 `MemWrite`). -/
def memWrite : Memory → Nat → Byte → Memory
  | [], a, v => [(a, v)]
  | (b, x) :: m, a, v =>
    if a < b then (a, v) :: (b, x) :: m
    else if a = b then (a, v) :: m
    else (b, x) :: memWrite m a v

/-- Writing a byte sequence from an index on. -/
def memWriteBytes : Memory → Nat → List Byte → Memory
  | m, _, [] => m
  | m, a, v :: l => memWriteBytes (memWrite m a v) (a + 1) l

/-- A byte sequence as the indices from `a` on. -/
def memOfFrom (a : Nat) : List Byte → Memory
  | [] => []
  | v :: l => (a, v) :: memOfFrom (a + 1) l

/-! ## Buffers -/

/-- A buffer that holds exactly a byte sequence (R111, R120, R150, R236). -/
def bufOf (l : List Byte) : Buf := ⟨l.length, memOfFrom 0 l⟩

/-- The bytes of a buffer at absolute indices. -/
def bufRange (b : Buf) (a n : Nat) : List Byte := memRange 0 b.mem a n

/-- The data of a buffer: the bytes below LEN. -/
def bufBytes (b : Buf) : List Byte := bufRange b 0 b.len

/-- Writing a byte sequence into a buffer at an index not above LEN (R115). -/
def bufSplice (b : Buf) (a : Nat) (l : List Byte) : Buf :=
  ⟨max b.len (a + l.length), memWriteBytes b.mem a l⟩

/-! ## The tolerant read -/

/-- `byte_at` of R44: FB.DATA below FB.LEN, 0 at and beyond it. -/
def byteAt (s : State) (i : Nat) : Byte := if i < s.fb.len then memByte 0 s.fb.mem i else 0

/-- `rd(off, 1)` of R44: the byte at a cursor-relative offset. The index never wraps. -/
def rdByte (s : State) (off : Nat) : Byte := byteAt s (s.cur.toNat + off)

/-- `rdb(off, n)` of R44: the bytes at cursor-relative offsets. -/
def rdb (s : State) (off n : Nat) : List Byte := (List.range n).map (fun k => rdByte s (off + k))

/-- `rd(off, n)` of R44: the big-endian integer of those bytes. -/
def rd (s : State) (off n : Nat) : Nat := beNat (rdb s off n)

/-- `rd(off, 2)` as a 16-bit word. -/
def rd16 (s : State) (off : Nat) : BitVec 16 := be16 (rdByte s off) (rdByte s (off + 1))

/-- `rdb(off, 8)`. -/
def rdOct (s : State) (off : Nat) : Oct :=
  ⟨rdByte s off, rdByte s (off + 1), rdByte s (off + 2), rdByte s (off + 3),
   rdByte s (off + 4), rdByte s (off + 5), rdByte s (off + 6), rdByte s (off + 7)⟩

/-- `rdb(off, 16)`. -/
def rdAddr (s : State) (off : Nat) : Addr := ⟨rdOct s off, rdOct s (off + 8)⟩

/-- Whether reading `n` bytes at offset `off` sets the truncation mark (R44, R45): some byte of
them lies at or beyond FB.LEN. -/
def past (s : State) (off n : Nat) : Bool :=
  decide (0 < n) && decide (s.fb.len < s.cur.toNat + off + n)

/-- `FB.LEN - FB.CUR` (R117), signed. -/
def payloadLen (s : State) : Int := (s.fb.len : Int) - (s.cur.toNat : Int)

/-- The frame's bytes from a cursor-relative offset to FB.LEN; none beyond the data. -/
def restOfFrame (s : State) (off : Nat) : List Byte :=
  bufRange s.fb (s.cur.toNat + off) (s.fb.len - (s.cur.toNat + off))

/-! ## The header model -/

/-- The scalar value of an HM field, zero-extended (R141). VERSION is hardwired to 6 (R11). -/
def hmScalar (m : HM) (fld : Nat) : BitVec 32 :=
  match fld with
  | 0 => 6
  | 1 => m.tc.zeroExtend 32
  | 2 => m.fl.zeroExtend 32
  | 3 => m.nh.zeroExtend 32
  | 4 => m.hlim.zeroExtend 32
  | 7 => (pkindCode m.pkind).zeroExtend 32
  | 8 => m.sport.zeroExtend 32
  | 9 => m.dport.zeroExtend 32
  | 10 => m.csum.zeroExtend 32
  | 11 => (BitVec.ofBool m.csumInline).zeroExtend 32
  | _ => 0

/-- The byte sequence of an HM field: 16 bytes for fld 5 and 6 (R141). -/
def hmOut (m : HM) (fld : Nat) : List Byte :=
  match fld with
  | 5 => addrBytes m.src
  | 6 => addrBytes m.dst
  | _ => []

/-- HM after a write of a field, none where the operand is outside the field's range or the field
is not the host's to write (R140). -/
def hmStore (m : HM) (fld value : BitVec 32) (addr : List Byte) : Option HM :=
  match fld.toNat with
  | 1 => if inRange value 0xFF then some { m with tc := value.truncate 8 } else none
  | 2 => if inRange value 0xFFFFF then some { m with fl := value.truncate 20 } else none
  | 3 => if inRange value 0xFF then some { m with nh := value.truncate 8 } else none
  | 4 => if inRange value 0xFF then some { m with hlim := value.truncate 8 } else none
  | 5 => (addrOperand addr).map (fun a => { m with src := a })
  | 6 => (addrOperand addr).map (fun a => { m with dst := a })
  | 8 => if inRange value 0xFFFF then some { m with sport := value.truncate 16 } else none
  | 9 => if inRange value 0xFFFF then some { m with dport := value.truncate 16 } else none
  | 10 =>
    if inRange value 0xFFFF then some { m with csum := value.truncate 16, csumInline := true }
    else none
  | 11 => if inRange value 1 then some { m with csumInline := value.getLsbD 0 } else none
  | _ => none

/-- The four UDP fields and PKIND of a header without a UDP shell (R12, R181, R207). -/
def noShell (m : HM) : HM :=
  { m with pkind := .none, sport := 0, dport := 0, csum := 0, csumInline := false }

/-- A header with a UDP shell (R181, R200); no checksum means it was elided. -/
def withShell (m : HM) (sport dport : BitVec 16) (k : Option (BitVec 16)) : HM :=
  { m with pkind := .udp, sport := sport, dport := dport, csum := k.getD 0,
           csumInline := k.isSome }

/-! ## The context table -/

/-- `lookup` of R131: the first valid slot whose prefix is the address's first 8 bytes. -/
def ctxFind (ctx : Vector CtxSlot Config.nCtx) (p : Oct) : Option Nat :=
  ctx.toList.findIdx? (fun c => c.valid && c.pfx == p)

/-- The slot of an index below 16 (R17). -/
def ctxSlot (ctx : Vector CtxSlot Config.nCtx) (i : Nat) : CtxSlot :=
  ctx.toList.getD i ⟨false, Oct.zero⟩

/-! ## The reassembly slots -/

/-- Every reassembly slot changed alike. -/
def mapSlots (f : FragSlot → FragSlot) (v : Vector FragSlot Config.fragSlots) :
    Vector FragSlot Config.fragSlots :=
  ⟨⟨v.toList.map f⟩, by simp⟩

/-- The reassembly slots in use changed alike: the first FRAG_SLOTS of those that State stores. -/
def mapUsed (n : Nat) (f : FragSlot → FragSlot) (v : Vector FragSlot Config.fragSlots) :
    Vector FragSlot Config.fragSlots :=
  ⟨⟨(v.toList.take n).map f ++ v.toList.drop n⟩, by simp; omega⟩

/-! ## Ending a command -/

/-- A hard error: its status and the position it names (R8 `raise`, R281). -/
structure Raise where
  status : Status
  pos : Nat
deriving DecidableEq, Repr

/-- Step 5 of R270: the command's status, position and results are written and returned, and the
temporaries are gone (R30). -/
def answer (st : Status) (pos : Nat) (r0 r1 : BitVec 32) (out : List Byte) (s : State) : State :=
  { s with
    status := statusCode st
    errpos := BitVec.ofNat 16 pos
    res0 := r0
    res1 := r1
    walk := Walk.idle
    resp := some ⟨statusCode st, r0, r1, out⟩ }

/-- A hard error ends the command: nothing else changes (R270 step 4, R289, R290). -/
def hardError (r : Raise) (s : State) : State := answer r.status r.pos 0 0 [] s

/-- A command that commits: the flags of its advisories are set, its status is chosen by R288. -/
def finish (a : Adv) (success : Status) (r0 r1 : BitVec 32) (out : List Byte) (s : State) : State :=
  answer (advStatus a success) 0 r0 r1 out { s with flags := s.flags ||| advFlags a }

/-- A command that commits with no advisory and status OK. -/
def done (r0 r1 : BitVec 32) (out : List Byte) (s : State) : State := finish noAdv .ok r0 r1 out s

/-- BAD_OPERAND (R101). -/
def badOperand : Raise := ⟨.badOperand, 0⟩

/-- BAD_INDEX (R281). -/
def badIndex : Raise := ⟨.badIndex, 0⟩

/-- BAD_MODEL (R281). -/
def badModel : Raise := ⟨.badModel, 0⟩

end Sys2Proof.Machine
end

