-- ==== Sys2Proof/Machine/BufferOps.lean ====
section
/-! DEFINITION. The byte-cursor buffer commands (40_buffer_ops.md R110 to R121). -/

namespace Sys2Proof.Machine

/-- SETBYTES (R111) with FB_CAP as an input: replaces FB and puts the cursor at 0; the attributes
stay. -/
def setbytesState (p : Params) (data : List Byte) (s : State) : State :=
  if data.length > p.fbCap then hardError badOperand s
  else done 0 0 [] { s with fb := bufOf data, cur := 0 }

/-- SETBYTES (R111). -/
def execSetbytes (data : List Byte) (s : State) : Host.Outcome State Fault Refusal :=
  .next (setbytesState Config.params data s)

/-- The three cursor-relative reads of `n` bytes (R112 to R114): the value is zero-extended, a byte
beyond the data reads 0 and notes TRUNCATED. -/
def readCommand (n : Nat) (off : BitVec 32) (s : State) : State :=
  if offOk off then
    finish (truncAdv (past s off.toNat n)) .ok (BitVec.ofNat 32 (rd s off.toNat n)) 0 [] s
  else hardError badOperand s

/-- GETBYTE (R112). -/
def execGetbyte (off : BitVec 32) (s : State) : Host.Outcome State Fault Refusal :=
  .next (readCommand 1 off s)

/-- GET16 (R113). -/
def execGet16 (off : BitVec 32) (s : State) : Host.Outcome State Fault Refusal :=
  .next (readCommand 2 off s)

/-- GET24 (R114). -/
def execGet24 (off : BitVec 32) (s : State) : Host.Outcome State Fault Refusal :=
  .next (readCommand 3 off s)

/-- COPYOUT (R115) with PB_CAP as an input: FB bytes, zero-filled beyond the data, into PB at
`dstOff`. -/
def copyoutState (p : Params) (srcOff dstOff length : BitVec 32) (s : State) : State :=
  if offOk srcOff = false ∨ s.pb.len < dstOff.toNat ∨
      p.pbCap < dstOff.toNat + length.toNat then
    hardError badOperand s
  else
    finish (truncAdv (past s srcOff.toNat length.toNat)) .ok 0 0 []
      { s with pb := bufSplice s.pb dstOff.toNat (rdb s srcOff.toNat length.toNat) }

/-- COPYOUT (R115). -/
def execCopyout (srcOff dstOff length : BitVec 32) (s : State) :
    Host.Outcome State Fault Refusal :=
  .next (copyoutState Config.params srcOff dstOff length s)

/-- INCPOS (R116) with CUR_W as an input: the cursor moves by a signed delta and never leaves 0 to
all ones in CUR_W bits. -/
def incposState (p : Params) (delta : BitVec 32) (s : State) : State :=
  let t : Int := (s.cur.toNat : Int) + signedDelta delta
  if t < 0 ∨ (p.curMax : Int) < t then hardError badOperand s
  else done (BitVec.ofInt 32 t) 0 [] { s with cur := BitVec.ofInt Config.curW t }

/-- INCPOS (R116). -/
def execIncpos (delta : BitVec 32) (s : State) : Host.Outcome State Fault Refusal :=
  .next (incposState Config.params delta s)

/-- PAYLOADLEN (R117): signed, not clamped. -/
def execPayloadlen (s : State) : Host.Outcome State Fault Refusal :=
  .next (done (BitVec.ofInt 32 (payloadLen s)) 0 [] s)

/-- SETATTR (R118): VALID is written; the content only with VALID = 1. -/
def execSetattr (att valid value : BitVec 32) (addr : List Byte) (s : State) :
    Host.Outcome State Fault Refusal :=
  if inRange att 2 = false ∨ inRange valid 1 = false then .next (hardError badOperand s)
  else if att.toNat = 2 then
    .next (done 0 0 []
      { s with pktType := if valid = 1 then ⟨true, value⟩ else ⟨false, s.pktType.val⟩ })
  else if valid = 1 then
    match linkOperand addr with
    | none => .next (hardError badOperand s)
    | some a =>
      if att = 0 then .next (done 0 0 [] { s with linkSrc := ⟨true, a⟩ })
      else .next (done 0 0 [] { s with linkDst := ⟨true, a⟩ })
  else if att = 0 then .next (done 0 0 [] { s with linkSrc := ⟨false, s.linkSrc.addr⟩ })
  else .next (done 0 0 [] { s with linkDst := ⟨false, s.linkDst.addr⟩ })

/-- A VALID bit as a result (R119, R134). -/
def validBit (v : Bool) : BitVec 32 := if v then 1 else 0

/-- What GETATTR answers for a link address (R119). -/
def linkAnswer (a : LinkAttr) (s : State) : State :=
  done (validBit a.valid) 0 (octBytes (if a.valid then a.addr else Oct.zero)) s

/-- GETATTR (R119). -/
def execGetattr (att : BitVec 32) (s : State) : Host.Outcome State Fault Refusal :=
  match att.toNat with
  | 0 => .next (linkAnswer s.linkSrc s)
  | 1 => .next (linkAnswer s.linkDst s)
  | 2 =>
    .next (done (validBit s.pktType.valid) (if s.pktType.valid then s.pktType.val else 0) [] s)
  | _ => .next (hardError badOperand s)

/-- PB_LOAD (R120) with PB_CAP as an input: replaces PB. -/
def pbLoadState (p : Params) (data : List Byte) (s : State) : State :=
  if data.length > p.pbCap then hardError badOperand s
  else done 0 0 [] { s with pb := bufOf data }

/-- PB_LOAD (R120). -/
def execPbLoad (data : List Byte) (s : State) : Host.Outcome State Fault Refusal :=
  .next (pbLoadState Config.params data s)

/-- RDBUF (R121): absolute indices, bounds-checked, not tolerant. -/
def execRdbuf (space off length : BitVec 32) (s : State) : Host.Outcome State Fault Refusal :=
  match spaceOperand s space with
  | none => .next (hardError badOperand s)
  | some b =>
    if b.len < off.toNat + length.toNat then .next (hardError badOperand s)
    else .next (done 0 0 (bufRange b off.toNat length.toNat) s)

end Sys2Proof.Machine
end

