-- ==== Sys2Proof/Machine/ContextTable.lean ====
section
/-! DEFINITION. The address-context table commands (41_context_table.md R130 to R134). -/

namespace Sys2Proof.Machine

/-- CTX_SET (R132): the length of the prefix is checked before the index. -/
def execCtxSet (idx : BitVec 32) (pfx : List Byte) (s : State) :
    Host.Outcome State Fault Refusal :=
  match octOperand pfx with
  | none => .next (hardError badOperand s)
  | some p =>
    if h : idx.toNat < Config.nCtx then
      .next (done 0 0 [] { s with ctx := s.ctx.set idx.toNat ⟨true, p⟩ h })
    else .next (hardError badIndex s)

/-- CTX_LOOKUP (R133): found and index, both 0 when no slot matches. -/
def execCtxLookup (addr : List Byte) (s : State) : Host.Outcome State Fault Refusal :=
  match addrOperand addr with
  | none => .next (hardError badOperand s)
  | some a =>
    match ctxFind s.ctx a.pfx with
    | some i => .next (done 1 (BitVec.ofNat 32 i) [] s)
    | none => .next (done 0 0 [] s)

/-- CTX_GET (R134): an invalid slot answers eight bytes of 0. -/
def execCtxGet (idx : BitVec 32) (s : State) : Host.Outcome State Fault Refusal :=
  if idx.toNat < Config.nCtx then
    let c := ctxSlot s.ctx idx.toNat
    .next (done (validBit c.valid) 0 (octBytes (if c.valid then c.pfx else Oct.zero)) s)
  else .next (hardError badIndex s)

end Sys2Proof.Machine
end

