-- ==== Sys2Proof/Machine/Checksum.lean ====
section
/-! DEFINITION. The checksum unit (46_checksum.md R250 to R259): the arithmetic and its five
commands. -/

namespace Sys2Proof.Machine

/-- Ones'-complement addition with end-around carry (R250). -/
def ocAdd (a b : BitVec 16) : BitVec 16 :=
  if 0xFFFF < a.toNat + b.toNat then BitVec.ofNat 16 (a.toNat + b.toNat - 0xFFFF)
  else BitVec.ofNat 16 (a.toNat + b.toNat)

/-- `fold` of R251: big-endian words; an odd last byte is the high half of a word. -/
def foldSum : BitVec 16 → List Byte → BitVec 16
  | s, [] => s
  | s, [x] => ocAdd s (be16 x 0)
  | s, x :: y :: l => foldSum (ocAdd s (be16 x y)) l

/-- The pseudo-header sum (R252): the two halves of the length, the next header, both addresses. -/
def pseudoSum (nh : Byte) (plen : BitVec 32) (src dst : Addr) : BitVec 16 :=
  let s0 := ocAdd 0 (plen.extractLsb' 16 16)
  let s1 := ocAdd s0 (plen.extractLsb' 0 16)
  let s2 := ocAdd s1 (nh.zeroExtend 16)
  foldSum (foldSum s2 (addrBytes src)) (addrBytes dst)

/-- `ulen` of R256: payload bytes and the 8-byte UDP header. -/
def udpLen (payload : List Byte) : Nat := payload.length + Config.udpHdr

/-- `s3` of R256: pseudo-header, synthetic UDP header with a zero checksum field, payload. -/
def udpSum (src dst : Addr) (sport dport : BitVec 16) (payload : List Byte) : BitVec 16 :=
  let ulen := udpLen payload
  let s1 := pseudoSum Config.nhUdp (BitVec.ofNat 32 ulen) src dst
  let s2 := foldSum s1
    (be16Bytes sport ++ be16Bytes dport ++ be16Bytes (BitVec.ofNat 16 ulen) ++ [0, 0])
  foldSum s2 payload

/-- The UDP checksum of a header model over a payload (R256): the complement of the sum, a 0 as it
comes. -/
def udpChecksum (m : HM) (payload : List Byte) : BitVec 16 :=
  ~~~ (udpSum m.src m.dst m.sport m.dport payload)

/-- The sum that `udpChecksum` leaves in SUM (R256). -/
def udpSumOf (m : HM) (payload : List Byte) : BitVec 16 :=
  udpSum m.src m.dst m.sport m.dport payload

/-- CSUM_PSEUDO (R253): starts a new sum. -/
def execCsumPseudo (nh payloadLength : BitVec 32) (addrs : List Byte) (s : State) :
    Host.Outcome State Fault Refusal :=
  if inRange nh 0xFF = false ∨ addrs.length ≠ 32 then .next (hardError badOperand s)
  else
    let v := pseudoSum (nh.truncate 8) payloadLength (addrAt addrs 0) (addrAt addrs 16)
    .next (done (v.zeroExtend 32) 0 [] { s with sum := v })

/-- CSUM_FOLD (R254): folds a range of PB into SUM. -/
def execCsumFold (off length : BitVec 32) (s : State) : Host.Outcome State Fault Refusal :=
  if s.pb.len < off.toNat + length.toNat then .next (hardError badOperand s)
  else
    let v := foldSum s.sum (bufRange s.pb off.toNat length.toNat)
    .next (done (v.zeroExtend 32) 0 [] { s with sum := v })

/-- CSUM_FINAL (R255): the complement of SUM; SUM stays. -/
def execCsumFinal (s : State) : Host.Outcome State Fault Refusal :=
  .next (done ((~~~ s.sum).zeroExtend 32) 0 [] s)

/-- UDP_CSUM (R257): the checksum of HM over PB, written into HM. -/
def execUdpCsum (s : State) : Host.Outcome State Fault Refusal :=
  if s.hm.pkind ≠ .udp then .next (hardError badModel s)
  else
    let c := udpChecksum s.hm (bufBytes s.pb)
    .next (done (c.zeroExtend 32) 0 []
      { s with sum := udpSumOf s.hm (bufBytes s.pb)
               hm := { s.hm with csum := c, csumInline := true } })

/-- UDP_VERIFY (R258): the checksum of HM over the rest of the frame; compared when one was carried,
stored when it was elided. -/
def execUdpVerify (s : State) : Host.Outcome State Fault Refusal :=
  if s.hm.pkind ≠ .udp then .next (hardError badModel s)
  else
    let payload := restOfFrame s 0
    let c := udpChecksum s.hm payload
    let kept := if s.hm.csumInline then s.hm.csum else c
    .next (finish ⟨decide (s.fb.len < s.cur.toNat), false, decide (c ≠ kept)⟩ .ok
      (c.zeroExtend 32) (kept.zeroExtend 32) []
      { s with sum := udpSumOf s.hm payload
               hm := { s.hm with csum := kept } })

end Sys2Proof.Machine
end

