-- ==== Sys2Proof/Machine/Encoder.lean ====
section
/-! DEFINITION. The IPHC encoder (43_iphc_encoder.md R150 to R173). Each step answers its bits of
the IPHC word and its inline bytes, as the spec's pseudocode does. -/

namespace Sys2Proof.Machine

/-- `check_model` of R151: a payload is attached and NH is the one its kind fixes. -/
def modelOk (m : HM) : Bool :=
  match m.pkind with
  | .none => false
  | .udp => m.nh == Config.nhUdp
  | .icmpv6 => m.nh == Config.nhIcmpv6
  | .hbh => m.nh == Config.nhHbh
  | .opaqueBytes => true

/-- A context index as a nibble, 0 where the side did not match (R152). -/
def ctxNibble (c : Option Nat) : BitVec 4 := BitVec.ofNat 4 (c.getD 0)

/-- Step 1 (R152): the CID flag and byte are there when either address matches a slot. -/
def stepCid (sctx dctx : Option Nat) : Byte × List Byte :=
  if sctx.isSome || dctx.isSome then (0x80, [ctxNibble sctx ++ ctxNibble dctx]) else (0, [])

/-- Step 2 (R153): traffic class and flow label in 0, 1, 3 or 4 bytes. -/
def stepTf (tc : BitVec 8) (fl : BitVec 20) : Byte × List Byte :=
  if fl = 0 ∧ tc = 0 then (Config.tcC ||| Config.flC, [])
  else if fl = 0 then (Config.flC, [wireTc tc])
  else if tc = 0 then (Config.tcC, flBytes fl)
  else (0, wireTc tc :: flBytes fl)

/-- Step 3 (R154): the next header is elided for the payload kind UDP. -/
def stepNh (m : HM) : Byte × List Byte :=
  if m.pkind = .udp then (Config.nhC, []) else (0, [m.nh])

/-- Step 4 (R155): the hop limits 1, 64 and 255 have codes. -/
def stepHlim (h : BitVec 8) : Byte × List Byte :=
  if h = 1 then (0x01, [])
  else if h = 64 then (0x02, [])
  else if h = 255 then (0x03, [])
  else (0x00, [h])

/-- `mac_derived` of R157. -/
def macDerived (a : Addr) (la : LinkAttr) : Bool := la.valid && a.iid == iidFromLink la.addr

/-- `iid16` of R158: bytes 8 to 13 and the high nibble of byte 14 are 0. -/
def iid16 (a : Addr) : Bool :=
  a.iid.b0 == 0 && a.iid.b1 == 0 && a.iid.b2 == 0 && a.iid.b3 == 0 && a.iid.b4 == 0 &&
    a.iid.b5 == 0 && a.iid.b6 &&& 0xF0 == 0

/-- `uni` of R160: the context bit, the mode and the inline bytes of a unicast address. -/
def uni (a : Addr) (c : Option Nat) (la : LinkAttr) : Bool × BitVec 2 × List Byte :=
  if c.isSome || a.pfx == Config.linkLocal then
    if macDerived a la then (c.isSome, 0b11, [])
    else if iid16 a then (c.isSome, 0b10, [a.iid.b6, a.iid.b7])
    else (c.isSome, 0b01, octBytes a.iid)
  else (false, 0b00, addrBytes a)

/-- Step 5 (R156): the unspecified source comes first. -/
def stepSrc (a : Addr) (c : Option Nat) (la : LinkAttr) : Byte × List Byte :=
  if a = Addr.zero then (0x40, [])
  else
    let u := uni a c la
    ((0 : BitVec 1) ++ BitVec.ofBool u.1 ++ u.2.1 ++ (0 : BitVec 4), u.2.2)

/-- `mcast` of R162: the 8-bit, then the 32-bit, then the 48-bit, then the full form. -/
def mcast (a : Addr) : BitVec 2 × List Byte :=
  let p := a.pfx
  let i := a.iid
  if a = mc8 i.b7 then (0b11, [i.b7])
  else if a = mc32 p.b1 i.b5 i.b6 i.b7 then (0b10, [p.b1, i.b5, i.b6, i.b7])
  else if a = mc48 p.b1 i.b3 i.b4 i.b5 i.b6 i.b7 then
    (0b01, [p.b1, i.b3, i.b4, i.b5, i.b6, i.b7])
  else (0b00, addrBytes a)

/-- Step 6 (R161): a multicast destination never uses a context. -/
def stepDst (a : Addr) (c : Option Nat) (la : LinkAttr) : Byte × List Byte :=
  if a.pfx.b0 = 0xFF then
    let f := mcast a
    ((0b000010 : BitVec 6) ++ f.1, f.2)
  else
    let u := uni a c la
    ((0 : BitVec 5) ++ BitVec.ofBool u.1 ++ u.2.1, u.2.2)

/-- Whether a port is in 0xF0B0 to 0xF0BF (R165). -/
def portInRange (p : BitVec 16) : Bool :=
  Config.portBase.toNat ≤ p.toNat && p.toNat ≤ Config.portBase.toNat + 15

/-- Step 7 (R165): the UDP NHC header; the checksum is always sent in full. -/
def stepUdp (m : HM) : List Byte :=
  if portInRange m.sport && portInRange m.dport then
    0xF3 :: ((m.sport - Config.portBase).extractLsb' 0 4 ++
      (m.dport - Config.portBase).extractLsb' 0 4) :: be16Bytes m.csum
  else 0xF0 :: (be16Bytes m.sport ++ be16Bytes m.dport ++ be16Bytes m.csum)

/-- The compressed header (R150): the IPHC word, the CID byte, the inline fields in order, the UDP
NHC header. -/
def compressHeader (m : HM) (sctx dctx : Option Nat) (ls ld : LinkAttr) : List Byte :=
  let cid := stepCid sctx dctx
  let tf := stepTf m.tc m.fl
  let nh := stepNh m
  let hl := stepHlim m.hlim
  let src := stepSrc m.src sctx ls
  let dst := stepDst m.dst dctx ld
  let nhc := if m.pkind = .udp then stepUdp m else []
  (0x60 ||| tf.1 ||| nh.1 ||| hl.1) :: (cid.1 ||| src.1 ||| dst.1) ::
    (cid.2 ++ tf.2 ++ nh.2 ++ hl.2 ++ src.2 ++ dst.2 ++ nhc)

/-- The compressed header of the state's model with its table and link addresses (R150, R173). -/
def encodedHeader (s : State) : List Byte :=
  compressHeader s.hm (ctxFind s.ctx s.hm.src.pfx) (ctxFind s.ctx s.hm.dst.pfx) s.linkSrc s.linkDst

/-- Whether the checksum check of R170 fails: the model's UDP checksum is not the computed one. -/
def csumMismatch (s : State) : Bool :=
  decide (s.hm.pkind = .udp) && udpChecksum s.hm (bufBytes s.pb) != s.hm.csum

/-- ENCODE (R150 to R172) with OB_CAP as an input: header and payload into OB; HM is not changed. -/
def encodeState (p : Params) (s : State) : State :=
  if modelOk s.hm = false then hardError badModel s
  else
    let hdr := encodedHeader s
    if p.obCap < hdr.length + s.pb.len then hardError ⟨.outputOverflow, 0⟩ s
    else
      finish (csumAdv (csumMismatch s)) .ok (BitVec.ofNat 32 hdr.length)
        (BitVec.ofNat 32 (hdr.length + s.pb.len)) []
        { s with
          ob := bufOf (hdr ++ bufBytes s.pb)
          sum := if s.hm.pkind = .udp then udpSumOf s.hm (bufBytes s.pb) else s.sum }

/-- ENCODE (R150). -/
def execEncode (s : State) : Host.Outcome State Fault Refusal :=
  .next (encodeState Config.params s)

end Sys2Proof.Machine
end

