-- ==== Sys2Proof/Machine/System.lean ====
section
/-! DEFINITION. The system commands (47_system_ops.md R271 to R273) and the end of a tuple whose
opcode is unknown (30_encoding.md R102). -/

namespace Sys2Proof.Machine

/-- A reassembly slot after the command RESET: absent, its scalar fields as after power-on (log 8),
its buffer not cleared (R35, R271). -/
def resetSlot (f : FragSlot) : FragSlot := { FragSlot.reset with buf := f.buf, draw := f.draw }

/-- Every piece of state at its reset value (R35, R271), but for the reassembly buffers, which are
not cleared, and the model's own `draws` and `host` (log 7, log 15). -/
def resetState (s : State) : State :=
  { State.reset with frag := mapSlots resetSlot s.frag, draws := s.draws, host := s.host }

/-- RESET (R271): STATUS is then written OK. -/
def execReset (s : State) : Host.Outcome State Fault Refusal :=
  .next (done 0 0 [] (resetState s))

/-- CLRFLAGS (R272). -/
def execClrflags (mask : BitVec 32) (s : State) : Host.Outcome State Fault Refusal :=
  if inRange mask 0xF then
    let f := s.flags &&& ~~~ (mask.truncate 4)
    .next (done (f.zeroExtend 32) 0 [] { s with flags := f })
  else .next (hardError badOperand s)

/-- The packed status of R273: STATUS in bits 7:0, FLAGS in 11:8, ERRPOS in 31:16. -/
def packedStatus (s : State) : BitVec 32 :=
  s.errpos ++ (0 : BitVec 4) ++ s.flags ++ s.status

/-- RDSTATUS (R273): writes RES0 and RES1 but neither STATUS nor ERRPOS, and itself returns OK. -/
def execRdstatus (s : State) : Host.Outcome State Fault Refusal :=
  .next { s with
    res0 := packedStatus s
    res1 := s.evictCount
    walk := Walk.idle
    resp := some ⟨statusCode .ok, packedStatus s, s.evictCount, []⟩ }

/-- A tuple whose opcode is not in the table (R102, R270 step 2). -/
def badCommand (s : State) : State := hardError ⟨.badCommand, 0⟩ s

end Sys2Proof.Machine
end

