-- ==== Sys2Proof/WellFormed.lean ====
section
/-! DEFINITION. When an instruction is one the encoding has (30_encoding.md R60, R95): the operands'
types already hold every width, so two checks remain, the two rows defined as "anything else". -/

namespace Sys2Proof

/-- Whether the encoding has the instruction: an OTHER dispatch byte matches none of the four
patterns (R60), an NHC_OTHER byte is not `11110xxx` (R80, R95). A command tuple may hold any
operands (R100, R101: a bad one is refused when the command runs). -/
def Instr.wellFormed : Instr → Bool
  | .other b => dispatchClass b == 0
  | .nhcOther b => b &&& 0xF8 != 0xF0
  | .setbytes _ | .getbyte _ | .get16 _ | .get24 _ | .copyout _ _ _ | .incpos _ | .payloadlen
  | .setattr _ _ _ _ | .getattr _ | .pbLoad _ | .rdbuf _ _ _ | .ctxSet _ _ | .ctxLookup _
  | .ctxGet _ | .hmWr _ _ _ | .hmRd _ | .setpayload _ | .encode | .classify | .decode | .reasm _
  | .sweep _ | .fragStat _ | .csumPseudo _ _ _ | .csumFold _ _ | .csumFinal | .udpCsum | .udpVerify
  | .reset | .clrflags _ | .rdstatus => true
  | .uncompIpv6 | .iphc _ _ _ _ | .frag1 _ | .fragn _ | .iphcWord _ _ _ _ _ _ _ _ _ _
  | .cidByte _ _ | .frag1Hdr _ _ | .fragnHdr _ _ _ => true
  | .tfElided | .tfTcOnly _ _ | .tfFlOnly _ _ _ | .tfFull _ _ _ _ | .nhInline _ | .nhUdpNhc
  | .hlimInline _ | .hlim1 | .hlim64 | .hlim255 => true
  | .srcFull _ | .srcLl64 _ | .srcLl16 _ _ | .srcLlMac | .srcUnspec | .srcCtx64 _ | .srcCtx16 _ _
  | .srcCtxMac => true
  | .dstFull _ | .dstLl64 _ | .dstLl16 _ _ | .dstLlMac | .dstReservedDac1Dam00 | .dstCtx64 _
  | .dstCtx16 _ _ | .dstCtxMac | .dstMcFull _ | .dstMc48 _ _ _ _ _ _ | .dstMc32 _ _ _ _ | .dstMc8 _
  | .dstReservedM1Dac1 _ => true
  | .udpNhcFullPorts _ _ _ | .udpNhcNibblePorts _ _ _ | .udpNhcP01 _ | .udpNhcP10 _ => true

end Sys2Proof
end

