-- ==== Sys2Proof/Decode.lean ====
section
/-! DEFINITION. The decoder, total on every encoded instruction and rejecting by name, then the
encoder. Commands: 30_encoding.md R100 to R102. Wire format: 30_encoding.md R60 to R92. -/

namespace Sys2Proof

/-- Why an encoded instruction is no instruction. -/
inductive Reject where
  /-- the opcode is not in the table of R100 (R102: BAD_COMMAND) -/
  | badOpcode (op : BitVec 8)
  /-- the bits 15:13 of an IPHC word are not `011` (R62, R190: NOT_IPHC) -/
  | notIphcWord (w : BitVec 16)
  /-- fewer bytes than the piece has -/
  | tooShort (slot : Slot)
deriving DecidableEq, Repr

/-- The command of a tuple, by the opcode table of R100. Scalars and BYTES that the command does not
name are ignored (R101). -/
def decodeCommand (t : CmdTuple) : Except Reject Instr :=
  match t.op with
  | 0x01#8 => .ok (.setbytes t.bytes)
  | 0x02#8 => .ok (.getbyte t.a0)
  | 0x03#8 => .ok (.get16 t.a0)
  | 0x04#8 => .ok (.get24 t.a0)
  | 0x05#8 => .ok (.copyout t.a0 t.a1 t.a2)
  | 0x06#8 => .ok (.incpos t.a0)
  | 0x07#8 => .ok .payloadlen
  | 0x08#8 => .ok (.setattr t.a0 t.a1 t.a2 t.bytes)
  | 0x09#8 => .ok (.getattr t.a0)
  | 0x0A#8 => .ok (.pbLoad t.bytes)
  | 0x0B#8 => .ok (.rdbuf t.a0 t.a1 t.a2)
  | 0x10#8 => .ok (.ctxSet t.a0 t.bytes)
  | 0x11#8 => .ok (.ctxLookup t.bytes)
  | 0x12#8 => .ok (.ctxGet t.a0)
  | 0x18#8 => .ok (.hmWr t.a0 t.a1 t.bytes)
  | 0x19#8 => .ok (.hmRd t.a0)
  | 0x1A#8 => .ok (.setpayload t.a0)
  | 0x20#8 => .ok .encode
  | 0x28#8 => .ok .classify
  | 0x29#8 => .ok .decode
  | 0x30#8 => .ok (.reasm t.a0)
  | 0x31#8 => .ok (.sweep t.a0)
  | 0x32#8 => .ok (.fragStat t.a0)
  | 0x38#8 => .ok (.csumPseudo t.a0 t.a1 t.bytes)
  | 0x39#8 => .ok (.csumFold t.a0 t.a1)
  | 0x3A#8 => .ok .csumFinal
  | 0x3B#8 => .ok .udpCsum
  | 0x3C#8 => .ok .udpVerify
  | 0x40#8 => .ok .reset
  | 0x41#8 => .ok (.clrflags t.a0)
  | 0x42#8 => .ok .rdstatus
  | op => .error (.badOpcode op)

/-- The row of a dispatch byte (R60). -/
def dispatchRow (d : Byte) : Instr :=
  if d = 0x41 then .uncompIpv6
  else if d &&& 0xE0 = 0x60 then
    .iphc (flagSet Config.tcC d) (flagSet Config.flC d) (flagSet Config.nhC d) (d.extractLsb' 0 2)
  else if d &&& 0xF8 = 0xC0 then .frag1 (d.extractLsb' 0 3)
  else if d &&& 0xF8 = 0xE0 then .fragn (d.extractLsb' 0 3)
  else .other d

/-- The row of an IPHC word (R62). -/
def wordRow (w : BitVec 16) : Except Reject Instr :=
  if w.extractLsb' 13 3 = 0b011 then
    .ok (.iphcWord (wordFlag Config.tcC w) (wordFlag Config.flC w) (wordFlag Config.nhC w)
      (w.extractLsb' 8 2) (w.getLsbD 7) (w.getLsbD 6) (w.extractLsb' 4 2) (w.getLsbD 3)
      (w.getLsbD 2) (w.extractLsb' 0 2))
  else .error (.notIphcWord w)

/-- The traffic class and flow label row (R63, R64), by the masks TC_C and FL_C. -/
def tfRow (w : BitVec 16) (l : List Byte) : Instr :=
  let x := byteOf l 0
  match wordFlag Config.tcC w, wordFlag Config.flC w with
  | true, true => .tfElided
  | false, true => .tfTcOnly (x.extractLsb' 6 2) (x.extractLsb' 0 6)
  | true, false =>
    .tfFlOnly (x.extractLsb' 6 2) (x.extractLsb' 4 2) (flOf x (byteOf l 1) (byteOf l 2))
  | false, false =>
    .tfFull (x.extractLsb' 6 2) (x.extractLsb' 0 6) ((byteOf l 1).extractLsb' 4 4)
      (flOf (byteOf l 1) (byteOf l 2) (byteOf l 3))

/-- The next-header row (R65), by the mask NH_C. -/
def nhRow (w : BitVec 16) (l : List Byte) : Instr :=
  if wordFlag Config.nhC w then .nhUdpNhc else .nhInline (byteOf l 0)

/-- The hop-limit row (R66). -/
def hlimRow (w : BitVec 16) (l : List Byte) : Instr :=
  match w.getLsbD 9, w.getLsbD 8 with
  | false, false => .hlimInline (byteOf l 0)
  | false, true => .hlim1
  | true, false => .hlim64
  | true, true => .hlim255

/-- The source address row (R68): SAC is bit 6, SAM bits 5:4 of the word. -/
def srcRow (w : BitVec 16) (l : List Byte) : Instr :=
  match w.getLsbD 6, w.getLsbD 5, w.getLsbD 4 with
  | false, false, false => .srcFull (addrAt l 0)
  | false, false, true => .srcLl64 (octAt l 0)
  | false, true, false => .srcLl16 (byteOf l 0) (byteOf l 1)
  | false, true, true => .srcLlMac
  | true, false, false => .srcUnspec
  | true, false, true => .srcCtx64 (octAt l 0)
  | true, true, false => .srcCtx16 (byteOf l 0) (byteOf l 1)
  | true, true, true => .srcCtxMac

/-- The destination address row (R70): M is bit 3, DAC bit 2, DAM bits 1:0 of the word. -/
def dstRow (w : BitVec 16) (l : List Byte) : Instr :=
  match w.getLsbD 3, w.getLsbD 2, w.getLsbD 1, w.getLsbD 0 with
  | false, false, false, false => .dstFull (addrAt l 0)
  | false, false, false, true => .dstLl64 (octAt l 0)
  | false, false, true, false => .dstLl16 (byteOf l 0) (byteOf l 1)
  | false, false, true, true => .dstLlMac
  | false, true, false, false => .dstReservedDac1Dam00
  | false, true, false, true => .dstCtx64 (octAt l 0)
  | false, true, true, false => .dstCtx16 (byteOf l 0) (byteOf l 1)
  | false, true, true, true => .dstCtxMac
  | true, false, false, false => .dstMcFull (addrAt l 0)
  | true, false, false, true =>
    .dstMc48 (byteOf l 0) (byteOf l 1) (byteOf l 2) (byteOf l 3) (byteOf l 4) (byteOf l 5)
  | true, false, true, false => .dstMc32 (byteOf l 0) (byteOf l 1) (byteOf l 2) (byteOf l 3)
  | true, false, true, true => .dstMc8 (byteOf l 0)
  | true, true, x, y => .dstReservedM1Dac1 (BitVec.ofBool x ++ BitVec.ofBool y)

/-- The checksum field of a UDP NHC header, carried iff bit 0x04 of the NHC byte is 0 (R82). -/
def nhcCsum (n hi lo : Byte) : Option (BitVec 16) :=
  if n.getLsbD 2 then none else some (be16 hi lo)

/-- The row of an NHC header (R80 to R82, R95). -/
def nhcRow (l : List Byte) : Instr :=
  let n := byteOf l 0
  if n &&& 0xF8 = 0xF0 then
    match n.getLsbD 1, n.getLsbD 0 with
    | false, false =>
      .udpNhcFullPorts (be16 (byteOf l 1) (byteOf l 2)) (be16 (byteOf l 3) (byteOf l 4))
        (nhcCsum n (byteOf l 5) (byteOf l 6))
    | false, true => .udpNhcP01 (n.getLsbD 2)
    | true, false => .udpNhcP10 (n.getLsbD 2)
    | true, true =>
      .udpNhcNibblePorts ((byteOf l 1).extractLsb' 4 4) ((byteOf l 1).extractLsb' 0 4)
        (nhcCsum n (byteOf l 2) (byteOf l 3))
  else .nhcOther n

/-- The first-fragment header row (R90): its size field and tag. -/
def frag1HdrRow (l : List Byte) : Instr :=
  .frag1Hdr ((be16 (byteOf l 0) (byteOf l 1)).extractLsb' 0 11) (be16 (byteOf l 2) (byteOf l 3))

/-- The continuation-fragment header row (R91): its size field, tag and offset. -/
def fragnHdrRow (l : List Byte) : Instr :=
  .fragnHdr ((be16 (byteOf l 0) (byteOf l 1)).extractLsb' 0 11) (be16 (byteOf l 2) (byteOf l 3))
    (byteOf l 4)

/-- How many bytes the checksum field of a UDP NHC header takes (R82). -/
def csumLen (k : Option (BitVec 16)) : Nat := if k.isSome then 2 else 0

/-- How many bytes of a frame the decoder reads for a row (R61 to R73, R90, R91; 44_iphc_decoder.md
R181, R200). A command has none. -/
def Instr.wireLen : Instr → Nat
  | .uncompIpv6 | .iphc _ _ _ _ | .frag1 _ | .fragn _ | .other _ => 1
  | .iphcWord _ _ _ _ _ _ _ _ _ _ => 2
  | .cidByte _ _ => 1
  | .frag1Hdr _ _ => 4
  | .fragnHdr _ _ _ => 5
  | .tfElided => 0
  | .tfTcOnly _ _ => 1
  | .tfFlOnly _ _ _ => 3
  | .tfFull _ _ _ _ => 4
  | .nhInline _ => 1
  | .nhUdpNhc => 0
  | .hlimInline _ => 1
  | .hlim1 | .hlim64 | .hlim255 => 0
  | .srcFull _ => 16
  | .srcLl64 _ | .srcCtx64 _ => 8
  | .srcLl16 _ _ | .srcCtx16 _ _ => 2
  | .srcLlMac | .srcUnspec | .srcCtxMac => 0
  | .dstFull _ | .dstMcFull _ => 16
  | .dstLl64 _ | .dstCtx64 _ => 8
  | .dstLl16 _ _ | .dstCtx16 _ _ => 2
  | .dstLlMac | .dstCtxMac | .dstReservedDac1Dam00 | .dstReservedM1Dac1 _ => 0
  | .dstMc48 _ _ _ _ _ _ => 6
  | .dstMc32 _ _ _ _ => 4
  | .dstMc8 _ => 1
  | .udpNhcFullPorts _ _ k => 5 + csumLen k
  | .udpNhcNibblePorts _ _ k => 2 + csumLen k
  | .udpNhcP01 _ | .udpNhcP10 _ | .nhcOther _ => 1
  | .setbytes _ | .getbyte _ | .get16 _ | .get24 _ | .copyout _ _ _ | .incpos _ | .payloadlen
  | .setattr _ _ _ _ | .getattr _ | .pbLoad _ | .rdbuf _ _ _ | .ctxSet _ _ | .ctxLookup _
  | .ctxGet _ | .hmWr _ _ _ | .hmRd _ | .setpayload _ | .encode | .classify | .decode | .reasm _
  | .sweep _ | .fragStat _ | .csumPseudo _ _ _ | .csumFold _ _ | .csumFinal | .udpCsum | .udpVerify
  | .reset | .clrflags _ | .rdstatus => 0

/-- The row in a slot, before the length of the bytes is looked at. -/
def slotRow (slot : Slot) (w : BitVec 16) (l : List Byte) : Except Reject Instr :=
  match slot with
  | .dispatch => .ok (dispatchRow (byteOf l 0))
  | .word => wordRow (be16 (byteOf l 0) (byteOf l 1))
  | .cid => .ok (.cidByte ((byteOf l 0).extractLsb' 4 4) ((byteOf l 0).extractLsb' 0 4))
  | .tf => .ok (tfRow w l)
  | .nh => .ok (nhRow w l)
  | .hlim => .ok (hlimRow w l)
  | .src => .ok (srcRow w l)
  | .dst => .ok (dstRow w l)
  | .nhc => .ok (nhcRow l)
  | .frag1Hdr => .ok (frag1HdrRow l)
  | .fragnHdr => .ok (fragnHdrRow l)

/-- The wire-format row in a slot. Bytes after the row's own are not looked at. -/
def decodeWire (slot : Slot) (w : BitVec 16) (l : List Byte) : Except Reject Instr :=
  match slotRow slot w l with
  | .ok i => if l.length < i.wireLen then .error (.tooShort slot) else .ok i
  | .error e => .error e

/-- The decoder: every encoded instruction is an instruction or is rejected by name. -/
def decode : Code → Except Reject Instr
  | .command t => decodeCommand t
  | .wire slot w l => decodeWire slot w l

/-- A piece whose form the IPHC word's bits `w` choose. -/
def formCode (slot : Slot) (w : BitVec 16) (l : List Byte) : Code := .wire slot w l

/-- The bytes of the checksum field of a UDP NHC header (R82). -/
def csumBytes (k : Option (BitVec 16)) : List Byte :=
  match k with
  | some v => be16Bytes v
  | none => []

/-- The NHC byte `11110cpp` (R80): c is 1 iff the checksum is elided. -/
def nhcByte (c : Bool) (p : BitVec 2) : Byte := (0b11110 : BitVec 5) ++ BitVec.ofBool c ++ p

/-- The first byte of an IPHC header, `011tfnhh` (R60, R62), its flags by their masks (R7). -/
def iphcByte0 (tc fl nh : Bool) (hlim : BitVec 2) : Byte :=
  0x60 ||| maskIf Config.tcC tc ||| maskIf Config.flC fl ||| maskIf Config.nhC nh |||
    hlim.zeroExtend 8

/-- The second byte of an IPHC header, `csaamdbb` (R62). -/
def iphcByte1 (cid sac : Bool) (sam : BitVec 2) (m dac : Bool) (dam : BitVec 2) : Byte :=
  BitVec.ofBool cid ++ BitVec.ofBool sac ++ sam ++ BitVec.ofBool m ++ BitVec.ofBool dac ++ dam

/-- The encoder, from the same tables: the tuple of a command (R100; unnamed operands 0 or empty),
the bits and bytes of a wire-format row (R60 to R92). -/
def encode : Instr → Code
  | .setbytes d => .command ⟨0x01, 0, 0, 0, d⟩
  | .getbyte o => .command ⟨0x02, o, 0, 0, []⟩
  | .get16 o => .command ⟨0x03, o, 0, 0, []⟩
  | .get24 o => .command ⟨0x04, o, 0, 0, []⟩
  | .copyout x y z => .command ⟨0x05, x, y, z, []⟩
  | .incpos d => .command ⟨0x06, d, 0, 0, []⟩
  | .payloadlen => .command ⟨0x07, 0, 0, 0, []⟩
  | .setattr x y z l => .command ⟨0x08, x, y, z, l⟩
  | .getattr x => .command ⟨0x09, x, 0, 0, []⟩
  | .pbLoad d => .command ⟨0x0A, 0, 0, 0, d⟩
  | .rdbuf x y z => .command ⟨0x0B, x, y, z, []⟩
  | .ctxSet x l => .command ⟨0x10, x, 0, 0, l⟩
  | .ctxLookup l => .command ⟨0x11, 0, 0, 0, l⟩
  | .ctxGet x => .command ⟨0x12, x, 0, 0, []⟩
  | .hmWr x y l => .command ⟨0x18, x, y, 0, l⟩
  | .hmRd x => .command ⟨0x19, x, 0, 0, []⟩
  | .setpayload x => .command ⟨0x1A, x, 0, 0, []⟩
  | .encode => .command ⟨0x20, 0, 0, 0, []⟩
  | .classify => .command ⟨0x28, 0, 0, 0, []⟩
  | .decode => .command ⟨0x29, 0, 0, 0, []⟩
  | .reasm x => .command ⟨0x30, x, 0, 0, []⟩
  | .sweep x => .command ⟨0x31, x, 0, 0, []⟩
  | .fragStat x => .command ⟨0x32, x, 0, 0, []⟩
  | .csumPseudo x y l => .command ⟨0x38, x, y, 0, l⟩
  | .csumFold x y => .command ⟨0x39, x, y, 0, []⟩
  | .csumFinal => .command ⟨0x3A, 0, 0, 0, []⟩
  | .udpCsum => .command ⟨0x3B, 0, 0, 0, []⟩
  | .udpVerify => .command ⟨0x3C, 0, 0, 0, []⟩
  | .reset => .command ⟨0x40, 0, 0, 0, []⟩
  | .clrflags x => .command ⟨0x41, x, 0, 0, []⟩
  | .rdstatus => .command ⟨0x42, 0, 0, 0, []⟩
  | .uncompIpv6 => .wire .dispatch 0 [0x41]
  | .iphc t f n h => .wire .dispatch 0 [iphcByte0 t f n h]
  | .frag1 s => .wire .dispatch 0 [(0b11000 : BitVec 5) ++ s]
  | .fragn s => .wire .dispatch 0 [(0b11100 : BitVec 5) ++ s]
  | .other b => .wire .dispatch 0 [b]
  | .iphcWord t f n h c sac sam m dac dam =>
    .wire .word 0 [iphcByte0 t f n h, iphcByte1 c sac sam m dac dam]
  | .cidByte s d => .wire .cid 0 [s ++ d]
  | .frag1Hdr size tag =>
    .wire .frag1Hdr 0 (be16Bytes ((0b11000 : BitVec 5) ++ size) ++ be16Bytes tag)
  | .fragnHdr size tag off =>
    .wire .fragnHdr 0 (be16Bytes ((0b11100 : BitVec 5) ++ size) ++ be16Bytes tag ++ [off])
  | .tfElided => formCode .tf (wordOf (Config.tcC ||| Config.flC)) []
  | .tfTcOnly e d => formCode .tf (wordOf Config.flC) [e ++ d]
  | .tfFlOnly e p fl =>
    formCode .tf (wordOf Config.tcC)
      [e ++ p ++ fl.extractLsb' 16 4, fl.extractLsb' 8 8, fl.extractLsb' 0 8]
  | .tfFull e d p fl =>
    formCode .tf 0x0000 [e ++ d, p ++ fl.extractLsb' 16 4, fl.extractLsb' 8 8, fl.extractLsb' 0 8]
  | .nhInline n => formCode .nh 0x0000 [n]
  | .nhUdpNhc => formCode .nh (wordOf Config.nhC) []
  | .hlimInline h => formCode .hlim 0x0000 [h]
  | .hlim1 => formCode .hlim 0x0100 []
  | .hlim64 => formCode .hlim 0x0200 []
  | .hlim255 => formCode .hlim 0x0300 []
  | .srcFull a => formCode .src 0x0000 (addrBytes a)
  | .srcLl64 o => formCode .src 0x0010 (octBytes o)
  | .srcLl16 x y => formCode .src 0x0020 [x, y]
  | .srcLlMac => formCode .src 0x0030 []
  | .srcUnspec => formCode .src 0x0040 []
  | .srcCtx64 o => formCode .src 0x0050 (octBytes o)
  | .srcCtx16 x y => formCode .src 0x0060 [x, y]
  | .srcCtxMac => formCode .src 0x0070 []
  | .dstFull a => formCode .dst 0x0000 (addrBytes a)
  | .dstLl64 o => formCode .dst 0x0001 (octBytes o)
  | .dstLl16 x y => formCode .dst 0x0002 [x, y]
  | .dstLlMac => formCode .dst 0x0003 []
  | .dstReservedDac1Dam00 => formCode .dst 0x0004 []
  | .dstCtx64 o => formCode .dst 0x0005 (octBytes o)
  | .dstCtx16 x y => formCode .dst 0x0006 [x, y]
  | .dstCtxMac => formCode .dst 0x0007 []
  | .dstMcFull a => formCode .dst 0x0008 (addrBytes a)
  | .dstMc48 x0 x1 x2 x3 x4 x5 => formCode .dst 0x0009 [x0, x1, x2, x3, x4, x5]
  | .dstMc32 x0 x1 x2 x3 => formCode .dst 0x000A [x0, x1, x2, x3]
  | .dstMc8 x => formCode .dst 0x000B [x]
  | .dstReservedM1Dac1 d => formCode .dst (0x000C + d.zeroExtend 16) []
  | .udpNhcFullPorts s d k =>
    .wire .nhc 0 (nhcByte (!k.isSome) 0b00 :: (be16Bytes s ++ be16Bytes d ++ csumBytes k))
  | .udpNhcNibblePorts s d k =>
    .wire .nhc 0 (nhcByte (!k.isSome) 0b11 :: ((s ++ d) :: csumBytes k))
  | .udpNhcP01 c => .wire .nhc 0 [nhcByte c 0b01]
  | .udpNhcP10 c => .wire .nhc 0 [nhcByte c 0b10]
  | .nhcOther b => .wire .nhc 0 [b]

/-- The `n` bytes of a number, the most significant first. -/
def beBytesOf (n w : Nat) : List Byte :=
  (List.range n).map (fun k => BitVec.ofNat 8 (w >>> (8 * (n - 1 - k))))

/-- The encoded instruction that a word of spec/opcode_table.json stands for, every further bit 0.
The table numbers command opcodes and the bits of the wire format alike from bit 0, so one word can
match rows of both; which one is taken is said in log 6 (DESIGN CHOICE, unsafe for nothing but this
function): a listed opcode first, then the dispatch byte, then the UDP NHC byte, then the lowest
field of the IPHC word that is not 0. -/
def tableCode (nbits w : Nat) : Code :=
  let pad : List Byte := List.replicate 24 0
  let b : Byte := BitVec.ofNat 8 w
  let v : BitVec 16 := BitVec.ofNat 16 w
  if nbits ≤ 8 then
    match decodeCommand ⟨b, 0, 0, 0, []⟩ with
    | .ok _ => .command ⟨b, 0, 0, 0, []⟩
    | .error _ =>
      if dispatchClass b ≠ 0 then .wire .dispatch 0 (b :: pad)
      else if b &&& 0xF8 = 0xF0 then .wire .nhc 0 (b :: pad)
      else if b &&& 0xF0 = 0 then .wire .dst v pad
      else if b &&& 0x8F = 0 then .wire .src v pad
      else .wire .dispatch 0 (b :: pad)
  else if nbits ≤ 16 then
    if v.extractLsb' 13 3 = 0b011 then .wire .word 0 (beBytesOf 2 w ++ pad)
    else if v &&& 0x000F ≠ 0 then .wire .dst v pad
    else if v &&& 0x0070 ≠ 0 then .wire .src v pad
    else if v &&& 0x0300 ≠ 0 then .wire .hlim v pad
    else if wordFlag Config.nhC v then .wire .nh v pad
    else .wire .tf v pad
  else
    let l := beBytesOf ((nbits + 7) / 8) w ++ pad
    match dispatchClass (byteOf l 0) with
    | 3 => .wire .frag1Hdr 0 l
    | 4 => .wire .fragnHdr 0 l
    | _ => .wire .dispatch 0 l

/-- The instruction the decoder reads from a word of spec/opcode_table.json (log 6). -/
def decodeTableWord (nbits w : Nat) : Option Instr :=
  match decode (tableCode nbits w) with
  | .ok i => some i
  | .error _ => none

end Sys2Proof
end

