-- ==== Sys2Proof/Machine/Decoder.lean ====
section
/-! DEFINITION. Dispatch classification and the IPHC decoder (44_iphc_decoder.md R180 to R214). Each
field function reads at the running offset `p` and answers the field and the number of bytes it
consumed, as the spec's pseudocode does. -/

namespace Sys2Proof.Machine

/-! ## CLASSIFY -/

/-- The end of CLASSIFY with a class code (R180). -/
def endClassify (code : Nat) (trunc : Bool) (s : State) : State :=
  finish (truncAdv trunc) .ok (BitVec.ofNat 32 code) 0 [] s

/-- CLASSIFY (R180). -/
def execClassify (s : State) : Host.Outcome State Fault Refusal :=
  .next (endClassify (dispatchClass (rdByte s 0)) (past s 0 1) s)

/-! ## The fields -/

/-- `dec_tf` of R191. -/
def decTf (s : State) (b0 : Byte) (p : Nat) : BitVec 8 × BitVec 20 × Nat :=
  if flagSet Config.tcC b0 then
    if flagSet Config.flC b0 then (0, 0, 0)
    else ((rdByte s p >>> 6) &&& 0x03, flOf (rdByte s p) (rdByte s (p + 1)) (rdByte s (p + 2)), 3)
  else
    if flagSet Config.flC b0 then (modelTc (rdByte s p), 0, 1)
    else
      (modelTc (rdByte s p), flOf (rdByte s (p + 1)) (rdByte s (p + 2)) (rdByte s (p + 3)), 4)

/-- `dec_nh` of R192. -/
def decNh (s : State) (b0 : Byte) (p : Nat) : BitVec 8 × Nat :=
  if flagSet Config.nhC b0 then (Config.nhUdp, 0) else (rdByte s p, 1)

/-- `dec_hlim` of R194. -/
def decHlim (s : State) (b0 : Byte) (p : Nat) : BitVec 8 × Nat :=
  if b0 &&& 0x03 = 0 then (rdByte s p, 1)
  else if b0 &&& 0x03 = 1 then (1, 0)
  else if b0 &&& 0x03 = 2 then (64, 0)
  else (255, 0)

/-- `ctx_prefix` of R193: an invalid slot is MISSING_CONTEXT. -/
def ctxPrefix (s : State) (i : BitVec 4) (pos : Nat) : Except Raise Oct :=
  let c := ctxSlot s.ctx i.toNat
  if c.valid then .ok c.pfx else .error ⟨.missingContext, pos⟩

/-- `link_iid` of R195: an attribute that is not valid is MISSING_LINK_ADDR. -/
def linkIid (la : LinkAttr) (pos : Nat) : Except Raise Oct :=
  if la.valid then .ok (iidFromLink la.addr) else .error ⟨.missingLinkAddr, pos⟩

/-- The prefix of an address: from the context table or the link-local one (R196, R197). The
context is fetched before the IID. -/
def addrPrefix (s : State) (fromCtx : Bool) (i : BitVec 4) (pos : Nat) : Except Raise Oct :=
  if fromCtx then ctxPrefix s i pos else .ok Config.linkLocal

/-- `dec_iid` of R196, for the modes 01, 10 and 11. -/
def decIid (s : State) (pfx : Oct) (mode : BitVec 2) (la : LinkAttr) (base p : Nat) :
    Except Raise (Addr × Nat) :=
  if mode = 0b01 then .ok (⟨pfx, rdOct s p⟩, 8)
  else if mode = 0b10 then .ok (⟨pfx, iidOf16 (rdByte s p) (rdByte s (p + 1))⟩, 2)
  else
    match linkIid la (base + 1) with
    | .ok iid => .ok (⟨pfx, iid⟩, 0)
    | .error e => .error e

/-- An address of a mode that has a prefix (R196, R197). -/
def decPrefixed (s : State) (fromCtx : Bool) (i : BitVec 4) (mode : BitVec 2) (la : LinkAttr)
    (base p : Nat) : Except Raise (Addr × Nat) :=
  match addrPrefix s fromCtx i (base + 1) with
  | .ok pfx => decIid s pfx mode la base p
  | .error e => .error e

/-- `dec_src` of R196. -/
def decSrc (s : State) (b1 : Byte) (sci : BitVec 4) (base p : Nat) : Except Raise (Addr × Nat) :=
  let sac := b1.getLsbD 6
  let sam := b1.extractLsb' 4 2
  if sam = 0b00 then
    if sac then .ok (Addr.zero, 0) else .ok (rdAddr s p, 16)
  else decPrefixed s sac sci sam s.linkSrc base p

/-- `dec_dst` of R198: the part for M = 1. -/
def decMcast (s : State) (dac : Bool) (dam : BitVec 2) (base p : Nat) : Except Raise (Addr × Nat) :=
  if dac then .error ⟨.reservedEncoding, base + 1⟩
  else if dam = 0b00 then .ok (rdAddr s p, 16)
  else if dam = 0b01 then
    .ok (mc48 (rdByte s p) (rdByte s (p + 1)) (rdByte s (p + 2)) (rdByte s (p + 3))
      (rdByte s (p + 4)) (rdByte s (p + 5)), 6)
  else if dam = 0b10 then
    .ok (mc32 (rdByte s p) (rdByte s (p + 1)) (rdByte s (p + 2)) (rdByte s (p + 3)), 4)
  else .ok (mc8 (rdByte s p), 1)

/-- `dec_dst` of R197 and R198. -/
def decDst (s : State) (b1 : Byte) (dci : BitVec 4) (base p : Nat) : Except Raise (Addr × Nat) :=
  let dac := b1.getLsbD 2
  let dam := b1.extractLsb' 0 2
  if b1.getLsbD 3 then decMcast s dac dam base p
  else if dam = 0b00 then
    if dac then .error ⟨.reservedEncoding, base + 1⟩ else .ok (rdAddr s p, 16)
  else decPrefixed s dac dci dam s.linkDst base p

/-- A decoded UDP NHC header: ports, checksum (none when elided), bytes consumed (R200). -/
structure UdpShell where
  sport : BitVec 16
  dport : BitVec 16
  csum : Option (BitVec 16)
  n : Nat
deriving DecidableEq, Repr

/-- The end of `dec_nhc` (R200): the checksum is read after `q` bytes unless it is elided. -/
def decCsum (s : State) (n : Byte) (sport dport : BitVec 16) (p q : Nat) : UdpShell :=
  if n &&& 0x04 ≠ 0 then ⟨sport, dport, none, q⟩
  else ⟨sport, dport, some (rd16 s (p + q)), q + 2⟩

/-- `dec_nhc` of R200; none when the NHC byte is not supported (R207). -/
def decNhc (s : State) (p : Nat) : Option UdpShell :=
  let n := rdByte s p
  if n &&& 0xF8 ≠ 0xF0 then none
  else if n &&& 0x03 = 0b00 then
    some (decCsum s n (rd16 s (p + 1)) (rd16 s (p + 3)) p 5)
  else if n &&& 0x03 = 0b11 then
    let w := rdByte s (p + 1)
    some (decCsum s n (nibblePort (w.extractLsb' 4 4)) (nibblePort (w.extractLsb' 0 4)) p 2)
  else none

/-! ## The whole header -/

/-- What `decode_at` returns (R181): the candidate model, CHS, UHS, the unsupported-NHC mark, and
the truncation mark its reads left. -/
structure Decoded where
  hm : HM
  chs : Nat
  uhs : Nat
  unsup : Bool
  trunc : Bool
deriving DecidableEq, Repr

/-- The end of `decode_at` (R181, R207, R210): the NHC header, if NH_C says that one follows. -/
def decTail (s : State) (base : Nat) (b0 : Byte) (m : HM) (p : Nat) (trunc : Bool) : Decoded :=
  if flagSet Config.nhC b0 then
    match decNhc s p with
    | some u =>
      ⟨withShell m u.sport u.dport u.csum, p + u.n - base, Config.ipv6Hdr + Config.udpHdr, false,
       trunc || past s p u.n⟩
    | none => ⟨noShell m, p - base, Config.ipv6Hdr, true, trunc || past s p 1⟩
  else ⟨noShell m, p - base, Config.ipv6Hdr, false, trunc⟩

/-- The addresses and the rest of `decode_at` (R181), from the running offset `p` on. -/
def decAddrs (s : State) (base : Nat) (b0 b1 : Byte) (sci dci : BitVec 4) (m : HM) (p : Nat)
    (trunc : Bool) : Except Raise Decoded :=
  match decSrc s b1 sci base p with
  | .error e => .error e
  | .ok (src, n) =>
    match decDst s b1 dci base (p + n) with
    | .error e => .error e
    | .ok (dst, k) =>
      .ok (decTail s base b0 { m with src := src, dst := dst } (p + n + k)
        (trunc || past s p n || past s (p + n) k))

/-- `decode_at(base)` of R181: reads at cursor-relative offsets from `base` on, changes no state. -/
def decodeAt (s : State) (base : Nat) : Except Raise Decoded :=
  let b0 := rdByte s base
  let b1 := rdByte s (base + 1)
  if b0 &&& 0xE0 ≠ 0x60 then .error ⟨.notIphc, base⟩
  else
    let cidp := b1.getLsbD 7
    let cid := rdByte s (base + 2)
    let sci : BitVec 4 := if cidp then cid.extractLsb' 4 4 else Config.noCidIndex
    let dci : BitVec 4 := if cidp then cid.extractLsb' 0 4 else Config.noCidIndex
    let p0 := base + 2 + (if cidp then 1 else 0)
    let tf := decTf s b0 p0
    let p1 := p0 + tf.2.2
    let nh := decNh s b0 p1
    let p2 := p1 + nh.2
    let hl := decHlim s b0 p2
    let p3 := p2 + hl.2
    decAddrs s base b0 b1 sci dci
      { HM.reset with tc := tf.1, fl := tf.2.1, nh := nh.1, hlim := hl.1 } p3
      (past s base (p3 - base))

/-- The commit of DECODE (R181, R182, R211): HM, the cursor, UHS and CHS, the advisories. -/
def commitDecode (d : Decoded) (s : State) (p : Params := Config.params) : State :=
  if p.curMax < s.cur.toNat + d.chs then hardError badOperand s
  else
    finish ⟨d.trunc, d.unsup, false⟩ .ok (BitVec.ofNat 32 d.uhs) (BitVec.ofNat 32 d.chs) []
      { s with hm := d.hm, cur := BitVec.ofNat Config.curW (s.cur.toNat + d.chs) }

/-- DECODE (R181) with CUR_W as an input: a raise inside ends the command with nothing changed
(R182). -/
def decodeState (p : Params) (s : State) : State :=
  match decodeAt s 0 with
  | .ok d => commitDecode d s p
  | .error e => hardError e s

/-- DECODE (R181). -/
def execDecode (s : State) : Host.Outcome State Fault Refusal :=
  .next (decodeState Config.params s)

end Sys2Proof.Machine
end

