-- ==== Sys2Proof/Machine/Reassembly.lean ====
section
/-! DEFINITION. The fragment reassembly unit (45_fragment_reassembly.md R220 to R245). Its parameters
FRAG_SLOTS, TIME_W, MAX_AGE_MS, RANGE_SLOTS and FRAG_BUF_CAP are the input `p` of its operations
(10_state.md R31), the machine's own parameters where none are given. -/

namespace Sys2Proof.Machine

/-! ## Age-out -/

/-- The timestamp that the scalar operand `now` carries: its low TIME_W bits (R220). -/
def timeOf (p : Params) (now : BitVec 32) : BitVec Config.timeW :=
  BitVec.ofNat Config.timeW (now.toNat % 2 ^ p.timeW)

/-- The reassembly slots in use: the first FRAG_SLOTS of those that State stores. -/
def slotsUsed (p : Params) (s : State) : List FragSlot := s.frag.toList.take p.fragSlots

/-- Whether a context is older than MAX_AGE_MS at `now`; the age is modulo 2^TIME_W (R240). -/
def expired (now : BitVec Config.timeW) (f : FragSlot) (p : Params := Config.params) : Bool :=
  f.valid && decide (p.maxAgeMs < (now - f.created).toNat % 2 ^ p.timeW)

/-- How many contexts `sweep` evicts (R240). -/
def expiredCount (now : BitVec Config.timeW) (s : State) (p : Params := Config.params) : Nat :=
  (slotsUsed p s).countP (fun f => expired now f p)

/-- `sweep` of R240: every expired context becomes absent, is counted, and sets F_EVICT. The slots
do not depend on each other, so they are taken at once. -/
def sweepState (now : BitVec Config.timeW) (s : State) (p : Params := Config.params) : State :=
  { s with
    frag := mapUsed p.fragSlots (fun f => { f with valid := f.valid && !expired now f p }) s.frag
    evictCount := s.evictCount + BitVec.ofNat 32 (expiredCount now s p)
    flags := if 0 < expiredCount now s p then s.flags ||| fEvict else s.flags }

/-- SWEEP (R241) with the parameters as an input. -/
def sweepAnswer (p : Params) (now : BitVec Config.timeW) (s : State) : State :=
  done (BitVec.ofNat 32 (expiredCount now s p)) 0 [] (sweepState now s p)

/-- SWEEP (R241). -/
def execSweep (now : BitVec 32) (s : State) : Host.Outcome State Fault Refusal :=
  .next (sweepAnswer Config.params (timeOf Config.params now) s)

/-! ## Storing a fragment -/

/-- `find_slot` of R222: the lowest valid slot with the key. -/
def findSlot (s : State) (k : Oct) (tag : BitVec 16) (p : Params := Config.params) :
    Option Nat :=
  (slotsUsed p s).findIdx? (fun f => f.valid && f.key == k && f.tag == tag)

/-- The free slot of lowest index (R223). -/
def freeSlot (s : State) (p : Params := Config.params) : Option Nat :=
  (slotsUsed p s).findIdx? (fun f => !f.valid)

/-- A new context (R223). What its buffer holds is any value: a draw of its own (R25, R322, U2;
log 7). -/
def newContext (k : Oct) (tag : BitVec 16) (size : BitVec Config.fragSizeBits)
    (now : BitVec Config.timeW) (draw : Nat) : FragSlot :=
  ⟨true, k, tag, size, 0, now, 0, [], draw, []⟩

/-- A fragment to be stored: whether it is a first fragment, its declared byte offset, its payload,
and its adjustment (first fragments only). -/
structure Piece where
  first : Bool
  off : Nat
  payload : List Byte
  adj : Nat
deriving DecidableEq, Repr

/-- The pair recorded for a fragment (R230). -/
def Piece.range (x : Piece) : Range :=
  ⟨BitVec.ofNat 16 x.off, BitVec.ofNat 16 x.payload.length⟩

/-- Where a fragment goes in the buffer (R234, R235). -/
def Piece.place (x : Piece) (c : FragSlot) : Int :=
  if x.first then 0 else (x.off : Int) - (c.adj.toNat : Int)

/-- By how much a fragment raises the count (R232). -/
def Piece.added (x : Piece) : Nat := if x.first then x.payload.length + x.adj else x.payload.length

/-- The checks on a fragment against its context, in the order of R239 points 8 to 10: the declared
size and the capacity of the buffer (R231, R46), the count, a free record. -/
def pieceCheck (x : Piece) (c : FragSlot) (p : Params := Config.params) : Option Raise :=
  if x.place c < 0 ∨ (c.total.toNat : Int) < x.place c + (x.payload.length : Int) ∨
      (p.fragBufCap : Int) < x.place c + (x.payload.length : Int) then
    some ⟨.fragOverflow, 0⟩
  else if c.total.toNat < c.recvd.toNat + x.added then some ⟨.fragInconsistent, 0⟩
  else if c.ranges.length = p.rangeSlots then some ⟨.fragRangeFull, 0⟩
  else none

/-- The context after a fragment is stored (R220 commit, R234, R235). -/
def storePiece (x : Piece) (c : FragSlot) : FragSlot :=
  { c with
    buf := memWriteBytes c.buf (x.place c).toNat x.payload
    adj := if x.first then BitVec.ofNat 8 x.adj else c.adj
    ranges := c.ranges ++ [x.range]
    recvd := BitVec.ofNat 16 (c.recvd.toNat + x.added) }

/-- The length of the assembled datagram, TOTAL - ADJ (R236, C5; log 14). -/
def assembledLen (c : FragSlot) : Nat := c.total.toNat - c.adj.toNat

/-- The assembled datagram: the first TOTAL - ADJ bytes of the buffer (R236). A hole reads as its
free value (R322; log 7). -/
def assembled (c : FragSlot) : List Byte := memRange c.draw c.buf 0 (assembledLen c)

/-- FRAG with slot `j` replaced. -/
def setSlot (j : Nat) (c : FragSlot) (s : State) : Vector FragSlot Config.fragSlots :=
  s.frag.setIfInBounds j c

/-- Whether a stored fragment completes its datagram: only a continuation does (R236, R237). -/
def completes (x : Piece) (c : FragSlot) : Bool :=
  !x.first && decide (c.recvd.toNat = c.total.toNat)

/-- The commit of a fragment into context `c`, which slot `j` is to hold (R220 from the duplicate test on). -/
def storeInto (j : Nat) (c : FragSlot) (draws : Nat) (x : Piece) (s : State)
    (p : Params := Config.params) : State :=
  if x.range ∈ c.ranges then finish noAdv .duplicate (BitVec.ofNat 32 j) 0 [] s
  else
    match pieceCheck x c p with
    | some r => hardError r s
    | none =>
      let c' := storePiece x c
      if completes x c' then
        finish noAdv .complete (BitVec.ofNat 32 j) 0 []
          { s with
            frag := setSlot j { c' with valid := false } s
            draws := draws
            fb := bufOf (assembled c')
            cur := 0 }
      else
        finish noAdv .incomplete (BitVec.ofNat 32 j) 0 []
          { s with frag := setSlot j c' s, draws := draws }

/-- Finding or creating the context and storing the fragment (R220, R222, R223, R228). -/
def storeFragment (now : BitVec Config.timeW) (size : BitVec Config.fragSizeBits) (tag : BitVec 16)
    (x : Piece) (s : State) (p : Params := Config.params) : State :=
  match findSlot s s.linkSrc.addr tag p with
  | some j =>
    let c := s.frag.toList.getD j FragSlot.reset
    if c.total ≠ size then hardError ⟨.fragInconsistent, 0⟩ s
    else storeInto j c s.draws x s p
  | none =>
    match freeSlot s p with
    | none => hardError ⟨.fragTableFull, 0⟩ s
    | some j =>
      storeInto j (newContext s.linkSrc.addr tag size now s.draws) (s.draws + 1) x s p

/-! ## REASM -/

/-- The status PASS: nothing is done to the frame (R238). -/
def passFrame (s : State) : State := finish noAdv .pass 0 0 [] s

/-- The two checks on a fragment header: it is whole (R224), and the key's link source is there
(R225). -/
def fragHeaderCheck (hdr : Int) (s : State) : Option Raise :=
  if payloadLen s < hdr then some ⟨.fragHeaderUndecodable, 0⟩
  else if s.linkSrc.valid = false then some ⟨.missingLinkAddr, 0⟩
  else none

/-- A first fragment after its probe decode (R226, R227). -/
def storeFirst (now : BitVec Config.timeW) (size : BitVec Config.fragSizeBits) (tag : BitVec 16)
    (d : Decoded) (s : State) (p : Params := Config.params) : State :=
  if d.trunc then hardError ⟨.fragHeaderUndecodable, 4⟩ s
  else if d.uhs < d.chs then hardError ⟨.fragInconsistent, 4⟩ s
  else storeFragment now size tag ⟨true, 0, restOfFrame s 4, d.uhs - d.chs⟩ s p

/-- A continuation fragment (R235): its offset is in units of 8 bytes (R92). -/
def storeNext (now : BitVec Config.timeW) (size : BitVec Config.fragSizeBits) (tag : BitVec 16)
    (off : BitVec 8) (s : State) (p : Params := Config.params) : State :=
  storeFragment now size tag
    ⟨false, off.toNat * Config.fragOffsetUnit, restOfFrame s 5, 0⟩ s p

/-- The size field of a fragment header (R90, R91, R224). -/
def fragSize (s : State) : BitVec Config.fragSizeBits :=
  (rd16 s 0).extractLsb' 0 Config.fragSizeBits

/-- A first fragment (R220). -/
def reasmFirst (now : BitVec Config.timeW) (s : State) (p : Params := Config.params) : State :=
  match fragHeaderCheck 4 s with
  | some r => hardError r s
  | none =>
    match decodeAt s 4 with
    | .error e => hardError e s
    | .ok d => storeFirst now (fragSize s) (rd16 s 2) d s p

/-- A continuation fragment (R220). -/
def reasmNext (now : BitVec Config.timeW) (s : State) (p : Params := Config.params) : State :=
  match fragHeaderCheck 5 s with
  | some r => hardError r s
  | none => storeNext now (fragSize s) (rd16 s 2) (rdByte s 4) s p

/-- REASM after its sweep (R220, R238). -/
def reasmSwept (now : BitVec Config.timeW) (s : State) (p : Params := Config.params) : State :=
  if payloadLen s < 1 then passFrame s
  else if rdByte s 0 &&& 0xF8 = 0xC0 then reasmFirst now s p
  else if rdByte s 0 &&& 0xF8 = 0xE0 then reasmNext now s p
  else passFrame s

/-- REASM (R220) with the parameters as an input: the sweep's effects stand whatever happens next
(R240). -/
def reasmState (p : Params) (now : BitVec Config.timeW) (s : State) : State :=
  reasmSwept now (sweepState now s p) p

/-- REASM (R220). -/
def execReasm (now : BitVec 32) (s : State) : Host.Outcome State Fault Refusal :=
  .next (reasmState Config.params (timeOf Config.params now) s)

/-! ## Observation -/

/-- FRAG_STAT (R243) with FRAG_SLOTS as an input: the scalar fields of a slot, packed; CREATED in
the four bytes that R243 gives it, whatever TIME_W is. -/
def fragStatState (p : Params) (j : BitVec 32) (s : State) : State :=
  if j.toNat < p.fragSlots then
    let f := s.frag.toList.getD j.toNat FragSlot.reset
    if f.valid then
      done (f.tag ++ f.adj ++ (1 : BitVec 8)) (f.recvd ++ f.total.zeroExtend 16)
        (octBytes f.key ++ be32Bytes (f.created.zeroExtend 32) ++
          be16Bytes (BitVec.ofNat 16 f.ranges.length)) s
    else done 0 0 (List.replicate 14 0) s
  else hardError badIndex s

/-- FRAG_STAT (R243). -/
def execFragStat (j : BitVec 32) (s : State) : Host.Outcome State Fault Refusal :=
  .next (fragStatState Config.params j s)

end Sys2Proof.Machine
end

