-- ==== Sys2Proof/Machine/Wire.lean ====
section
/-! DEFINITION. The wire-format rows (30_encoding.md R60 to R96) as the steps in which CLASSIFY,
DECODE and REASM read a frame header: each row takes what the spec gives that piece of the header,
puts it into the temporaries of the running command, and passes to the piece that follows (R61); the
last piece, and every piece that raises, ends the command exactly as the command's own rule ends it
(log 4, log 5). -/

namespace Sys2Proof.Machine

/-! ## Passing from piece to piece -/

/-- The next piece is in `slot`, `n` bytes on; the candidate model is changed by `f`. -/
def walkOn (slot : Slot) (n : Nat) (f : HM → HM) (s : State) : State :=
  { s with
    walk := { s.walk with slot := some slot, pos := s.walk.pos + n, cand := f s.walk.cand } }

/-- The whole header has been read: DECODE commits (R181), REASM stores its first fragment (R226). -/
def endHeader (d : Decoded) (s : State) (p : Params := Config.params) : State :=
  match s.walk.reader with
  | .reasm => storeFirst s.walk.now s.walk.size s.walk.tag d s p
  | .decode => commitDecode d s p
  | .classify => commitDecode d s p

/-- An IPHC header must start here (R190): any other class is NOT_IPHC. -/
def headerStart (code : Nat) (s : State) : State :=
  if code = 2 then walkOn .word 0 id s else hardError ⟨.notIphc, s.walk.pos⟩ s

/-- The first byte of the frame for REASM: a fragment header follows, or the frame passes (R238). -/
def fragmentStart (code : Nat) (s : State) : State :=
  if code = 3 then walkOn .frag1Hdr 0 id s
  else if code = 4 then walkOn .fragnHdr 0 id s
  else passFrame s

/-- A dispatch byte of a class (R60), as CLASSIFY (R180), DECODE (R190), REASM (R220) and its probe
(R226) take it. -/
def onDispatch (code : Nat) (s : State) : State :=
  match s.walk.reader with
  | .classify => endClassify code s.walk.trunc s
  | .decode => headerStart code s
  | .reasm => if s.walk.base = 0 then fragmentStart code s else headerStart code s

/-- A source address, `n` inline bytes long, or the raise it ends in (R196). -/
def srcStep (r : Except Raise Addr) (n : Nat) (s : State) : State :=
  match r with
  | .ok a => walkOn .dst n (fun m => { m with src := a }) s
  | .error e => hardError e s

/-- After the destination address: the NHC header if NH_C is set, else the end (R61, R181). -/
def afterDst (s : State) (p : Params := Config.params) : State :=
  if wordFlag Config.nhC s.walk.w then walkOn .nhc 0 id s
  else
    endHeader ⟨noShell s.walk.cand, s.walk.pos - s.walk.base, Config.ipv6Hdr, false, s.walk.trunc⟩ s p

/-- A destination address, `n` inline bytes long, or the raise it ends in (R197, R198). -/
def dstStep (r : Except Raise Addr) (n : Nat) (s : State)
    (p : Params := Config.params) : State :=
  match r with
  | .ok a => afterDst (walkOn .dst n (fun m => { m with dst := a }) s) p
  | .error e => hardError e s

/-- An address of a context prefix and an IID (R68, R193). -/
def ctxAddr (s : State) (i : BitVec 4) (iid : Oct) : Except Raise Addr :=
  match ctxPrefix s i (s.walk.base + 1) with
  | .ok p => .ok ⟨p, iid⟩
  | .error e => .error e

/-- An address of the link-local prefix and the IID of a link address (R68, R195). -/
def llMacAddr (s : State) (la : LinkAttr) : Except Raise Addr :=
  match linkIid la (s.walk.base + 1) with
  | .ok iid => .ok ⟨Config.linkLocal, iid⟩
  | .error e => .error e

/-- An address of a context prefix and the IID of a link address: the context is fetched first
(R196). -/
def ctxMacAddr (s : State) (i : BitVec 4) (la : LinkAttr) : Except Raise Addr :=
  match ctxPrefix s i (s.walk.base + 1) with
  | .ok p =>
    match linkIid la (s.walk.base + 1) with
    | .ok iid => .ok ⟨p, iid⟩
    | .error e => .error e
  | .error e => .error e

/-- The raise of a reserved destination encoding (R95, R197, R198). -/
def reservedDst (s : State) : Except Raise Addr := .error ⟨.reservedEncoding, s.walk.base + 1⟩

/-- A supported UDP NHC header, `n` bytes long: the UDP shell, UHS 48 (R200, R210). -/
def nhcShell (sport dport : BitVec 16) (k : Option (BitVec 16)) (n : Nat) (s : State)
    (p : Params := Config.params) : State :=
  endHeader ⟨withShell s.walk.cand sport dport k, s.walk.pos + n - s.walk.base,
    Config.ipv6Hdr + Config.udpHdr, false, s.walk.trunc⟩ s p

/-- An unsupported NHC byte: no shell, nothing consumed, UHS 40 (R207). -/
def nhcUnsupported (s : State) (p : Params := Config.params) : State :=
  endHeader ⟨noShell s.walk.cand, s.walk.pos - s.walk.base, Config.ipv6Hdr, true, s.walk.trunc⟩ s p

/-! ## Dispatch bytes -/

/-- UNCOMP_IPV6 (R60, R96): classified only. -/
def execUncompIpv6 (s : State) : Host.Outcome State Fault Refusal := .next (onDispatch 1 s)

/-- IPHC (R60): its flag bits are read again as part of the IPHC word (R62). -/
def execIphc (_tc _fl _nh : Bool) (_hlim : BitVec 2) (s : State) :
    Host.Outcome State Fault Refusal := .next (onDispatch 2 s)

/-- FRAG1 (R60): its size bits are read again as part of the fragment header (R90). -/
def execFrag1 (_sizeHi : BitVec 3) (s : State) : Host.Outcome State Fault Refusal :=
  .next (onDispatch 3 s)

/-- FRAGN (R60): its size bits are read again as part of the fragment header (R91). -/
def execFragn (_sizeHi : BitVec 3) (s : State) : Host.Outcome State Fault Refusal :=
  .next (onDispatch 4 s)

/-- OTHER (R60): not processed by this block. -/
def execOther (_b : Byte) (s : State) : Host.Outcome State Fault Refusal := .next (onDispatch 0 s)

/-! ## The IPHC word, the CID byte, the fragment headers -/

/-- IPHC_WORD (R62, R190): both context indices are the default until a CID byte is
read (R67). -/
def execIphcWord (tc fl nh : Bool) (hlim : BitVec 2) (cid sac : Bool) (sam : BitVec 2)
    (m dac : Bool) (dam : BitVec 2) (s : State) : Host.Outcome State Fault Refusal :=
  .next { s with walk := { s.walk with
    slot := some (if cid then .cid else .tf)
    pos := s.walk.pos + 2
    w := be16 (iphcByte0 tc fl nh hlim) (iphcByte1 cid sac sam m dac dam)
    sci := Config.noCidIndex
    dci := Config.noCidIndex } }

/-- CID_BYTE (R67, R190). -/
def execCidByte (sci dci : BitVec 4) (s : State) : Host.Outcome State Fault Refusal :=
  .next { s with walk := { s.walk with
    slot := some .tf, pos := s.walk.pos + 1, sci := sci, dci := dci } }

/-- FRAG1_HDR (R90, R224, R225): the checks on the header, then the probe of the compressed header
that follows it (R226). -/
def execFrag1Hdr (size : BitVec 11) (tag : BitVec 16) (s : State) :
    Host.Outcome State Fault Refusal :=
  match fragHeaderCheck 4 s with
  | some r => .next (hardError r s)
  | none =>
    .next { s with walk := { s.walk with
      slot := some .dispatch, base := s.walk.pos + 4, pos := s.walk.pos + 4
      size := size, tag := tag } }

/-- FRAGN_HDR (R91, R224, R225, R235): the checks on the header, then the fragment is stored. -/
def execFragnHdr (size : BitVec 11) (tag : BitVec 16) (offset : BitVec 8) (s : State) :
    Host.Outcome State Fault Refusal :=
  match fragHeaderCheck 5 s with
  | some r => .next (hardError r s)
  | none => .next (storeNext s.walk.now size tag offset s)

/-! ## Traffic class and flow label (R63, R64, R191) -/

/-- TF_ELIDED (R63). -/
def execTfElided (s : State) : Host.Outcome State Fault Refusal :=
  .next (walkOn .nh 0 (fun m => { m with tc := 0, fl := 0 }) s)

/-- TF_TC_ONLY (R64): DSCP in bits 7:2 of TC, ECN in bits 1:0. -/
def execTfTcOnly (ecn : BitVec 2) (dscp : BitVec 6) (s : State) :
    Host.Outcome State Fault Refusal :=
  .next (walkOn .nh 1 (fun m => { m with tc := dscp ++ ecn, fl := 0 }) s)

/-- TF_FL_ONLY (R64): DSCP is 0, the pad is ignored. -/
def execTfFlOnly (ecn _pad : BitVec 2) (fl : BitVec 20) (s : State) :
    Host.Outcome State Fault Refusal :=
  .next (walkOn .nh 3 (fun m => { m with tc := (0 : BitVec 6) ++ ecn, fl := fl }) s)

/-- TF_FULL (R64): the pad is ignored. -/
def execTfFull (ecn : BitVec 2) (dscp : BitVec 6) (_pad : BitVec 4) (fl : BitVec 20) (s : State) :
    Host.Outcome State Fault Refusal :=
  .next (walkOn .nh 4 (fun m => { m with tc := dscp ++ ecn, fl := fl }) s)

/-! ## Next header and hop limit (R65, R66, R192, R194) -/

/-- NH_INLINE (R65). -/
def execNhInline (nh : Byte) (s : State) : Host.Outcome State Fault Refusal :=
  .next (walkOn .hlim 1 (fun m => { m with nh := nh }) s)

/-- NH_UDP_NHC (R65): the value 17 is assigned before the NHC byte is looked at (R192). -/
def execNhUdpNhc (s : State) : Host.Outcome State Fault Refusal :=
  .next (walkOn .hlim 0 (fun m => { m with nh := Config.nhUdp }) s)

/-- HLIM_INLINE (R66). -/
def execHlimInline (h : Byte) (s : State) : Host.Outcome State Fault Refusal :=
  .next (walkOn .src 1 (fun m => { m with hlim := h }) s)

/-- HLIM_1 (R66). -/
def execHlim1 (s : State) : Host.Outcome State Fault Refusal :=
  .next (walkOn .src 0 (fun m => { m with hlim := 1 }) s)

/-- HLIM_64 (R66). -/
def execHlim64 (s : State) : Host.Outcome State Fault Refusal :=
  .next (walkOn .src 0 (fun m => { m with hlim := 64 }) s)

/-- HLIM_255 (R66). -/
def execHlim255 (s : State) : Host.Outcome State Fault Refusal :=
  .next (walkOn .src 0 (fun m => { m with hlim := 255 }) s)

/-! ## Source address (R68, R196) -/

/-- SRC_FULL (R68). -/
def execSrcFull (a : Addr) (s : State) : Host.Outcome State Fault Refusal :=
  .next (srcStep (.ok a) 16 s)

/-- SRC_LL_64 (R68). -/
def execSrcLl64 (iid : Oct) (s : State) : Host.Outcome State Fault Refusal :=
  .next (srcStep (.ok ⟨Config.linkLocal, iid⟩) 8 s)

/-- SRC_LL_16 (R68, R69). -/
def execSrcLl16 (x y : Byte) (s : State) : Host.Outcome State Fault Refusal :=
  .next (srcStep (.ok ⟨Config.linkLocal, iidOf16 x y⟩) 2 s)

/-- SRC_LL_MAC (R68, R195). -/
def execSrcLlMac (s : State) : Host.Outcome State Fault Refusal :=
  .next (srcStep (llMacAddr s s.linkSrc) 0 s)

/-- SRC_UNSPEC (R68): no context is consulted. -/
def execSrcUnspec (s : State) : Host.Outcome State Fault Refusal :=
  .next (srcStep (.ok Addr.zero) 0 s)

/-- SRC_CTX_64 (R68, R193). -/
def execSrcCtx64 (iid : Oct) (s : State) : Host.Outcome State Fault Refusal :=
  .next (srcStep (ctxAddr s s.walk.sci iid) 8 s)

/-- SRC_CTX_16 (R68, R69, R193). -/
def execSrcCtx16 (x y : Byte) (s : State) : Host.Outcome State Fault Refusal :=
  .next (srcStep (ctxAddr s s.walk.sci (iidOf16 x y)) 2 s)

/-- SRC_CTX_MAC (R68, R193, R195). -/
def execSrcCtxMac (s : State) : Host.Outcome State Fault Refusal :=
  .next (srcStep (ctxMacAddr s s.walk.sci s.linkSrc) 0 s)

/-! ## Destination address (R70, R197, R198) -/

/-- DST_FULL (R70). -/
def execDstFull (a : Addr) (s : State) : Host.Outcome State Fault Refusal :=
  .next (dstStep (.ok a) 16 s)

/-- DST_LL_64 (R70). -/
def execDstLl64 (iid : Oct) (s : State) : Host.Outcome State Fault Refusal :=
  .next (dstStep (.ok ⟨Config.linkLocal, iid⟩) 8 s)

/-- DST_LL_16 (R70, R69). -/
def execDstLl16 (x y : Byte) (s : State) : Host.Outcome State Fault Refusal :=
  .next (dstStep (.ok ⟨Config.linkLocal, iidOf16 x y⟩) 2 s)

/-- DST_LL_MAC (R70, R195). -/
def execDstLlMac (s : State) : Host.Outcome State Fault Refusal :=
  .next (dstStep (llMacAddr s s.linkDst) 0 s)

/-- DST_RESERVED_DAC1_DAM00 (R95, R197): RESERVED_ENCODING. -/
def execDstReservedDac1Dam00 (s : State) : Host.Outcome State Fault Refusal :=
  .next (dstStep (reservedDst s) 0 s)

/-- DST_CTX_64 (R70, R193). -/
def execDstCtx64 (iid : Oct) (s : State) : Host.Outcome State Fault Refusal :=
  .next (dstStep (ctxAddr s s.walk.dci iid) 8 s)

/-- DST_CTX_16 (R70, R69, R193). -/
def execDstCtx16 (x y : Byte) (s : State) : Host.Outcome State Fault Refusal :=
  .next (dstStep (ctxAddr s s.walk.dci (iidOf16 x y)) 2 s)

/-- DST_CTX_MAC (R70, R193, R195). -/
def execDstCtxMac (s : State) : Host.Outcome State Fault Refusal :=
  .next (dstStep (ctxMacAddr s s.walk.dci s.linkDst) 0 s)

/-- DST_MC_FULL (R70): any 16 bytes (R198). -/
def execDstMcFull (a : Addr) (s : State) : Host.Outcome State Fault Refusal :=
  .next (dstStep (.ok a) 16 s)

/-- DST_MC_48 (R70). -/
def execDstMc48 (x0 x1 x2 x3 x4 x5 : Byte) (s : State) : Host.Outcome State Fault Refusal :=
  .next (dstStep (.ok (mc48 x0 x1 x2 x3 x4 x5)) 6 s)

/-- DST_MC_32 (R70). -/
def execDstMc32 (x0 x1 x2 x3 : Byte) (s : State) : Host.Outcome State Fault Refusal :=
  .next (dstStep (.ok (mc32 x0 x1 x2 x3)) 4 s)

/-- DST_MC_8 (R70). -/
def execDstMc8 (x : Byte) (s : State) : Host.Outcome State Fault Refusal :=
  .next (dstStep (.ok (mc8 x)) 1 s)

/-- DST_RESERVED_M1_DAC1 (R95, R198): RESERVED_ENCODING. -/
def execDstReservedM1Dac1 (_dam : BitVec 2) (s : State) : Host.Outcome State Fault Refusal :=
  .next (dstStep (reservedDst s) 0 s)

/-! ## The NHC header (R80 to R82, R200, R207) -/

/-- UDP_NHC_FULL_PORTS (R81, R82). -/
def execUdpNhcFullPorts (sport dport : BitVec 16) (csum : Option (BitVec 16)) (s : State) :
    Host.Outcome State Fault Refusal :=
  .next (nhcShell sport dport csum (5 + csumLen csum) s)

/-- UDP_NHC_NIBBLE_PORTS (R81, R82). -/
def execUdpNhcNibblePorts (sp dp : BitVec 4) (csum : Option (BitVec 16)) (s : State) :
    Host.Outcome State Fault Refusal :=
  .next (nhcShell (nibblePort sp) (nibblePort dp) csum (2 + csumLen csum) s)

/-- UDP_NHC_P01 (R95, R207). -/
def execUdpNhcP01 (_c : Bool) (s : State) : Host.Outcome State Fault Refusal :=
  .next (nhcUnsupported s)

/-- UDP_NHC_P10 (R95, R207). -/
def execUdpNhcP10 (_c : Bool) (s : State) : Host.Outcome State Fault Refusal :=
  .next (nhcUnsupported s)

/-- NHC_OTHER (R95, R207). -/
def execNhcOther (_b : Byte) (s : State) : Host.Outcome State Fault Refusal :=
  .next (nhcUnsupported s)

end Sys2Proof.Machine
end

