-- ==== Sys2Proof/Machine/Fetch.lean ====
section
/-! DEFINITION. What the block takes next (47_system_ops.md R270; log 1, log 4): between commands
the next tuple at the command port; while a frame header is being read piece by piece, the bytes at
the running offset from the cursor (10_state.md R21). -/

namespace Sys2Proof.Machine

/-- How many bytes a wire piece is looked up in: more than the longest piece has. -/
def wireWindow : Nat := 24

/-- The encoded instruction at hand; none when the host presents none and the block is idle. -/
def fetchCode (s : State) : Option Code :=
  match s.walk.slot with
  | some slot => some (.wire slot s.walk.w (rdb s s.walk.pos wireWindow))
  | none =>
    match s.host with
    | [] => none
    | t :: _ => some (.command t)

/-- The state in which a fetched instruction runs: its tuple is taken off the port and the
temporaries are cleared (R270 step 1), or the truncation mark is set if a byte of the piece lay
beyond the data (R44, R45). -/
def afterFetch (c : Code) (i : Instr) (s : State) : State :=
  match c with
  | .command _ => { s with host := s.host.tail, walk := Walk.idle }
  | .wire _ _ _ =>
    { s with walk := { s.walk with trunc := s.walk.trunc || past s s.walk.pos i.wireLen } }

/-- The end of what the decoder rejects: an unknown opcode is BAD_COMMAND (R102); a piece that must
be an IPHC word and is none is NOT_IPHC (R190). -/
def rejected (c : Code) (s : State) : State :=
  match c with
  | .command _ => badCommand { s with host := s.host.tail, walk := Walk.idle }
  | .wire _ _ _ => hardError ⟨.notIphc, s.walk.pos⟩ s

/-- The command that reads a piece which is placed by itself (log 6): fragment headers are REASM's,
every other piece DECODE's. -/
def readerOf : Slot → Reader
  | .frag1Hdr => .reasm
  | .fragnHdr => .reasm
  | .dispatch | .word | .cid | .tf | .nh | .hlim | .src | .dst | .nhc => .decode

/-- The state with an encoded instruction placed where it is fetched next (log 6). -/
def placeCode (c : Code) (s : State) : State :=
  match c with
  | .command t => { s with walk := Walk.idle, host := t :: s.host }
  | .wire slot w l =>
    { s with
      walk := { Walk.idle with slot := some slot, reader := readerOf slot, w := w }
      fb := bufOf l
      cur := 0 }

/-- The temporaries at the start of a command that reads a frame header (R180, R181, R220). -/
def startWalk (r : Reader) (now : BitVec Config.timeW) (s : State) : State :=
  { s with walk := { Walk.idle with slot := some .dispatch, reader := r, now := now } }

end Sys2Proof.Machine
end

