-- ==== Sys2Proof/Machine/HeaderModel.lean ====
section
/-! DEFINITION. The header-model register commands (42_header_model.md R140 to R142). -/

namespace Sys2Proof.Machine

/-- HM_WR (R140): a value outside the field's range, VERSION, PKIND and any other number refuse. -/
def execHmWr (fld value : BitVec 32) (addr : List Byte) (s : State) :
    Host.Outcome State Fault Refusal :=
  match hmStore s.hm fld value addr with
  | some m => .next (done 0 0 [] { s with hm := m })
  | none => .next (hardError badOperand s)

/-- HM_RD (R141). -/
def execHmRd (fld : BitVec 32) (s : State) : Host.Outcome State Fault Refusal :=
  if inRange fld 11 then .next (done (hmScalar s.hm fld.toNat) 0 (hmOut s.hm fld.toNat) s)
  else .next (hardError badOperand s)

/-- SETPAYLOAD (R142): sets PKIND and the next header the kind fixes (R13). -/
def execSetpayload (kind : BitVec 32) (s : State) : Host.Outcome State Fault Refusal :=
  match kindOperand kind with
  | none => .next (hardError badOperand s)
  | some k =>
    .next (done 0 0 []
      { s with hm := { s.hm with pkind := k, nh := (dispatchCode k).getD s.hm.nh } })

end Sys2Proof.Machine
end

