-- ==== Sys2Proof/Machine/Dispatch.lean ====
section
/-! DEFINITION. One arm per constructor of Instr, each one direct call of its meaning. -/

namespace Sys2Proof.Machine

def exec (i : Instr) (s : State) : Host.Outcome State Fault Refusal :=
  match i with
  | .setbytes data => Sys2Proof.Machine.execSetbytes data s
  | .getbyte off => Sys2Proof.Machine.execGetbyte off s
  | .get16 off => Sys2Proof.Machine.execGet16 off s
  | .get24 off => Sys2Proof.Machine.execGet24 off s
  | .copyout srcOff dstOff length => Sys2Proof.Machine.execCopyout srcOff dstOff length s
  | .incpos delta => Sys2Proof.Machine.execIncpos delta s
  | .payloadlen => Sys2Proof.Machine.execPayloadlen s
  | .setattr att valid value addr => Sys2Proof.Machine.execSetattr att valid value addr s
  | .getattr att => Sys2Proof.Machine.execGetattr att s
  | .pbLoad data => Sys2Proof.Machine.execPbLoad data s
  | .rdbuf space off length => Sys2Proof.Machine.execRdbuf space off length s
  | .ctxSet idx pfx => Sys2Proof.Machine.execCtxSet idx pfx s
  | .ctxLookup addr => Sys2Proof.Machine.execCtxLookup addr s
  | .ctxGet idx => Sys2Proof.Machine.execCtxGet idx s
  | .hmWr fld value addr => Sys2Proof.Machine.execHmWr fld value addr s
  | .hmRd fld => Sys2Proof.Machine.execHmRd fld s
  | .setpayload kind => Sys2Proof.Machine.execSetpayload kind s
  | .encode => Sys2Proof.Machine.execEncode s
  | .classify => Sys2Proof.Machine.execClassify s
  | .decode => Sys2Proof.Machine.execDecode s
  | .reasm now => Sys2Proof.Machine.execReasm now s
  | .sweep now => Sys2Proof.Machine.execSweep now s
  | .fragStat j => Sys2Proof.Machine.execFragStat j s
  | .csumPseudo nh payloadLength addrs => Sys2Proof.Machine.execCsumPseudo nh payloadLength addrs s
  | .csumFold off length => Sys2Proof.Machine.execCsumFold off length s
  | .csumFinal => Sys2Proof.Machine.execCsumFinal s
  | .udpCsum => Sys2Proof.Machine.execUdpCsum s
  | .udpVerify => Sys2Proof.Machine.execUdpVerify s
  | .reset => Sys2Proof.Machine.execReset s
  | .clrflags mask => Sys2Proof.Machine.execClrflags mask s
  | .rdstatus => Sys2Proof.Machine.execRdstatus s
  | .uncompIpv6 => Sys2Proof.Machine.execUncompIpv6 s
  | .iphc tc fl nh hlim => Sys2Proof.Machine.execIphc tc fl nh hlim s
  | .frag1 sizeHi => Sys2Proof.Machine.execFrag1 sizeHi s
  | .fragn sizeHi => Sys2Proof.Machine.execFragn sizeHi s
  | .other b => Sys2Proof.Machine.execOther b s
  | .iphcWord tc fl nh hlim cid sac sam m dac dam => Sys2Proof.Machine.execIphcWord tc fl nh hlim cid sac sam m dac dam s
  | .cidByte sci dci => Sys2Proof.Machine.execCidByte sci dci s
  | .frag1Hdr size tag => Sys2Proof.Machine.execFrag1Hdr size tag s
  | .fragnHdr size tag offset => Sys2Proof.Machine.execFragnHdr size tag offset s
  | .tfElided => Sys2Proof.Machine.execTfElided s
  | .tfTcOnly ecn dscp => Sys2Proof.Machine.execTfTcOnly ecn dscp s
  | .tfFlOnly ecn pad fl => Sys2Proof.Machine.execTfFlOnly ecn pad fl s
  | .tfFull ecn dscp pad fl => Sys2Proof.Machine.execTfFull ecn dscp pad fl s
  | .nhInline nh => Sys2Proof.Machine.execNhInline nh s
  | .nhUdpNhc => Sys2Proof.Machine.execNhUdpNhc s
  | .hlimInline h => Sys2Proof.Machine.execHlimInline h s
  | .hlim1 => Sys2Proof.Machine.execHlim1 s
  | .hlim64 => Sys2Proof.Machine.execHlim64 s
  | .hlim255 => Sys2Proof.Machine.execHlim255 s
  | .srcFull a => Sys2Proof.Machine.execSrcFull a s
  | .srcLl64 iid => Sys2Proof.Machine.execSrcLl64 iid s
  | .srcLl16 x y => Sys2Proof.Machine.execSrcLl16 x y s
  | .srcLlMac => Sys2Proof.Machine.execSrcLlMac s
  | .srcUnspec => Sys2Proof.Machine.execSrcUnspec s
  | .srcCtx64 iid => Sys2Proof.Machine.execSrcCtx64 iid s
  | .srcCtx16 x y => Sys2Proof.Machine.execSrcCtx16 x y s
  | .srcCtxMac => Sys2Proof.Machine.execSrcCtxMac s
  | .dstFull a => Sys2Proof.Machine.execDstFull a s
  | .dstLl64 iid => Sys2Proof.Machine.execDstLl64 iid s
  | .dstLl16 x y => Sys2Proof.Machine.execDstLl16 x y s
  | .dstLlMac => Sys2Proof.Machine.execDstLlMac s
  | .dstReservedDac1Dam00 => Sys2Proof.Machine.execDstReservedDac1Dam00 s
  | .dstCtx64 iid => Sys2Proof.Machine.execDstCtx64 iid s
  | .dstCtx16 x y => Sys2Proof.Machine.execDstCtx16 x y s
  | .dstCtxMac => Sys2Proof.Machine.execDstCtxMac s
  | .dstMcFull a => Sys2Proof.Machine.execDstMcFull a s
  | .dstMc48 x0 x1 x2 x3 x4 x5 => Sys2Proof.Machine.execDstMc48 x0 x1 x2 x3 x4 x5 s
  | .dstMc32 x0 x1 x2 x3 => Sys2Proof.Machine.execDstMc32 x0 x1 x2 x3 s
  | .dstMc8 x => Sys2Proof.Machine.execDstMc8 x s
  | .dstReservedM1Dac1 dam => Sys2Proof.Machine.execDstReservedM1Dac1 dam s
  | .udpNhcFullPorts sport dport csum => Sys2Proof.Machine.execUdpNhcFullPorts sport dport csum s
  | .udpNhcNibblePorts sp d csum => Sys2Proof.Machine.execUdpNhcNibblePorts sp d csum s
  | .udpNhcP01 c => Sys2Proof.Machine.execUdpNhcP01 c s
  | .udpNhcP10 c => Sys2Proof.Machine.execUdpNhcP10 c s
  | .nhcOther b => Sys2Proof.Machine.execNhcOther b s

end Sys2Proof.Machine
end

