-- ==== Sys2Proof/Machine/Step.lean ====
section
/-! DEFINITION. One step of the block: it takes what is at hand, decodes it and runs it
(47_system_ops.md R270). With no tuple presented the block is idle and nothing happens (R270,
60_exceptions.md R299; log 13). -/

namespace Sys2Proof.Machine

/-- One step. -/
def step (s : State) : Host.Outcome State Fault Refusal :=
  match fetchCode s with
  | none => .next s
  | some c =>
    match decode c with
    | .ok i => exec i (afterFetch c i s)
    | .error _ => .next (rejected c s)

/-- The state with the instruction of a table word placed where the next step fetches it (log 1,
log 6). -/
def State.withFetchWord (s : State) (nbits w : Nat) : State := placeCode (tableCode nbits w) s

end Sys2Proof.Machine
end

