-- ==== Sys2Proof/Safety.lean ====
section
/-! DEFINITION. The words that statements about the block are said in: how a command answers, what it
leaves unchanged, which pieces of state the spec lets each instruction write, the length and the
refusals of an IPHC header as its two first bytes fix them (30_encoding.md R73, 44_iphc_decoder.md
R212), what storing a fragment leaves (45_fragment_reassembly.md R234, R235), and the invariant of
the block. None of it is called by the machine. -/

namespace Sys2Proof.Machine

/-! ## Frames -/

/-- The pieces of state that a command may write besides STATUS, ERRPOS, RES0 and RES1, which nearly
every command writes (R16, R14), and its temporaries. -/
inductive StatePart where
  | hm
  | flags
  | evictCount
  | ctx
  | sum
  | fb
  | cur
  | linkSrc
  | linkDst
  | pktType
  | pb
  | ob
  | frag
  | draws
  | host
deriving DecidableEq, Repr

/-- A piece of state has the same value in both states; for a buffer that is its length and every
byte of it. -/
def StatePart.same (p : StatePart) (s t : State) : Prop :=
  match p with
  | .hm => t.hm = s.hm
  | .flags => t.flags = s.flags
  | .evictCount => t.evictCount = s.evictCount
  | .ctx => t.ctx = s.ctx
  | .sum => t.sum = s.sum
  | .fb => t.fb = s.fb
  | .cur => t.cur = s.cur
  | .linkSrc => t.linkSrc = s.linkSrc
  | .linkDst => t.linkDst = s.linkDst
  | .pktType => t.pktType = s.pktType
  | .pb => t.pb = s.pb
  | .ob => t.ob = s.ob
  | .frag => t.frag = s.frag
  | .draws => t.draws = s.draws
  | .host => t.host = s.host

/-- Every piece of state outside `l` is unchanged. -/
def keepsBut (l : List StatePart) (s t : State) : Prop := ∀ p : StatePart, p ∉ l → p.same s t

/-- Nothing at all has changed but the temporaries of the running command (R30). -/
def sameButWalk (s t : State) : Prop := { t with walk := s.walk } = s

/-- A command has ended with this status, position and results, and its temporaries are gone (R270
step 5, R30). -/
def answered (st : Status) (pos : Nat) (r0 r1 : BitVec 32) (out : List Byte) (t : State) : Prop :=
  t.status = statusCode st ∧ t.errpos = BitVec.ofNat 16 pos ∧ t.res0 = r0 ∧ t.res1 = r1 ∧
    t.resp = some ⟨statusCode st, r0, r1, out⟩ ∧ t.walk = Walk.idle

/-- A command has ended with a hard error and changed nothing else (R290). -/
def refuses (st : Status) (pos : Nat) (s t : State) : Prop :=
  answered st pos 0 0 [] t ∧ keepsBut [] s t

/-- The status of a command that may only note a truncation (R45, R288). -/
def truncStatus (trunc : Bool) : Status := if trunc then .truncated else .ok

/-- The flags after a truncation was or was not noted (R45). -/
def truncFlags (trunc : Bool) (s : State) : BitVec 4 := if trunc then s.flags ||| 1 else s.flags

/-- A cursor-relative read of `n` bytes has answered the value `v` (R110, R112 to R114). -/
def readAnswer (n : Nat) (off v : BitVec 32) (s t : State) : Prop :=
  answered (truncStatus (decide (s.fb.len < s.cur.toNat + off.toNat + n))) 0 v 0 [] t ∧
    t.flags = truncFlags (decide (s.fb.len < s.cur.toNat + off.toNat + n)) s ∧
    keepsBut [.flags] s t

/-- HM_RD of a field answers this value and these bytes and changes nothing (R141). -/
def hmReads (fld v : BitVec 32) (out : List Byte) (s : State) : Prop :=
  ∃ t, exec (.hmRd fld) s = .next t ∧ answered .ok 0 v 0 out t ∧ keepsBut [] s t

/-- The largest value of a scalar field that HM_WR may write (R140); none for the other fields. -/
def hmLimit (fld : Nat) : Option Nat :=
  match fld with
  | 1 => some 0xFF
  | 2 => some 0xFFFFF
  | 3 => some 0xFF
  | 4 => some 0xFF
  | 8 => some 0xFFFF
  | 9 => some 0xFFFF
  | 10 => some 0xFFFF
  | 11 => some 1
  | _ => none

/-- The models that ENCODE takes: a payload is attached and NH is the number its kind fixes (R151,
R13). -/
def accepted (m : HM) : Prop :=
  m.pkind ≠ .none ∧ (m.pkind = .udp → m.nh = 17) ∧ (m.pkind = .icmpv6 → m.nh = 58) ∧
    (m.pkind = .hbh → m.nh = 0)

/-- Whether slot `i` of the context table holds the first 8 bytes of an address (R131). -/
def ctxMatches (s : State) (addr : List Byte) (i : Nat) : Prop :=
  (ctxSlot s.ctx i).valid = true ∧ octBytes (ctxSlot s.ctx i).pfx = addr.take 8

/-- The plain sum of the big-endian 16-bit words of a byte sequence, an odd last byte being the high
half of a word (R251). -/
def wordSum : List Byte → Nat
  | [] => 0
  | [x] => x.toNat * 256
  | x :: y :: l => x.toNat * 256 + y.toNat + wordSum l

/-- Whether an instruction is one of the 31 host commands (R100). -/
def isCommand : Instr → Bool
  | .setbytes _ | .getbyte _ | .get16 _ | .get24 _ | .copyout _ _ _ | .incpos _ | .payloadlen
  | .setattr _ _ _ _ | .getattr _ | .pbLoad _ | .rdbuf _ _ _ | .ctxSet _ _ | .ctxLookup _
  | .ctxGet _ | .hmWr _ _ _ | .hmRd _ | .setpayload _ | .encode | .classify | .decode | .reasm _
  | .sweep _ | .fragStat _ | .csumPseudo _ _ _ | .csumFold _ _ | .csumFinal | .udpCsum | .udpVerify
  | .reset | .clrflags _ | .rdstatus => true
  | .uncompIpv6 | .iphc _ _ _ _ | .frag1 _ | .fragn _ | .other _ | .iphcWord _ _ _ _ _ _ _ _ _ _
  | .cidByte _ _ | .frag1Hdr _ _ | .fragnHdr _ _ _ | .tfElided | .tfTcOnly _ _ | .tfFlOnly _ _ _
  | .tfFull _ _ _ _ | .nhInline _ | .nhUdpNhc | .hlimInline _ | .hlim1 | .hlim64 | .hlim255
  | .srcFull _ | .srcLl64 _ | .srcLl16 _ _ | .srcLlMac | .srcUnspec | .srcCtx64 _ | .srcCtx16 _ _
  | .srcCtxMac | .dstFull _ | .dstLl64 _ | .dstLl16 _ _ | .dstLlMac | .dstReservedDac1Dam00
  | .dstCtx64 _ | .dstCtx16 _ _ | .dstCtxMac | .dstMcFull _ | .dstMc48 _ _ _ _ _ _
  | .dstMc32 _ _ _ _ | .dstMc8 _ | .dstReservedM1Dac1 _ | .udpNhcFullPorts _ _ _
  | .udpNhcNibblePorts _ _ _ | .udpNhcP01 _ | .udpNhcP10 _ | .nhcOther _ => false

/-- Whether an instruction is one of the two that clear flags (R15). -/
def clearsFlags : Instr → Bool
  | .clrflags _ | .reset => true
  | _ => false

/-- The pieces of state that an instruction may write. For the 31 commands this is the "written by" of
R10, R15 to R18, R20 to R25, and HM for UDP_CSUM and UDP_VERIFY, which R257 and R258 let write it.
The lists of the 45 wire-format rows as instructions are the model's own (log 4, log 5): a row that
may be the last of a header has what DECODE or a first fragment's REASM then writes. So are `draws`
(log 7) and that no list has `host` (log 1). -/
def writes : Instr → List StatePart
  | .setbytes _ => [.fb, .cur]
  | .getbyte _ | .get16 _ | .get24 _ => [.flags]
  | .copyout _ _ _ => [.pb, .flags]
  | .incpos _ => [.cur]
  | .payloadlen => []
  | .setattr _ _ _ _ => [.linkSrc, .linkDst, .pktType]
  | .getattr _ => []
  | .pbLoad _ => [.pb]
  | .rdbuf _ _ _ => []
  | .ctxSet _ _ => [.ctx]
  | .ctxLookup _ | .ctxGet _ => []
  | .hmWr _ _ _ => [.hm]
  | .hmRd _ => []
  | .setpayload _ => [.hm]
  | .encode => [.ob, .sum, .flags]
  | .classify => [.flags]
  | .decode => [.hm, .cur, .flags]
  | .reasm _ => [.frag, .fb, .cur, .flags, .evictCount, .draws]
  | .sweep _ => [.frag, .flags, .evictCount]
  | .fragStat _ => []
  | .csumPseudo _ _ _ | .csumFold _ _ => [.sum]
  | .csumFinal => []
  | .udpCsum => [.sum, .hm]
  | .udpVerify => [.sum, .hm, .flags]
  | .reset =>
    [.hm, .flags, .evictCount, .ctx, .sum, .fb, .cur, .linkSrc, .linkDst, .pktType, .pb, .ob, .frag]
  | .clrflags _ => [.flags]
  | .rdstatus => []
  | .uncompIpv6 | .iphc _ _ _ _ | .frag1 _ | .fragn _ | .other _ => [.flags]
  | .iphcWord _ _ _ _ _ _ _ _ _ _ | .cidByte _ _ | .frag1Hdr _ _ => []
  | .fragnHdr _ _ _ => [.frag, .fb, .cur, .draws]
  | .tfElided | .tfTcOnly _ _ | .tfFlOnly _ _ _ | .tfFull _ _ _ _ | .nhInline _ | .nhUdpNhc
  | .hlimInline _ | .hlim1 | .hlim64 | .hlim255 => []
  | .srcFull _ | .srcLl64 _ | .srcLl16 _ _ | .srcLlMac | .srcUnspec | .srcCtx64 _ | .srcCtx16 _ _
  | .srcCtxMac => []
  | .dstReservedDac1Dam00 | .dstReservedM1Dac1 _ => []
  | .dstFull _ | .dstLl64 _ | .dstLl16 _ _ | .dstLlMac | .dstCtx64 _ | .dstCtx16 _ _ | .dstCtxMac
  | .dstMcFull _ | .dstMc48 _ _ _ _ _ _ | .dstMc32 _ _ _ _ | .dstMc8 _ =>
    [.hm, .cur, .flags, .frag, .draws]
  | .udpNhcFullPorts _ _ _ | .udpNhcNibblePorts _ _ _ | .udpNhcP01 _ | .udpNhcP10 _ | .nhcOther _ =>
    [.hm, .cur, .flags, .frag, .draws]

/-- The state a command's own rule starts from: REASM sweeps first, and its sweep stands (R240). -/
def startsFrom (i : Instr) (s : State) : State :=
  match i with
  | .reasm now => sweepState now s
  | _ => s

/-- The next piece of the header is in `slot`, `n` bytes on, and the candidate model is `m`. -/
def wireTo (slot : Slot) (n : Nat) (m : HM) (s : State) : State :=
  { s with walk := { s.walk with slot := some slot, pos := s.walk.pos + n, cand := m } }

/-- A DECODE that is read piece by piece has committed: `chs` header bytes, UHS `uhs`, the model `m`,
and the NHC mark `unsup` (R181, R207, R210, R211, R288). -/
def committed (m : HM) (uhs : BitVec 32) (chs : Nat) (unsup : Bool) (s t : State) : Prop :=
  answered (if s.walk.trunc then .truncated else if unsup then .nhcUnsupported else .ok) 0 uhs
      (BitVec.ofNat 32 chs) [] t ∧
    t.hm = m ∧ t.cur.toNat = s.cur.toNat + chs ∧
    t.flags = truncFlags s.walk.trunc s ||| (if unsup then 4 else 0) ∧
    keepsBut [.hm, .cur, .flags] s t

/-- The outcome of the last piece of a header: for DECODE the commit, or BAD_OPERAND where the cursor
would pass 0xFFFF; for REASM the first fragment goes on with what the probe found (R181, R226). -/
def headerEnds (m : HM) (uhs chs : Nat) (unsup : Bool) (s : State)
    (o : Host.Outcome State Fault Refusal) : Prop :=
  (s.walk.reader ≠ .reasm → s.cur.toNat + chs ≤ 0xFFFF →
      ∃ t, o = .next t ∧ committed m (BitVec.ofNat 32 uhs) chs unsup s t) ∧
    (s.walk.reader ≠ .reasm → 0xFFFF < s.cur.toNat + chs →
      ∃ t, o = .next t ∧ refuses .badOperand 0 s t) ∧
    (s.walk.reader = .reasm →
      o = .next (storeFirst s.walk.now s.walk.size s.walk.tag
        ⟨m, chs, uhs, unsup, s.walk.trunc⟩ s))

/-- The outcome of a destination row whose address is `a` and has `n` inline bytes: an NHC header
follows if NH_C is set, else the header ends there with no UDP shell (R61, R181, R210). -/
def dstTaken (a : Addr) (n : Nat) (s : State) (o : Host.Outcome State Fault Refusal) : Prop :=
  (s.walk.w.getLsbD 10 = true → o = .next (wireTo .nhc n { s.walk.cand with dst := a } s)) ∧
    (s.walk.w.getLsbD 10 = false →
      headerEnds { s.walk.cand with dst := a, pkind := .none, sport := 0, dport := 0, csum := 0, csumInline := false }
        40 (s.walk.pos + n - s.walk.base) false s o)

/-- The values that R35 gives the state: every one it names, in its order. What it calls unobservable
or unspecified is not named. -/
def resetValues (t : State) : Prop :=
  hmReads 0 6 [] t ∧ t.hm = ⟨0, 0, 0, 0, Addr.zero, Addr.zero, .none, 0, 0, 0, false⟩ ∧
    t.res0 = 0 ∧ t.res1 = 0 ∧ t.status = 0 ∧ t.errpos = 0 ∧ t.flags = 0 ∧ t.evictCount = 0 ∧
    (∀ i, (ctxSlot t.ctx i).valid = false) ∧ t.sum = 0 ∧ t.fb.len = 0 ∧ t.cur = 0 ∧
    t.linkSrc.valid = false ∧ t.linkDst.valid = false ∧ t.pktType.valid = false ∧
    t.pb.len = 0 ∧ t.ob.len = 0 ∧ ∀ j, (t.frag.toList.getD j FragSlot.reset).valid = false

/-! ## The length and the refusals of an IPHC header -/

/-- Inline bytes of the traffic class and flow label (R73, R63). -/
def tfLen (b0 : Byte) : Nat :=
  match b0.getLsbD 4, b0.getLsbD 3 with
  | true, true => 0
  | false, true => 1
  | true, false => 3
  | false, false => 4

/-- Inline bytes of a unicast address with context bit `c` and mode `m` (R73, R68, R70). -/
def addrLen (c : Bool) (m : BitVec 2) : Nat :=
  match c, m.toNat with
  | false, 0 => 16
  | true, 0 => 0
  | _, 1 => 8
  | _, 2 => 2
  | _, _ => 0

/-- Inline bytes of a multicast destination (R73, R70). -/
def mcastLen (m : BitVec 2) : Nat :=
  match m.toNat with
  | 0 => 16
  | 1 => 6
  | 2 => 4
  | _ => 1

/-- `len_iphc` of R73, from the two bytes of the IPHC word. -/
def iphcLen (b0 b1 : Byte) : Nat :=
  2 + (if b1.getLsbD 7 then 1 else 0) + tfLen b0 + (if b0.getLsbD 2 then 0 else 1) +
    (if b0 &&& 0x03 = 0 then 1 else 0) + addrLen (b1.getLsbD 6) (b1.extractLsb' 4 2) +
    (if b1.getLsbD 3 then mcastLen (b1.extractLsb' 0 2)
     else addrLen (b1.getLsbD 2) (b1.extractLsb' 0 2))

/-- Whether an NHC byte is one this block supports (R80, R81, R95). -/
def nhcSupported (n : Byte) : Bool :=
  n &&& 0xF8 == 0xF0 && (n &&& 0x03 == 0x00 || n &&& 0x03 == 0x03)

/-- `len_nhc` of R73, from a supported NHC byte. -/
def nhcLen (n : Byte) : Nat :=
  1 + (if n &&& 0x03 = 0 then 4 else 1) + (if n.getLsbD 2 then 0 else 2)

/-- Whether the NHC header of the IPHC header at `base` gives a UDP shell (R200, R207). -/
def hasShell (s : State) (base : Nat) : Bool :=
  (rdByte s base).getLsbD 2 &&
    nhcSupported (rdByte s (base + iphcLen (rdByte s base) (rdByte s (base + 1))))

/-- CHS of the IPHC header at `base` (R73, R210). -/
def headerLen (s : State) (base : Nat) : Nat :=
  let n := iphcLen (rdByte s base) (rdByte s (base + 1))
  if hasShell s base then n + nhcLen (rdByte s (base + n)) else n

/-- Whether NH_C is set and the NHC byte is not supported (R207). -/
def nhcMissing (s : State) (base : Nat) : Bool :=
  (rdByte s base).getLsbD 2 && !hasShell s base

/-- How many bytes the decoder reads: those of CHS, and an unsupported NHC byte, which it reads but
does not consume (R200, R207). -/
def bytesRead (s : State) (base : Nat) : Nat :=
  headerLen s base + (if nhcMissing s base then 1 else 0)

/-- The context index of the source side: 0 without a CID byte (R67, R190). -/
def srcIndex (s : State) (base : Nat) : Nat :=
  if (rdByte s (base + 1)).getLsbD 7 then (rdByte s (base + 2)).toNat / 16 else 0

/-- The context index of the destination side (R67, R190). -/
def dstIndex (s : State) (base : Nat) : Nat :=
  if (rdByte s (base + 1)).getLsbD 7 then (rdByte s (base + 2)).toNat % 16 else 0

/-- The refusal of an address of mode `m`: the context is asked for before the link address (R196,
R212). -/
def addrRefusal (s : State) (c : Bool) (m : BitVec 2) (i : Nat) (la : LinkAttr) (pos : Nat) :
    Option (Status × Nat) :=
  if m = 0b00 then none
  else if c && !(ctxSlot s.ctx i).valid then some (.missingContext, pos)
  else if m = 0b11 && !la.valid then some (.missingLinkAddr, pos)
  else none

/-- The refusal of a decode at `base`, in the order of R212; none when it commits. -/
def headerRefusal (s : State) (base : Nat) : Option (Status × Nat) :=
  let b1 := rdByte s (base + 1)
  if rdByte s base &&& 0xE0 ≠ 0x60 then some (.notIphc, base)
  else
    match addrRefusal s (b1.getLsbD 6) (b1.extractLsb' 4 2) (srcIndex s base) s.linkSrc (base + 1) with
    | some r => some r
    | none =>
      if b1.getLsbD 2 && (b1.getLsbD 3 || b1 &&& 0x03 == 0x00) then
        some (.reservedEncoding, base + 1)
      else if b1.getLsbD 3 then none
      else
        addrRefusal s (b1.getLsbD 2) (b1.extractLsb' 0 2) (dstIndex s base) s.linkDst (base + 1)

/-! ## The choices of the encoder, on the bytes of an address -/

/-- `lookup` of R131 as a relation: `c` is the lowest valid slot that holds the first 8 bytes of the
address, none when no slot does. -/
def firstMatch (s : State) (addr : List Byte) (c : Option Nat) : Prop :=
  match c with
  | some i => i < 16 ∧ ctxMatches s addr i ∧ ∀ j, j < i → ¬ ctxMatches s addr j
  | none => ∀ i, i < 16 → ¬ ctxMatches s addr i

/-- The IID of an address is the link address with bit 0x02 of its first byte inverted (R157). -/
def linkDerived (addr : List Byte) (la : LinkAttr) : Bool :=
  la.valid && byteOf addr 8 == la.addr.b0 ^^^ 0x02 && addr.drop 9 == (octBytes la.addr).drop 1

/-- Bytes 8 to 13 of an address are zero, and the high nibble of byte 14 is (R158). -/
def shortIid (addr : List Byte) : Bool :=
  (addr.drop 8).take 6 == List.replicate 6 0 && byteOf addr 14 &&& 0xF0 == 0

/-- The context bit (4) and the mode of a unicast address, `c` being the slot it matches: context,
then link-local, then full; IID derived, then 16 bits, then 64 bits (R159, R160, R68). -/
def unicastForm (c : Option Nat) (addr : List Byte) (la : LinkAttr) : Byte :=
  let mode := if linkDerived addr la then 3 else if shortIid addr then 2 else 1
  if c.isSome then 4 + mode
  else if addr.take 8 = [0xFE, 0x80, 0, 0, 0, 0, 0, 0] then mode
  else 0

/-- The mode of a multicast destination: 8 bits, then 32, then 48, then full (R162). -/
def multicastForm (addr : List Byte) : Byte :=
  if byteOf addr 1 = 0x02 ∧ (addr.drop 2).take 13 = List.replicate 13 0 then 3
  else if (addr.drop 2).take 11 = List.replicate 11 0 then 2
  else if (addr.drop 2).take 9 = List.replicate 9 0 then 1
  else 0

/-- The inline bytes of a multicast destination in a mode (R162, R70): all of it, its last byte, or
its second byte and its last three or five. -/
def multicastInline (mode : BitVec 2) (addr : List Byte) : List Byte :=
  match mode.toNat with
  | 0 => addr
  | 3 => addr.drop 15
  | 2 => byteOf addr 1 :: addr.drop 13
  | _ => byteOf addr 1 :: addr.drop 11

/-- The inline bytes of traffic class and flow label: neither, ECN and DSCP, the 20 bits in three
bytes, or both (R153, R64). -/
def trafficInline (tc : BitVec 8) (fl : BitVec 20) : List Byte :=
  (if tc = 0 then [] else [tc.extractLsb' 0 2 ++ tc.extractLsb' 2 6]) ++
    (if fl = 0 then []
     else [BitVec.ofNat 8 (fl.toNat / 2 ^ 16), BitVec.ofNat 8 (fl.toNat / 2 ^ 8),
       BitVec.ofNat 8 fl.toNat])

/-- The NHC header of a UDP model: two nibbles exactly when both ports are in 0xF0B0 to 0xF0BF, else
both ports; then the checksum (R165). -/
def udpHeaderBytes (m : HM) : List Byte :=
  (if 0xF0B0 ≤ m.sport.toNat ∧ m.sport.toNat ≤ 0xF0BF ∧
      0xF0B0 ≤ m.dport.toNat ∧ m.dport.toNat ≤ 0xF0BF then
    [0xF3, BitVec.ofNat 8 ((m.sport.toNat - 0xF0B0) * 16 + (m.dport.toNat - 0xF0B0))]
   else 0xF0 :: (be16Bytes m.sport ++ be16Bytes m.dport)) ++ be16Bytes m.csum

/-! ## Reassembly -/

/-- The reassembly slot of an index below 4 (R25). -/
def slotAt (s : State) (j : Nat) : FragSlot := s.frag.toList.getD j FragSlot.reset

/-- Where a fragment of this size and tag goes: the slot, the context as the fragment finds or makes
it, and the draws after it (R222, R223, R228); none if it is refused there. -/
def target (s : State) (now : BitVec 32) (size : BitVec 11) (tag : BitVec 16) :
    Option (Nat × FragSlot × Nat) :=
  match findSlot s s.linkSrc.addr tag with
  | some j => if (slotAt s j).total = size then some (j, slotAt s j, s.draws) else none
  | none =>
    match freeSlot s with
    | some j => some (j, newContext s.linkSrc.addr tag size now s.draws, s.draws + 1)
    | none => none

/-- The byte at an index of a context's buffer after a payload has been put at `pos`. -/
def placedByte (c : FragSlot) (pos : Nat) (payload : List Byte) (a : Nat) : Byte :=
  if pos ≤ a ∧ a < pos + payload.length then byteOf payload (a - pos) else memByte c.draw c.buf a

/-- What storing fragment `x` into context `c` of slot `j` leaves: the context's scalar fields, every
byte of its buffer, and the other slots (R230, R232, R234, R235). -/
def storedAt (x : Piece) (j : Nat) (c : FragSlot) (s t : State) : Prop :=
  (slotAt t j).key = c.key ∧ (slotAt t j).tag = c.tag ∧ (slotAt t j).total = c.total ∧
    (slotAt t j).created = c.created ∧
    (slotAt t j).recvd.toNat = c.recvd.toNat + x.added ∧
    (slotAt t j).adj = (if x.first then BitVec.ofNat 8 x.adj else c.adj) ∧
    (slotAt t j).ranges = c.ranges ++ [x.range] ∧
    (∀ a, memByte (slotAt t j).draw (slotAt t j).buf a =
      placedByte c (x.place c).toNat x.payload a) ∧
    ∀ k, k ≠ j → slotAt t k = slotAt s k

/-- A fragment that its context takes: not recorded yet, inside the declared size, not over-counted,
and a record is free (R233, R231, R232, R230). -/
def fits (x : Piece) (c : FragSlot) : Prop :=
  x.range ∉ c.ranges ∧ 0 ≤ x.place c ∧
    x.place c + (x.payload.length : Int) ≤ (c.total.toNat : Int) ∧
    c.recvd.toNat + x.added ≤ c.total.toNat ∧ c.ranges.length < 256

/-- What a continuation fragment `x` that fits context `c` of slot `j` leaves: it is stored and the
datagram waits, or the count reaches TOTAL, the assembled bytes go into FB with the cursor at 0, and
the slot is freed (R235, R236). -/
def continued (x : Piece) (j : Nat) (c : FragSlot) (s t : State) : Prop :=
  (c.recvd.toNat + x.payload.length < c.total.toNat →
      answered .incomplete 0 (BitVec.ofNat 32 j) 0 [] t ∧ storedAt x j c s t ∧
        (slotAt t j).valid = true ∧ keepsBut [.frag, .draws] s t) ∧
    (c.recvd.toNat + x.payload.length = c.total.toNat →
      answered .complete 0 (BitVec.ofNat 32 j) 0 [] t ∧ (slotAt t j).valid = false ∧
        (∀ k, k ≠ j → slotAt t k = slotAt s k) ∧
        t.fb.len = c.total.toNat - c.adj.toNat ∧
        (∀ a, a < c.total.toNat - c.adj.toNat →
          memByte 0 t.fb.mem a = placedByte c (x.place c).toNat x.payload a) ∧
        t.cur = 0 ∧ keepsBut [.frag, .draws, .fb, .cur] s t)

/-! ## The invariant of the block -/

/-- A buffer holds exactly the indices below its LEN and is not longer than its capacity (R20, R23,
R40). -/
def bufOk (cap : Nat) (b : Buf) : Prop := Buf.wf b ∧ b.len ≤ cap

/-- A reassembly slot: its buffer is in canonical form, and a valid context has the ranges of R25 and
the invariants of R26. -/
def slotOk (f : FragSlot) : Prop :=
  Memory.wf f.buf ∧
    (f.valid = true →
      (∀ e ∈ f.buf, e.1 < f.total.toNat) ∧ f.recvd.toNat ≤ f.total.toNat ∧
        f.adj.toNat ≤ f.recvd.toNat ∧ f.adj.toNat ≤ 44 ∧ f.ranges.length ≤ 256 ∧ f.ranges.Nodup)

/-- No two valid slots hold the same key (R26, R229). -/
def keysDistinct (s : State) : Prop :=
  ∀ j k, j < 4 → k < 4 → (slotAt s j).valid = true → (slotAt s k).valid = true →
    (slotAt s j).key = (slotAt s k).key → (slotAt s j).tag = (slotAt s k).tag → j = k

/-- The temporaries of a header that is being read: nothing before its start, and the two bytes of
the IPHC word behind every later piece (R61). -/
def walkOk (w : Walk) : Prop :=
  w.base ≤ w.pos ∧
    (w.slot ∈ [some .cid, some .tf, some .nh, some .hlim, some .src, some .dst, some .nhc] →
      w.base + 2 ≤ w.pos)

/-- The invariant: every buffer is canonical and within its capacity, every reassembly context
satisfies R25 and R26, STATUS is a listed code (R281: "Codes not listed are never produced"). -/
structure Inv (s : State) : Prop where
  fb : bufOk 2048 s.fb
  pb : bufOk 2048 s.pb
  ob : bufOk 2096 s.ob
  slots : ∀ j, j < 4 → slotOk (slotAt s j)
  keys : keysDistinct s
  status : s.status ∈ allStatuses.map statusCode
  walk : walkOk s.walk

end Sys2Proof.Machine
end

