-- ==== Sys2Proof/Certificates/Slice0/Obligations.lean ====
section
/-! DEFINITION. The statements about the block that are to be proved. Their words are defined in
Sys2Proof/Safety.lean; OBLIGATIONS.json gives each its number, its rule and its quotation. -/

section Statements

open Sys2Proof Sys2Proof.Machine

/-! ## Running a command -/

/-- R270, R50: between commands a step takes the next tuple off the port and runs the command it
decodes to; while a header is read it runs the wire-format row that the bytes at the running offset
decode to, with the truncation mark of those bytes; with no tuple it does nothing (log 1, log 4,
log 13 are the model's own part). -/
def Obligations.StepRunsTheInstructionAtHand : Prop :=
  ∀ (s : State) (i : Instr),
    (∀ (tup : CmdTuple) (rest : List CmdTuple), s.walk.slot = none → s.host = tup :: rest →
      decodeCommand tup = .ok i → step s = exec i { s with host := rest, walk := Walk.idle }) ∧
    (∀ slot : Slot, s.walk.slot = some slot →
      decodeWire slot s.walk.w (rdb s s.walk.pos 24) = .ok i →
      step s = exec i
        { s with walk := { s.walk with
            trunc := s.walk.trunc || past s s.walk.pos i.wireLen } }) ∧
    (s.walk.slot = none → s.host = [] → step s = .next s)

/-- R102. -/
def Obligations.UnknownOpcodeIsBadCommand : Prop :=
  ∀ (s : State) (tup : CmdTuple) (rest : List CmdTuple), s.walk.slot = none →
    s.host = tup :: rest →
    tup.op ∉ [0x01#8, 0x02#8, 0x03#8, 0x04#8, 0x05#8, 0x06#8, 0x07#8, 0x08#8, 0x09#8, 0x0A#8,
      0x0B#8, 0x10#8, 0x11#8, 0x12#8, 0x18#8, 0x19#8, 0x1A#8, 0x20#8, 0x28#8, 0x29#8, 0x30#8,
      0x31#8, 0x32#8, 0x38#8, 0x39#8, 0x3A#8, 0x3B#8, 0x3C#8, 0x40#8, 0x41#8, 0x42#8] →
    ∃ t, step s = .next t ∧ refuses .badCommand 0 { s with host := rest } t

/-- R290: a command that returns a hard error has changed nothing but STATUS, ERRPOS, RES0 and RES1,
the sweep of REASM excepted. -/
def Obligations.HardErrorsChangeNothing : Prop :=
  ∀ (i : Instr) (s t : State) (r : Response), isCommand i = true → exec i s = .next t →
    t.resp = some r → 0x20 ≤ r.status.toNat →
    t.status = r.status ∧ t.res0 = 0 ∧ t.res1 = 0 ∧ keepsBut [] (startsFrom i s) t

/-- R15: no instruction but CLRFLAGS and RESET ever clears a flag. -/
def Obligations.FlagsAreSticky : Prop :=
  ∀ (i : Instr) (s t : State), clearsFlags i = false → exec i s = .next t →
    s.flags &&& t.flags = s.flags

/-- The frame of all 76 instructions: each leaves every piece of state unchanged that its list `writes`
does not have. For a command the list is what the rules let it write (R10, R15 to R18, R20 to R25;
R257 and R258 let UDP_CSUM and UDP_VERIFY write HM). The lists of the 45 wire-format rows as
instructions are the model's own choice (log 4, log 5), and so are `draws` (log 7) and `host`
(log 1). -/
def Obligations.EveryInstructionKeepsTheRest : Prop :=
  ∀ (i : Instr) (s t : State), exec i s = .next t → keepsBut (writes i) s t

/-! ## Buffers -/

/-- R111, R120: SETBYTES and PB_LOAD replace a buffer whole. -/
def Obligations.LoadsReplaceTheBuffer : Prop :=
  ∀ (data : List Byte) (s : State),
    (data.length ≤ 2048 →
      (∃ t, exec (.setbytes data) s = .next t ∧ answered .ok 0 0 0 [] t ∧
        t.fb.len = data.length ∧ bufBytes t.fb = data ∧ t.cur = 0 ∧
        keepsBut [.fb, .cur] s t) ∧
      (∃ t, exec (.pbLoad data) s = .next t ∧ answered .ok 0 0 0 [] t ∧
        t.pb.len = data.length ∧ bufBytes t.pb = data ∧ keepsBut [.pb] s t)) ∧
    (2048 < data.length →
      (∃ t, exec (.setbytes data) s = .next t ∧ refuses .badOperand 0 s t) ∧
      (∃ t, exec (.pbLoad data) s = .next t ∧ refuses .badOperand 0 s t))

/-- R112, R113, R114: the three cursor-relative reads are big-endian, zero-filled per byte, and note
a truncation. -/
def Obligations.FrameReadsAreTolerant : Prop :=
  ∀ (off : BitVec 32) (s : State),
    (off.toNat ≤ 0xFFFF →
      (∃ t, exec (.getbyte off) s = .next t ∧
        readAnswer 1 off ((0 : BitVec 24) ++ byteAt s (s.cur.toNat + off.toNat)) s t) ∧
      (∃ t, exec (.get16 off) s = .next t ∧
        readAnswer 2 off ((0 : BitVec 16) ++ byteAt s (s.cur.toNat + off.toNat) ++
          byteAt s (s.cur.toNat + off.toNat + 1)) s t) ∧
      (∃ t, exec (.get24 off) s = .next t ∧
        readAnswer 3 off ((0 : BitVec 8) ++ byteAt s (s.cur.toNat + off.toNat) ++
          byteAt s (s.cur.toNat + off.toNat + 1) ++
          byteAt s (s.cur.toNat + off.toNat + 2)) s t)) ∧
    (0xFFFF < off.toNat → ∀ i ∈ [Instr.getbyte off, Instr.get16 off, Instr.get24 off],
      ∃ t, exec i s = .next t ∧ refuses .badOperand 0 s t)

/-- R115: COPYOUT writes exactly the named bytes of PB, a byte beyond the frame as 0. -/
def Obligations.CopyoutFillsPayloadBytes : Prop :=
  ∀ (srcOff dstOff length : BitVec 32) (s : State),
    (srcOff.toNat ≤ 0xFFFF → dstOff.toNat ≤ s.pb.len → dstOff.toNat + length.toNat ≤ 2048 →
      ∀ trunc : Bool,
        trunc = decide (0 < length.toNat ∧
          s.fb.len < s.cur.toNat + srcOff.toNat + length.toNat) →
        ∃ t, exec (.copyout srcOff dstOff length) s = .next t ∧
          answered (truncStatus trunc) 0 0 0 [] t ∧ t.flags = truncFlags trunc s ∧
          t.pb.len = max s.pb.len (dstOff.toNat + length.toNat) ∧
          (∀ k, k < length.toNat → memByte 0 t.pb.mem (dstOff.toNat + k) =
            byteAt s (s.cur.toNat + srcOff.toNat + k)) ∧
          (∀ a, a < dstOff.toNat ∨ dstOff.toNat + length.toNat ≤ a →
            memByte 0 t.pb.mem a = memByte 0 s.pb.mem a) ∧
          keepsBut [.pb, .flags] s t) ∧
    (0xFFFF < srcOff.toNat ∨ s.pb.len < dstOff.toNat ∨ 2048 < dstOff.toNat + length.toNat →
      ∃ t, exec (.copyout srcOff dstOff length) s = .next t ∧ refuses .badOperand 0 s t)

/-- R116: the cursor moves by a signed delta and is refused outside 0 to 0xFFFF. -/
def Obligations.IncposMovesTheCursor : Prop :=
  ∀ (delta : BitVec 32) (s : State),
    (0 ≤ (s.cur.toNat : Int) + delta.toInt → (s.cur.toNat : Int) + delta.toInt ≤ 0xFFFF →
      ∃ t, exec (.incpos delta) s = .next t ∧
        (t.cur.toNat : Int) = (s.cur.toNat : Int) + delta.toInt ∧
        answered .ok 0 (t.cur.zeroExtend 32) 0 [] t ∧ keepsBut [.cur] s t) ∧
    ((s.cur.toNat : Int) + delta.toInt < 0 ∨ 0xFFFF < (s.cur.toNat : Int) + delta.toInt →
      ∃ t, exec (.incpos delta) s = .next t ∧ refuses .badOperand 0 s t)

/-- R117: LEN - CUR, signed; FB.LEN is at most FB_CAP in every reachable state. -/
def Obligations.PayloadLengthIsSigned : Prop :=
  ∀ s : State, s.fb.len ≤ 2048 →
    ∃ t, exec .payloadlen s = .next t ∧
      t.res0.toInt = (s.fb.len : Int) - (s.cur.toNat : Int) ∧
      answered .ok 0 t.res0 0 [] t ∧ keepsBut [] s t

/-- R118: one attribute is written, its content only with VALID = 1. -/
def Obligations.SetattrWritesOneAttribute : Prop :=
  ∀ (att valid value : BitVec 32) (addr : List Byte) (s : State),
    (addr.length = 8 →
      (∃ t, exec (.setattr 0 1 value addr) s = .next t ∧ answered .ok 0 0 0 [] t ∧
        t.linkSrc.valid = true ∧ octBytes t.linkSrc.addr = addr ∧ keepsBut [.linkSrc] s t) ∧
      (∃ t, exec (.setattr 1 1 value addr) s = .next t ∧ answered .ok 0 0 0 [] t ∧
        t.linkDst.valid = true ∧ octBytes t.linkDst.addr = addr ∧ keepsBut [.linkDst] s t)) ∧
    (∃ t, exec (.setattr 2 1 value addr) s = .next t ∧ answered .ok 0 0 0 [] t ∧
      t.pktType = ⟨true, value⟩ ∧ keepsBut [.pktType] s t) ∧
    (∃ t, exec (.setattr 0 0 value addr) s = .next t ∧ answered .ok 0 0 0 [] t ∧
      t.linkSrc = ⟨false, s.linkSrc.addr⟩ ∧ keepsBut [.linkSrc] s t) ∧
    (∃ t, exec (.setattr 1 0 value addr) s = .next t ∧ answered .ok 0 0 0 [] t ∧
      t.linkDst = ⟨false, s.linkDst.addr⟩ ∧ keepsBut [.linkDst] s t) ∧
    (∃ t, exec (.setattr 2 0 value addr) s = .next t ∧ answered .ok 0 0 0 [] t ∧
      t.pktType = ⟨false, s.pktType.val⟩ ∧ keepsBut [.pktType] s t) ∧
    (2 < att.toNat ∨ 1 < valid.toNat ∨ (att.toNat ≤ 1 ∧ valid = 1 ∧ addr.length ≠ 8) →
      ∃ t, exec (.setattr att valid value addr) s = .next t ∧ refuses .badOperand 0 s t)

/-- R119: VALID, and the content or zeros. -/
def Obligations.GetattrReadsOneAttribute : Prop :=
  ∀ (att : BitVec 32) (s : State),
    (∃ t, exec (.getattr 0) s = .next t ∧ keepsBut [] s t ∧
      (s.linkSrc.valid = true → answered .ok 0 1 0 (octBytes s.linkSrc.addr) t) ∧
      (s.linkSrc.valid = false → answered .ok 0 0 0 (List.replicate 8 0) t)) ∧
    (∃ t, exec (.getattr 1) s = .next t ∧ keepsBut [] s t ∧
      (s.linkDst.valid = true → answered .ok 0 1 0 (octBytes s.linkDst.addr) t) ∧
      (s.linkDst.valid = false → answered .ok 0 0 0 (List.replicate 8 0) t)) ∧
    (∃ t, exec (.getattr 2) s = .next t ∧ keepsBut [] s t ∧
      (s.pktType.valid = true → answered .ok 0 1 s.pktType.val [] t) ∧
      (s.pktType.valid = false → answered .ok 0 0 0 [] t)) ∧
    (2 < att.toNat → ∃ t, exec (.getattr att) s = .next t ∧ refuses .badOperand 0 s t)

/-- R121: the bytes at absolute indices, bounds-checked. -/
def Obligations.RdbufReturnsTheBytes : Prop :=
  ∀ (space off length : BitVec 32) (s : State) (b : Buf),
    ((space = 0 ∧ b = s.fb) ∨ (space = 1 ∧ b = s.pb) ∨ (space = 2 ∧ b = s.ob) →
      (off.toNat + length.toNat ≤ b.len →
        ∃ t out, exec (.rdbuf space off length) s = .next t ∧ answered .ok 0 0 0 out t ∧
          out.length = length.toNat ∧
          (∀ k, k < length.toNat → byteOf out k = memByte 0 b.mem (off.toNat + k)) ∧
          keepsBut [] s t) ∧
      (b.len < off.toNat + length.toNat →
        ∃ t, exec (.rdbuf space off length) s = .next t ∧ refuses .badOperand 0 s t)) ∧
    (2 < space.toNat →
      ∃ t, exec (.rdbuf space off length) s = .next t ∧ refuses .badOperand 0 s t)

/-! ## The context table -/

/-- R132: one slot is installed; the prefix's length is checked before the index. -/
def Obligations.CtxSetInstallsOneSlot : Prop :=
  ∀ (idx : BitVec 32) (pfx : List Byte) (s : State),
    (pfx.length = 8 → idx.toNat ≤ 15 →
      ∃ t, exec (.ctxSet idx pfx) s = .next t ∧ answered .ok 0 0 0 [] t ∧
        (ctxSlot t.ctx idx.toNat).valid = true ∧ octBytes (ctxSlot t.ctx idx.toNat).pfx = pfx ∧
        (∀ k, k ≠ idx.toNat → ctxSlot t.ctx k = ctxSlot s.ctx k) ∧ keepsBut [.ctx] s t) ∧
    (pfx.length ≠ 8 → ∃ t, exec (.ctxSet idx pfx) s = .next t ∧ refuses .badOperand 0 s t) ∧
    (pfx.length = 8 → 15 < idx.toNat →
      ∃ t, exec (.ctxSet idx pfx) s = .next t ∧ refuses .badIndex 0 s t)

/-- R131, R133: the lowest valid slot whose 64 bits match, or not found. -/
def Obligations.CtxLookupFindsTheFirstMatch : Prop :=
  ∀ (addr : List Byte) (s : State),
    (addr.length = 16 →
      (∀ i, i < 16 → ctxMatches s addr i → (∀ j, j < i → ¬ ctxMatches s addr j) →
        ∃ t, exec (.ctxLookup addr) s = .next t ∧
          answered .ok 0 1 (BitVec.ofNat 32 i) [] t ∧ keepsBut [] s t) ∧
      ((∀ i, i < 16 → ¬ ctxMatches s addr i) →
        ∃ t, exec (.ctxLookup addr) s = .next t ∧ answered .ok 0 0 0 [] t ∧
          keepsBut [] s t)) ∧
    (addr.length ≠ 16 → ∃ t, exec (.ctxLookup addr) s = .next t ∧ refuses .badOperand 0 s t)

/-- R134: VALID and the prefix, or zeros. -/
def Obligations.CtxGetReadsOneSlot : Prop :=
  ∀ (idx : BitVec 32) (s : State),
    (idx.toNat ≤ 15 →
      ∃ t, exec (.ctxGet idx) s = .next t ∧ keepsBut [] s t ∧
        ((ctxSlot s.ctx idx.toNat).valid = true →
          answered .ok 0 1 0 (octBytes (ctxSlot s.ctx idx.toNat).pfx) t) ∧
        ((ctxSlot s.ctx idx.toNat).valid = false →
          answered .ok 0 0 0 (List.replicate 8 0) t)) ∧
    (15 < idx.toNat → ∃ t, exec (.ctxGet idx) s = .next t ∧ refuses .badIndex 0 s t)

/-! ## The header model -/

/-- R140: a field takes any value of its range, no other field changes (but that writing the checksum
marks it present), and every other operand is refused. -/
def Obligations.HmWriteChangesOneField : Prop :=
  ∀ (fld value : BitVec 32) (addr : List Byte) (s : State),
    (∀ m, hmLimit fld.toNat = some m → value.toNat ≤ m →
      ∃ t, exec (.hmWr fld value addr) s = .next t ∧ answered .ok 0 0 0 [] t ∧
        hmScalar t.hm fld.toNat = value ∧ (fld = 10 → t.hm.csumInline = true) ∧
        (∀ k, k ≠ fld.toNat → ¬(fld = 10 ∧ k = 11) →
          hmScalar t.hm k = hmScalar s.hm k ∧ hmOut t.hm k = hmOut s.hm k) ∧
        keepsBut [.hm] s t) ∧
    (fld = 5 ∨ fld = 6 → addr.length = 16 →
      ∃ t, exec (.hmWr fld value addr) s = .next t ∧ answered .ok 0 0 0 [] t ∧
        hmOut t.hm fld.toNat = addr ∧
        (∀ k, k ≠ fld.toNat →
          hmScalar t.hm k = hmScalar s.hm k ∧ hmOut t.hm k = hmOut s.hm k) ∧
        keepsBut [.hm] s t) ∧
    ((∃ m, hmLimit fld.toNat = some m ∧ m < value.toNat) ∨
        ((fld = 5 ∨ fld = 6) ∧ addr.length ≠ 16) ∨
        (hmLimit fld.toNat = none ∧ fld ≠ 5 ∧ fld ≠ 6) →
      ∃ t, exec (.hmWr fld value addr) s = .next t ∧ refuses .badOperand 0 s t)

/-- R141: every field, zero-extended, VERSION as 6. -/
def Obligations.HmReadAnswersTheField : Prop :=
  ∀ (fld : BitVec 32) (s : State),
    hmReads 0 6 [] s ∧ hmReads 1 (s.hm.tc.zeroExtend 32) [] s ∧
      hmReads 2 (s.hm.fl.zeroExtend 32) [] s ∧ hmReads 3 (s.hm.nh.zeroExtend 32) [] s ∧
      hmReads 4 (s.hm.hlim.zeroExtend 32) [] s ∧ hmReads 5 0 (addrBytes s.hm.src) s ∧
      hmReads 6 0 (addrBytes s.hm.dst) s ∧ hmReads 7 ((pkindCode s.hm.pkind).zeroExtend 32) [] s ∧
      hmReads 8 (s.hm.sport.zeroExtend 32) [] s ∧ hmReads 9 (s.hm.dport.zeroExtend 32) [] s ∧
      hmReads 10 (s.hm.csum.zeroExtend 32) [] s ∧
      hmReads 11 (if s.hm.csumInline then 1 else 0) [] s ∧
      (11 < fld.toNat → ∃ t, exec (.hmRd fld) s = .next t ∧ refuses .badOperand 0 s t)

/-- R142: the kind is set, NH is fixed by it, and nothing else of the model changes. -/
def Obligations.SetpayloadFixesNextHeader : Prop :=
  ∀ (kind : BitVec 32) (s : State),
    (∃ t, exec (.setpayload 1) s = .next t ∧ answered .ok 0 0 0 [] t ∧
      t.hm = { s.hm with pkind := .udp, nh := 17 } ∧ keepsBut [.hm] s t) ∧
    (∃ t, exec (.setpayload 2) s = .next t ∧ answered .ok 0 0 0 [] t ∧
      t.hm = { s.hm with pkind := .icmpv6, nh := 58 } ∧ keepsBut [.hm] s t) ∧
    (∃ t, exec (.setpayload 3) s = .next t ∧ answered .ok 0 0 0 [] t ∧
      t.hm = { s.hm with pkind := .hbh, nh := 0 } ∧ keepsBut [.hm] s t) ∧
    (∃ t, exec (.setpayload 4) s = .next t ∧ answered .ok 0 0 0 [] t ∧
      t.hm = { s.hm with pkind := .opaqueBytes } ∧ keepsBut [.hm] s t) ∧
    (kind.toNat < 1 ∨ 4 < kind.toNat →
      ∃ t, exec (.setpayload kind) s = .next t ∧ refuses .badOperand 0 s t)

/-! ## The encoder -/

/-- R150, R151, R168, R170, R172: the frame is the compressed header and then the payload; a wrong UDP
checksum is only an advisory; the two refusals. -/
def Obligations.EncodeWritesHeaderThenPayload : Prop :=
  ∀ s : State,
    (accepted s.hm → (encodedHeader s).length + s.pb.len ≤ 2096 →
      ∀ bad : Bool,
        bad = decide (s.hm.pkind = .udp ∧ udpChecksum s.hm (bufBytes s.pb) ≠ s.hm.csum) →
        ∃ t, exec .encode s = .next t ∧
          answered (if bad then .csumMismatch else .ok) 0
            (BitVec.ofNat 32 (encodedHeader s).length)
            (BitVec.ofNat 32 ((encodedHeader s).length + s.pb.len)) [] t ∧
          t.flags = (if bad then s.flags ||| 2 else s.flags) ∧
          t.ob.len = (encodedHeader s).length + s.pb.len ∧
          bufBytes t.ob = encodedHeader s ++ bufBytes s.pb ∧
          t.sum = (if s.hm.pkind = .udp then udpSumOf s.hm (bufBytes s.pb) else s.sum) ∧
          keepsBut [.ob, .sum, .flags] s t) ∧
    (¬ accepted s.hm → ∃ t, exec .encode s = .next t ∧ refuses .badModel 0 s t) ∧
    (accepted s.hm → 2096 < (encodedHeader s).length + s.pb.len →
      ∃ t, exec .encode s = .next t ∧ refuses .outputOverflow 0 s t)

/-- R152 to R165, R73: the encoded header byte by byte. Every bit of the IPHC word is the one the
rules choose: TF, NH, HLIM, CID and M from the model and the table, SAC and SAM from the source (the
unspecified address, else context, link-local, full, and within them the IID from the link address,
in 16 bits, in 64 bits), DAC and DAM likewise, for a multicast destination 8 bits, 32, 48, full. No
reserved form is produced. The CID byte has the matched index of each side, 0 for a side that did not
match; then come the inline bytes and, for UDP, the NHC header, with nibbles for the ports exactly
when both are in range. The header has the length its own bits announce, at most 48 bytes. -/
def Obligations.EncodedHeaderSaysWhatItCarries : Prop :=
  ∀ (s : State) (h src dst : List Byte) (b0 b1 : Byte) (sc dc : Option Nat), h = encodedHeader s →
    b0 = byteOf h 0 → b1 = byteOf h 1 → src = addrBytes s.hm.src → dst = addrBytes s.hm.dst →
    firstMatch s src sc → firstMatch s dst dc →
    b0 &&& 0xE0 = 0x60 ∧
      b0.getLsbD 4 = decide (s.hm.tc = 0) ∧ b0.getLsbD 3 = decide (s.hm.fl = 0) ∧
      b0.getLsbD 2 = decide (s.hm.pkind = .udp) ∧
      b0 &&& 0x03 = (if s.hm.hlim = 1 then 1 else if s.hm.hlim = 64 then 2
        else if s.hm.hlim = 255 then 3 else 0) ∧
      b1.getLsbD 7 = (sc.isSome || dc.isSome) ∧
      b1 &&& 0x70 =
        (if src = List.replicate 16 0 then 0x40 else unicastForm sc src s.linkSrc <<< (4 : Nat)) ∧
      b1 &&& 0x0F = (if byteOf dst 0 = 0xFF then 0x08 ||| multicastForm dst
        else unicastForm dc dst s.linkDst) ∧
      b1.getLsbD 3 = decide (byteOf dst 0 = 0xFF) ∧
      (b1.getLsbD 3 = true → b1.getLsbD 2 = false) ∧
      (b1.getLsbD 2 = true → b1 &&& 0x03 ≠ 0) ∧
      h.length = iphcLen b0 b1 + (if s.hm.pkind = .udp then
        nhcLen (byteOf h (iphcLen b0 b1)) else 0) ∧
      h.length ≤ 48 ∧
      h = b0 :: b1 ::
        ((if b1.getLsbD 7 then [BitVec.ofNat 8 (sc.getD 0 * 16 + dc.getD 0)] else []) ++
          trafficInline s.hm.tc s.hm.fl ++
          (if b0.getLsbD 2 then [] else [s.hm.nh]) ++
          (if b0 &&& 0x03 = 0 then [s.hm.hlim] else []) ++
          src.drop (16 - addrLen (b1.getLsbD 6) (b1.extractLsb' 4 2)) ++
          (if b1.getLsbD 3 then multicastInline (b1.extractLsb' 0 2) dst
            else dst.drop (16 - addrLen (b1.getLsbD 2) (b1.extractLsb' 0 2))) ++
          (if b0.getLsbD 2 then udpHeaderBytes s.hm else []))

/-- R213: what ENCODE sends, DECODE restores, with the same table and link addresses: the model (but
for the payload kind of a payload that is not UDP), the payload behind the cursor, status OK. -/
def Obligations.DecodeRestoresWhatEncodeSent : Prop :=
  ∀ s : State, accepted s.hm → (encodedHeader s).length + s.pb.len ≤ 2048 →
    ∃ t u v, exec .encode s = .next t ∧ exec (.setbytes (bufBytes t.ob)) t = .next u ∧
      exec .decode u = .next v ∧
      answered .ok 0 (if s.hm.pkind = .udp then 48 else 40)
        (BitVec.ofNat 32 (encodedHeader s).length) [] v ∧
      v.hm.tc = s.hm.tc ∧ v.hm.fl = s.hm.fl ∧ v.hm.nh = s.hm.nh ∧ v.hm.hlim = s.hm.hlim ∧
      v.hm.src = s.hm.src ∧ v.hm.dst = s.hm.dst ∧
      (s.hm.pkind = .udp → v.hm.pkind = .udp ∧ v.hm.sport = s.hm.sport ∧
        v.hm.dport = s.hm.dport ∧ v.hm.csum = s.hm.csum ∧ v.hm.csumInline = true) ∧
      (s.hm.pkind ≠ .udp → v.hm.pkind = .none) ∧
      v.cur.toNat = (encodedHeader s).length ∧
      bufRange v.fb v.cur.toNat (v.fb.len - v.cur.toNat) = bufBytes s.pb ∧
      v.fb.len = (encodedHeader s).length + s.pb.len

/-- R257, R170: after UDP_CSUM the encoder finds the checksum right. -/
def Obligations.EncodeAfterUdpCsumIsOk : Prop :=
  ∀ s : State, s.hm.pkind = .udp → s.hm.nh = 17 → s.pb.len ≤ 2048 →
    ∃ t u, exec .udpCsum s = .next t ∧ exec .encode t = .next u ∧
      u.status = statusCode .ok ∧ u.flags = s.flags ∧ u.sum = t.sum

/-! ## The decoder -/

/-- R180: the class of the byte at the cursor. -/
def Obligations.ClassifyNamesTheDispatchByte : Prop :=
  ∀ (s : State) (d : Byte), d = byteAt s s.cur.toNat →
    ∃ t, exec .classify s = .next t ∧
      answered (truncStatus (decide (s.fb.len ≤ s.cur.toNat))) 0
        (if d = 0x41 then 1 else if d &&& 0xE0 = 0x60 then 2 else if d &&& 0xF8 = 0xC0 then 3
          else if d &&& 0xF8 = 0xE0 then 4 else 0) 0 [] t ∧
      t.flags = truncFlags (decide (s.fb.len ≤ s.cur.toNat)) s ∧ keepsBut [.flags] s t

/-- R181, R182, R73, R207, R210, R211, R212: DECODE refuses exactly as the bits of the header, the
table and the link addresses say, and otherwise consumes exactly the header. -/
def Obligations.DecodeCommitsOrRefuses : Prop :=
  ∀ s : State,
    (∀ st pos, headerRefusal s 0 = some (st, pos) →
      ∃ t, exec .decode s = .next t ∧ refuses st pos s t) ∧
    (headerRefusal s 0 = none → 0xFFFF < s.cur.toNat + headerLen s 0 →
      ∃ t, exec .decode s = .next t ∧ refuses .badOperand 0 s t) ∧
    (headerRefusal s 0 = none → s.cur.toNat + headerLen s 0 ≤ 0xFFFF →
      ∀ trunc : Bool, trunc = decide (s.fb.len < s.cur.toNat + bytesRead s 0) →
      ∃ t, exec .decode s = .next t ∧
        answered (if trunc then .truncated else if nhcMissing s 0 then .nhcUnsupported else .ok) 0
          (if hasShell s 0 then 48 else 40) (BitVec.ofNat 32 (headerLen s 0)) [] t ∧
        t.flags = truncFlags trunc s ||| (if nhcMissing s 0 then 4 else 0) ∧
        t.cur.toNat = s.cur.toNat + headerLen s 0 ∧
        t.hm.pkind = (if hasShell s 0 then .udp else .none) ∧
        (hasShell s 0 = false →
          t.hm.sport = 0 ∧ t.hm.dport = 0 ∧ t.hm.csum = 0 ∧ t.hm.csumInline = false) ∧
        keepsBut [.hm, .cur, .flags] s t)

/-- R191, R192, R194: the fields with fixed places before the addresses. -/
def Obligations.DecodeRestoresTheFixedFields : Prop :=
  ∀ (s : State) (b0 : Byte) (p q r : Nat), headerRefusal s 0 = none →
    s.cur.toNat + headerLen s 0 ≤ 0xFFFF → b0 = rdByte s 0 →
    p = (if (rdByte s 1).getLsbD 7 then 3 else 2) → q = p + tfLen b0 →
    r = q + (if b0.getLsbD 2 then 0 else 1) →
    ∃ t, exec .decode s = .next t ∧
      t.hm.nh = (if b0.getLsbD 2 then 17 else rdByte s q) ∧
      t.hm.hlim = (if b0 &&& 0x03 = 0 then rdByte s r else if b0 &&& 0x03 = 1 then 1
        else if b0 &&& 0x03 = 2 then 64 else 255) ∧
      t.hm.tc = (if b0.getLsbD 4 then (if b0.getLsbD 3 then (0 : BitVec 8)
          else rdByte s p >>> (6 : Nat)) else modelTc (rdByte s p)) ∧
      t.hm.fl.toNat = (if b0.getLsbD 3 then 0
        else if b0.getLsbD 4 then beNat (rdb s p 3) % 2 ^ 20
        else beNat (rdb s (p + 1) 3) % 2 ^ 20)

/-- R61, R181, R30: one CLASSIFY or DECODE is the run of its wire-format rows, from the dispatch byte
to the row that ends it (the rows as steps are the model's: log 4). -/
def Obligations.DecodeIsItsWireSteps : Prop :=
  ∀ s : State,
    step (startWalk .classify 0 s) = exec .classify s ∧
      ∃ n, n ≤ 9 ∧ Host.Core.run Sys2Proof.core n (startWalk .decode 0 s) = exec .decode s

/-- R220, R226: one REASM, after its sweep, is the run of its wire-format rows (log 4). -/
def Obligations.ReasmIsItsWireSteps : Prop :=
  ∀ (now : BitVec 32) (s : State),
    ∃ n, n ≤ 11 ∧
      Host.Core.run Sys2Proof.core n (startWalk .reasm now (sweepState now s)) =
        exec (.reasm now) s

/-! ## The wire-format rows -/

/-- R60, R95, R96, R180, R190, R238: the five dispatch rows, for each command that reads one. -/
def Obligations.DispatchRowsByReader : Prop :=
  ∀ (s : State) (tc fl nh : Bool) (hlim : BitVec 2) (size : BitVec 3) (b : Byte) (i : Instr)
    (code : Nat),
    (i, code) ∈ [(Instr.uncompIpv6, 1), (Instr.iphc tc fl nh hlim, 2), (Instr.frag1 size, 3),
      (Instr.fragn size, 4), (Instr.other b, 0)] →
    (s.walk.reader = .classify →
      ∃ t, exec i s = .next t ∧
        answered (truncStatus s.walk.trunc) 0 (BitVec.ofNat 32 code) 0 [] t ∧
        t.flags = truncFlags s.walk.trunc s ∧ keepsBut [.flags] s t) ∧
    (s.walk.reader = .decode ∨ (s.walk.reader = .reasm ∧ s.walk.base ≠ 0) →
      (code = 2 → exec i s = .next (wireTo .word 0 s.walk.cand s)) ∧
      (code ≠ 2 → ∃ t, exec i s = .next t ∧ refuses .notIphc s.walk.pos s t)) ∧
    (s.walk.reader = .reasm → s.walk.base = 0 →
      (code = 3 → exec i s = .next (wireTo .frag1Hdr 0 s.walk.cand s)) ∧
      (code = 4 → exec i s = .next (wireTo .fragnHdr 0 s.walk.cand s)) ∧
      (code ≠ 3 → code ≠ 4 →
        ∃ t, exec i s = .next t ∧ answered .pass 0 0 0 [] t ∧ keepsBut [] s t))

/-- R62, R67: the IPHC word puts every field at its bits, the CID byte splits into two indices. -/
def Obligations.IphcWordAndCidRows : Prop :=
  ∀ (s : State) (tc fl nh cid sac m dac : Bool) (hlim sam dam : BitVec 2) (sci dci : BitVec 4),
    (∃ t, exec (.iphcWord tc fl nh hlim cid sac sam m dac dam) s = .next t ∧ sameButWalk s t ∧
      t.walk.slot = some (if cid then .cid else .tf) ∧ t.walk.pos = s.walk.pos + 2 ∧
      t.walk.w.extractLsb' 13 3 = 0b011 ∧ t.walk.w.getLsbD 12 = tc ∧ t.walk.w.getLsbD 11 = fl ∧
      t.walk.w.getLsbD 10 = nh ∧ t.walk.w.extractLsb' 8 2 = hlim ∧ t.walk.w.getLsbD 7 = cid ∧
      t.walk.w.getLsbD 6 = sac ∧ t.walk.w.extractLsb' 4 2 = sam ∧ t.walk.w.getLsbD 3 = m ∧
      t.walk.w.getLsbD 2 = dac ∧ t.walk.w.extractLsb' 0 2 = dam ∧
      t.walk.sci = 0 ∧ t.walk.dci = 0 ∧ t.walk.cand = s.walk.cand ∧
      t.walk.base = s.walk.base ∧ t.walk.trunc = s.walk.trunc) ∧
    (∃ t, exec (.cidByte sci dci) s = .next t ∧ sameButWalk s t ∧
      t.walk = { s.walk with slot := some .tf, pos := s.walk.pos + 1, sci := sci, dci := dci })

/-- R63, R64, R191: the four forms of traffic class and flow label, on the bytes of the wire. -/
def Obligations.TrafficClassRows : Prop :=
  ∀ (s : State) (ecn pad : BitVec 2) (dscp : BitVec 6) (nib : BitVec 4) (fl : BitVec 20),
    exec .tfElided s = .next (wireTo .nh 0 { s.walk.cand with tc := 0, fl := 0 } s) ∧
      exec (.tfTcOnly ecn dscp) s =
        .next (wireTo .nh 1 { s.walk.cand with tc := modelTc (ecn ++ dscp), fl := 0 } s) ∧
      exec (.tfFlOnly ecn pad fl) s =
        .next (wireTo .nh 3 { s.walk.cand with tc := ecn.zeroExtend 8, fl := fl } s) ∧
      exec (.tfFull ecn dscp nib fl) s =
        .next (wireTo .nh 4 { s.walk.cand with tc := modelTc (ecn ++ dscp), fl := fl } s)

/-- R65, R66, R192, R194: the next-header and hop-limit rows. -/
def Obligations.NextHeaderAndHopLimitRows : Prop :=
  ∀ (s : State) (b : Byte),
    exec (.nhInline b) s = .next (wireTo .hlim 1 { s.walk.cand with nh := b } s) ∧
      exec .nhUdpNhc s = .next (wireTo .hlim 0 { s.walk.cand with nh := 17 } s) ∧
      exec (.hlimInline b) s = .next (wireTo .src 1 { s.walk.cand with hlim := b } s) ∧
      exec .hlim1 s = .next (wireTo .src 0 { s.walk.cand with hlim := 1 } s) ∧
      exec .hlim64 s = .next (wireTo .src 0 { s.walk.cand with hlim := 64 } s) ∧
      exec .hlim255 s = .next (wireTo .src 0 { s.walk.cand with hlim := 255 } s)

/-- R68, R69, R193, R195, R196: the eight source rows and their two refusals. -/
def Obligations.SourceAddressRows : Prop :=
  ∀ (s : State) (a : Addr) (iid : Oct) (x y : Byte) (ll m : Oct) (c : CtxSlot),
    ll = ⟨0xFE, 0x80, 0, 0, 0, 0, 0, 0⟩ → c = ctxSlot s.ctx s.walk.sci.toNat →
    m = { s.linkSrc.addr with b0 := s.linkSrc.addr.b0 ^^^ 0x02 } →
    exec (.srcFull a) s = .next (wireTo .dst 16 { s.walk.cand with src := a } s) ∧
      exec (.srcLl64 iid) s = .next (wireTo .dst 8 { s.walk.cand with src := ⟨ll, iid⟩ } s) ∧
      exec (.srcLl16 x y) s =
        .next (wireTo .dst 2 { s.walk.cand with src := ⟨ll, ⟨0, 0, 0, 0, 0, 0, x, y⟩⟩ } s) ∧
      exec .srcUnspec s = .next (wireTo .dst 0 { s.walk.cand with src := Addr.zero } s) ∧
      (s.linkSrc.valid = true →
        exec .srcLlMac s = .next (wireTo .dst 0 { s.walk.cand with src := ⟨ll, m⟩ } s)) ∧
      (s.linkSrc.valid = false →
        ∃ t, exec .srcLlMac s = .next t ∧ refuses .missingLinkAddr (s.walk.base + 1) s t) ∧
      (c.valid = true →
        exec (.srcCtx64 iid) s =
            .next (wireTo .dst 8 { s.walk.cand with src := ⟨c.pfx, iid⟩ } s) ∧
          exec (.srcCtx16 x y) s = .next (wireTo .dst 2
            { s.walk.cand with src := ⟨c.pfx, ⟨0, 0, 0, 0, 0, 0, x, y⟩⟩ } s) ∧
          (s.linkSrc.valid = true →
            exec .srcCtxMac s = .next (wireTo .dst 0 { s.walk.cand with src := ⟨c.pfx, m⟩ } s)) ∧
          (s.linkSrc.valid = false →
            ∃ t, exec .srcCtxMac s = .next t ∧
              refuses .missingLinkAddr (s.walk.base + 1) s t)) ∧
      (c.valid = false →
        ∀ i ∈ [Instr.srcCtx64 iid, Instr.srcCtx16 x y, Instr.srcCtxMac],
          ∃ t, exec i s = .next t ∧ refuses .missingContext (s.walk.base + 1) s t)

/-- R70, R95, R197, R198: the thirteen destination rows and their three refusals. -/
def Obligations.DestinationAddressRows : Prop :=
  ∀ (s : State) (a : Addr) (iid : Oct) (x0 x1 x2 x3 x4 x5 : Byte) (dam : BitVec 2) (ll m : Oct)
    (c : CtxSlot),
    ll = ⟨0xFE, 0x80, 0, 0, 0, 0, 0, 0⟩ → c = ctxSlot s.ctx s.walk.dci.toNat →
    m = { s.linkDst.addr with b0 := s.linkDst.addr.b0 ^^^ 0x02 } →
    dstTaken a 16 s (exec (.dstFull a) s) ∧
      dstTaken ⟨ll, iid⟩ 8 s (exec (.dstLl64 iid) s) ∧
      dstTaken ⟨ll, ⟨0, 0, 0, 0, 0, 0, x0, x1⟩⟩ 2 s (exec (.dstLl16 x0 x1) s) ∧
      (s.linkDst.valid = true → dstTaken ⟨ll, m⟩ 0 s (exec .dstLlMac s)) ∧
      (s.linkDst.valid = false →
        ∃ t, exec .dstLlMac s = .next t ∧ refuses .missingLinkAddr (s.walk.base + 1) s t) ∧
      (c.valid = true →
        dstTaken ⟨c.pfx, iid⟩ 8 s (exec (.dstCtx64 iid) s) ∧
          dstTaken ⟨c.pfx, ⟨0, 0, 0, 0, 0, 0, x0, x1⟩⟩ 2 s (exec (.dstCtx16 x0 x1) s) ∧
          (s.linkDst.valid = true → dstTaken ⟨c.pfx, m⟩ 0 s (exec .dstCtxMac s)) ∧
          (s.linkDst.valid = false →
            ∃ t, exec .dstCtxMac s = .next t ∧
              refuses .missingLinkAddr (s.walk.base + 1) s t)) ∧
      (c.valid = false →
        ∀ i ∈ [Instr.dstCtx64 iid, Instr.dstCtx16 x0 x1, Instr.dstCtxMac],
          ∃ t, exec i s = .next t ∧ refuses .missingContext (s.walk.base + 1) s t) ∧
      dstTaken a 16 s (exec (.dstMcFull a) s) ∧
      dstTaken ⟨⟨0xFF, x0, 0, 0, 0, 0, 0, 0⟩, ⟨0, 0, 0, x1, x2, x3, x4, x5⟩⟩ 6 s
        (exec (.dstMc48 x0 x1 x2 x3 x4 x5) s) ∧
      dstTaken ⟨⟨0xFF, x0, 0, 0, 0, 0, 0, 0⟩, ⟨0, 0, 0, 0, 0, x1, x2, x3⟩⟩ 4 s
        (exec (.dstMc32 x0 x1 x2 x3) s) ∧
      dstTaken ⟨⟨0xFF, 0x02, 0, 0, 0, 0, 0, 0⟩, ⟨0, 0, 0, 0, 0, 0, 0, x0⟩⟩ 1 s
        (exec (.dstMc8 x0) s) ∧
      ∀ i ∈ [Instr.dstReservedDac1Dam00, Instr.dstReservedM1Dac1 dam],
        ∃ t, exec i s = .next t ∧ refuses .reservedEncoding (s.walk.base + 1) s t

/-- R81, R82, R95, R200, R207, R210: the five NHC rows: two give a UDP shell and UHS 48, three give
none, consume nothing and note NHC_UNSUPPORTED. -/
def Obligations.NhcRows : Prop :=
  ∀ (s : State) (sport dport k : BitVec 16) (sn dn : BitVec 4) (c : Bool) (b : Byte),
    headerEnds { s.walk.cand with
        pkind := .udp, sport := sport, dport := dport, csum := k, csumInline := true }
      48 (s.walk.pos + 7 - s.walk.base) false s
      (exec (.udpNhcFullPorts sport dport (some k)) s) ∧
    headerEnds { s.walk.cand with
        pkind := .udp, sport := sport, dport := dport, csum := 0, csumInline := false }
      48 (s.walk.pos + 5 - s.walk.base) false s
      (exec (.udpNhcFullPorts sport dport none) s) ∧
    headerEnds { s.walk.cand with
        pkind := .udp, sport := 0xF0B0 + sn.zeroExtend 16, dport := 0xF0B0 + dn.zeroExtend 16
        csum := k, csumInline := true }
      48 (s.walk.pos + 4 - s.walk.base) false s
      (exec (.udpNhcNibblePorts sn dn (some k)) s) ∧
    headerEnds { s.walk.cand with
        pkind := .udp, sport := 0xF0B0 + sn.zeroExtend 16, dport := 0xF0B0 + dn.zeroExtend 16
        csum := 0, csumInline := false }
      48 (s.walk.pos + 2 - s.walk.base) false s
      (exec (.udpNhcNibblePorts sn dn none) s) ∧
    ∀ i ∈ [Instr.udpNhcP01 c, Instr.udpNhcP10 c, Instr.nhcOther b],
      headerEnds { s.walk.cand with
          pkind := .none, sport := 0, dport := 0, csum := 0, csumInline := false }
        40 (s.walk.pos - s.walk.base) true s (exec i s)

/-- R90, R91, R92, R224, R225: the two fragment-header rows: their refusals, the probe that follows
the first, the store that the second is. -/
def Obligations.FragmentHeaderRows : Prop :=
  ∀ (s : State) (size : BitVec 11) (tag : BitVec 16) (off : BitVec 8),
    (s.linkSrc.valid = true → 4 ≤ payloadLen s →
      ∃ t, exec (.frag1Hdr size tag) s = .next t ∧ sameButWalk s t ∧
        t.walk = { s.walk with
          slot := some .dispatch, base := s.walk.pos + 4, pos := s.walk.pos + 4
          size := size, tag := tag }) ∧
    (∀ (j n : Nat) (f : FragSlot) (x : Piece), s.linkSrc.valid = true → 5 ≤ payloadLen s →
      target s s.walk.now size tag = some (j, f, n) →
      x = ⟨false, off.toNat * 8, restOfFrame s 5, 0⟩ → fits x f →
      ∃ t, exec (.fragnHdr size tag off) s = .next t ∧ continued x j f s t) ∧
    (payloadLen s < 4 →
      ∃ t, exec (.frag1Hdr size tag) s = .next t ∧ refuses .fragHeaderUndecodable 0 s t) ∧
    (payloadLen s < 5 →
      ∃ t, exec (.fragnHdr size tag off) s = .next t ∧ refuses .fragHeaderUndecodable 0 s t) ∧
    (s.linkSrc.valid = false →
      (4 ≤ payloadLen s →
        ∃ t, exec (.frag1Hdr size tag) s = .next t ∧ refuses .missingLinkAddr 0 s t) ∧
      (5 ≤ payloadLen s →
        ∃ t, exec (.fragnHdr size tag off) s = .next t ∧ refuses .missingLinkAddr 0 s t))

/-! ## Reassembly -/

/-- R238: a frame that is no fragment passes untouched, the sweep excepted. -/
def Obligations.ReasmPassesOtherFrames : Prop :=
  ∀ (now : BitVec 32) (s w : State), w = sweepState now s →
    s.fb.len ≤ s.cur.toNat ∨
      (byteAt s s.cur.toNat &&& 0xF8 ≠ 0xC0 ∧ byteAt s s.cur.toNat &&& 0xF8 ≠ 0xE0) →
    ∃ t, exec (.reasm now) s = .next t ∧ answered .pass 0 0 0 [] t ∧ keepsBut [] w t

/-- R226, R227, R234, R237: a first fragment is stored at offset 0 with its adjustment and never
completes the datagram. -/
def Obligations.FirstFragmentIsStored : Prop :=
  ∀ (now : BitVec 32) (s w : State) (d : Decoded) (j n : Nat) (c : FragSlot) (x : Piece),
    w = sweepState now s → rdByte w 0 &&& 0xF8 = 0xC0 → 4 ≤ payloadLen w →
    w.linkSrc.valid = true → decodeAt w 4 = .ok d → d.trunc = false → d.chs ≤ d.uhs →
    target w now ((rd16 w 0).extractLsb' 0 11) (rd16 w 2) = some (j, c, n) →
    x = ⟨true, 0, restOfFrame w 4, d.uhs - d.chs⟩ → fits x c →
    ∃ t, exec (.reasm now) s = .next t ∧ answered .incomplete 0 (BitVec.ofNat 32 j) 0 [] t ∧
      storedAt x j c w t ∧ (slotAt t j).valid = true ∧ keepsBut [.frag, .draws] w t

/-- R235, R236: a continuation is stored at its offset less the adjustment, and completes the datagram
when the count reaches its size. -/
def Obligations.ContinuationIsStoredOrCompletes : Prop :=
  ∀ (now : BitVec 32) (s w : State) (j n : Nat) (c : FragSlot) (x : Piece),
    w = sweepState now s → rdByte w 0 &&& 0xF8 = 0xE0 → 5 ≤ payloadLen w →
    w.linkSrc.valid = true →
    target w now ((rd16 w 0).extractLsb' 0 11) (rd16 w 2) = some (j, c, n) →
    x = ⟨false, (rdByte w 4).toNat * 8, restOfFrame w 5, 0⟩ → fits x c →
    ∃ t, exec (.reasm now) s = .next t ∧ continued x j c w t

/-- R233: a recorded pair is a no-op, for a continuation and for a first fragment. -/
def Obligations.RecordedRangeIsDuplicate : Prop :=
  ∀ (now : BitVec 32) (s w : State) (j n : Nat) (c : FragSlot) (off hdr : Nat),
    w = sweepState now s → w.linkSrc.valid = true →
    target w now ((rd16 w 0).extractLsb' 0 11) (rd16 w 2) = some (j, c, n) →
    (rdByte w 0 &&& 0xF8 = 0xE0 ∧ hdr = 5 ∧ off = (rdByte w 4).toNat * 8 ∧ 5 ≤ payloadLen w) ∨
      (rdByte w 0 &&& 0xF8 = 0xC0 ∧ hdr = 4 ∧ off = 0 ∧ 4 ≤ payloadLen w ∧
        ∃ d, decodeAt w 4 = .ok d ∧ d.trunc = false ∧ d.chs ≤ d.uhs) →
    (⟨BitVec.ofNat 16 off, BitVec.ofNat 16 (w.fb.len - (w.cur.toNat + hdr))⟩ : Sys2Proof.Machine.Range) ∈ c.ranges →
    ∃ t, exec (.reasm now) s = .next t ∧ answered .duplicate 0 (BitVec.ofNat 32 j) 0 [] t ∧
      keepsBut [] w t

/-- R224 to R228, R231, R232, R239: the refusals before a context is looked for, in their order. -/
def Obligations.FragmentHeaderRefusals : Prop :=
  ∀ (now : BitVec 32) (s w : State), w = sweepState now s → 1 ≤ payloadLen w →
    (rdByte w 0 &&& 0xF8 = 0xC0 ∧ payloadLen w < 4 ∨
        rdByte w 0 &&& 0xF8 = 0xE0 ∧ payloadLen w < 5 →
      ∃ t, exec (.reasm now) s = .next t ∧ refuses .fragHeaderUndecodable 0 w t) ∧
    (w.linkSrc.valid = false →
      rdByte w 0 &&& 0xF8 = 0xC0 ∧ 4 ≤ payloadLen w ∨
        rdByte w 0 &&& 0xF8 = 0xE0 ∧ 5 ≤ payloadLen w →
      ∃ t, exec (.reasm now) s = .next t ∧ refuses .missingLinkAddr 0 w t) ∧
    (w.linkSrc.valid = true → rdByte w 0 &&& 0xF8 = 0xC0 → 4 ≤ payloadLen w →
      (∀ st pos, headerRefusal w 4 = some (st, pos) →
        ∃ t, exec (.reasm now) s = .next t ∧ refuses st pos w t) ∧
      (headerRefusal w 4 = none → w.fb.len < w.cur.toNat + 4 + bytesRead w 4 →
        ∃ t, exec (.reasm now) s = .next t ∧ refuses .fragHeaderUndecodable 4 w t) ∧
      (headerRefusal w 4 = none → w.cur.toNat + 4 + bytesRead w 4 ≤ w.fb.len →
        (if hasShell w 4 then 48 else 40) < headerLen w 4 →
        ∃ t, exec (.reasm now) s = .next t ∧ refuses .fragInconsistent 4 w t))

/-- R223, R228, R230, R231, R232, R239: the refusals of a well-formed fragment by the table and by its
context, in their order. -/
def Obligations.FragmentStoreRefusals : Prop :=
  ∀ (now : BitVec 32) (s w : State) (size : BitVec 11) (tag : BitVec 16) (x : Piece),
    w = sweepState now s → w.linkSrc.valid = true → size = (rd16 w 0).extractLsb' 0 11 →
    tag = rd16 w 2 →
    (rdByte w 0 &&& 0xF8 = 0xE0 ∧ 5 ≤ payloadLen w ∧
        x = ⟨false, (rdByte w 4).toNat * 8, restOfFrame w 5, 0⟩) ∨
      (rdByte w 0 &&& 0xF8 = 0xC0 ∧ 4 ≤ payloadLen w ∧
        ∃ d, decodeAt w 4 = .ok d ∧ d.trunc = false ∧ d.chs ≤ d.uhs ∧
          x = ⟨true, 0, restOfFrame w 4, d.uhs - d.chs⟩) →
    (findSlot w w.linkSrc.addr tag = none → freeSlot w = none →
      ∃ t, exec (.reasm now) s = .next t ∧ refuses .fragTableFull 0 w t) ∧
    (∀ j, findSlot w w.linkSrc.addr tag = some j → (slotAt w j).total ≠ size →
      ∃ t, exec (.reasm now) s = .next t ∧ refuses .fragInconsistent 0 w t) ∧
    (∀ j c n, target w now size tag = some (j, c, n) → x.range ∉ c.ranges →
      (x.place c < 0 ∨ (c.total.toNat : Int) < x.place c + (x.payload.length : Int) →
        ∃ t, exec (.reasm now) s = .next t ∧ refuses .fragOverflow 0 w t) ∧
      (0 ≤ x.place c → x.place c + (x.payload.length : Int) ≤ (c.total.toNat : Int) →
        (c.total.toNat < c.recvd.toNat + x.added →
          ∃ t, exec (.reasm now) s = .next t ∧ refuses .fragInconsistent 0 w t) ∧
        (c.recvd.toNat + x.added ≤ c.total.toNat → c.ranges.length = 256 →
          ∃ t, exec (.reasm now) s = .next t ∧ refuses .fragRangeFull 0 w t)))

/-- R240, R241: SWEEP evicts exactly the contexts older than MAX_AGE_MS, counts them, and sets
F_EVICT if there was one. -/
def Obligations.SweepEvictsTheOld : Prop :=
  ∀ (now : BitVec 32) (s : State) (old : List Nat),
    old = (List.range 4).filter (fun j =>
      (slotAt s j).valid && decide (2000 < (now - (slotAt s j).created).toNat)) →
    ∃ t, exec (.sweep now) s = .next t ∧ answered .ok 0 (BitVec.ofNat 32 old.length) 0 [] t ∧
      t.evictCount = s.evictCount + BitVec.ofNat 32 old.length ∧
      t.flags = (if old = [] then s.flags else s.flags ||| 8) ∧
      (∀ j, j ∈ old → slotAt t j = { slotAt s j with valid := false }) ∧
      (∀ j, j ∉ old → slotAt t j = slotAt s j) ∧
      keepsBut [.frag, .flags, .evictCount] s t

/-- R243: the packed scalar fields of a slot. -/
def Obligations.FragStatPacksTheSlot : Prop :=
  ∀ (j : BitVec 32) (s : State),
    (j.toNat ≤ 3 → (slotAt s j.toNat).valid = true →
      ∃ t out, exec (.fragStat j) s = .next t ∧ answered .ok 0 t.res0 t.res1 out t ∧
        t.res0.toNat = 1 + (slotAt s j.toNat).adj.toNat * 2 ^ 8 +
          (slotAt s j.toNat).tag.toNat * 2 ^ 16 ∧
        t.res1.toNat = (slotAt s j.toNat).total.toNat + (slotAt s j.toNat).recvd.toNat * 2 ^ 16 ∧
        out.length = 14 ∧ out.take 8 = octBytes (slotAt s j.toNat).key ∧
        beNat ((out.drop 8).take 4) = (slotAt s j.toNat).created.toNat ∧
        beNat (out.drop 12) = (slotAt s j.toNat).ranges.length % 65536 ∧ keepsBut [] s t) ∧
    (j.toNat ≤ 3 → (slotAt s j.toNat).valid = false →
      ∃ t, exec (.fragStat j) s = .next t ∧ answered .ok 0 0 0 (List.replicate 14 0) t ∧
        keepsBut [] s t) ∧
    (3 < j.toNat → ∃ t, exec (.fragStat j) s = .next t ∧ refuses .badIndex 0 s t)

/-- R234 to R237, R245: a compressed frame cut in two at any place behind its header, sent as a first
fragment and a continuation, is delivered as it was. -/
def Obligations.TwoFragmentsReassemble : Prop :=
  ∀ (s : State) (f f1 f2 : List Byte) (k size j : Nat) (tag : BitVec 16) (off : BitVec 8)
    (d : Decoded) (now1 now2 : BitVec 32),
    s.linkSrc.valid = true → k ≤ f.length → size = f.length + (d.uhs - d.chs) → size ≤ 2047 →
    f1 = be16Bytes (0xC000 + BitVec.ofNat 16 size) ++ be16Bytes tag ++ f.take k →
    f2 = be16Bytes (0xE000 + BitVec.ofNat 16 size) ++ be16Bytes tag ++ [off] ++ f.drop k →
    decodeAt { s with fb := bufOf f1, cur := 0 } 4 = .ok d → d.trunc = false → d.chs ≤ d.uhs →
    off.toNat * 8 = k + (d.uhs - d.chs) →
    findSlot (sweepState now1 s) s.linkSrc.addr tag = none →
    freeSlot (sweepState now1 s) = some j → (now2 - now1).toNat ≤ 2000 →
    ∃ t1 t2 t3 t4, exec (.setbytes f1) s = .next t1 ∧ exec (.reasm now1) t1 = .next t2 ∧
      t2.status = statusCode .incomplete ∧ exec (.setbytes f2) t2 = .next t3 ∧
      exec (.reasm now2) t3 = .next t4 ∧ answered .complete 0 (BitVec.ofNat 32 j) 0 [] t4 ∧
      t4.fb.len = f.length ∧ bufBytes t4.fb = f ∧ t4.cur = 0 ∧ (slotAt t4 j).valid = false

/-! ## Checksums -/

/-- R250: ones'-complement addition. -/
def Obligations.OnesComplementAddition : Prop :=
  ∀ a b c : BitVec 16,
    (ocAdd a b).toNat =
        (if 0xFFFF < a.toNat + b.toNat then a.toNat + b.toNat - 0xFFFF else a.toNat + b.toNat) ∧
      ocAdd a b = ocAdd b a ∧ ocAdd (ocAdd a b) c = ocAdd a (ocAdd b c) ∧ ocAdd a 0 = a ∧
      (ocAdd a b = 0 ↔ a = 0 ∧ b = 0)

/-- R250, R251: a folded sum is the plain sum of the words modulo 0xFFFF, and is 0 only when every
byte and the start are 0. -/
def Obligations.FoldIsTheModularSum : Prop :=
  ∀ (v : BitVec 16) (l : List Byte),
    (foldSum v l).toNat % 65535 = (v.toNat + wordSum l) % 65535 ∧
      (foldSum v l = 0 ↔ v = 0 ∧ ∀ b ∈ l, b = 0)

/-- R251, R254, R328: CSUM_FOLD over a range in two pieces, the first of even length, gives what one
CSUM_FOLD over the whole range gives. -/
def Obligations.CsumFoldInPieces : Prop :=
  ∀ (s : State) (off n1 n2 : BitVec 32), n1.toNat % 2 = 0 →
    off.toNat + n1.toNat + n2.toNat ≤ s.pb.len → s.pb.len ≤ 2048 →
    ∃ t u v, exec (.csumFold off n1) s = .next t ∧ exec (.csumFold (off + n1) n2) t = .next u ∧
      exec (.csumFold off (n1 + n2)) s = .next v ∧ u.sum = v.sum ∧ u.res0 = v.res0 ∧
      u.status = statusCode .ok ∧ v.status = statusCode .ok

/-- R252 to R255: CSUM_PSEUDO folds the 40 bytes of the pseudo-header from 0, CSUM_FOLD a range of PB
into SUM, CSUM_FINAL answers the complement. -/
def Obligations.ChecksumPrimitives : Prop :=
  ∀ (a b : BitVec 32) (bytes : List Byte) (s : State),
    (a.toNat ≤ 0xFF → bytes.length = 32 →
      ∃ t, exec (.csumPseudo a b bytes) s = .next t ∧
        t.sum = foldSum 0 (be32Bytes b ++ [0, a.truncate 8] ++ bytes) ∧
        answered .ok 0 (t.sum.zeroExtend 32) 0 [] t ∧ keepsBut [.sum] s t) ∧
    (0xFF < a.toNat ∨ bytes.length ≠ 32 →
      ∃ t, exec (.csumPseudo a b bytes) s = .next t ∧ refuses .badOperand 0 s t) ∧
    (a.toNat + b.toNat ≤ s.pb.len →
      ∃ t, exec (.csumFold a b) s = .next t ∧
        t.sum = foldSum s.sum (bufRange s.pb a.toNat b.toNat) ∧
        answered .ok 0 (t.sum.zeroExtend 32) 0 [] t ∧ keepsBut [.sum] s t) ∧
    (s.pb.len < a.toNat + b.toNat →
      ∃ t, exec (.csumFold a b) s = .next t ∧ refuses .badOperand 0 s t) ∧
    (∃ t, exec .csumFinal s = .next t ∧ answered .ok 0 ((~~~ s.sum).zeroExtend 32) 0 [] t ∧
      keepsBut [] s t)

/-- R255, R256: a packet that carries the computed UDP checksum sums to 0xFFFF. -/
def Obligations.UdpChecksumSumsToAllOnes : Prop :=
  ∀ (m : HM) (payload : List Byte) (ulen : Nat), ulen = payload.length + 8 →
    foldSum 0 (be32Bytes (BitVec.ofNat 32 ulen) ++ [0, 17] ++ addrBytes m.src ++ addrBytes m.dst ++
      be16Bytes m.sport ++ be16Bytes m.dport ++ be16Bytes (BitVec.ofNat 16 ulen) ++
      be16Bytes (udpChecksum m payload) ++ payload) = 0xFFFF

/-- R257, R258: UDP_CSUM writes the checksum into the model; UDP_VERIFY compares a carried one and
stores an elided one; both need a UDP shell. -/
def Obligations.UdpCommandsComputeTheChecksum : Prop :=
  ∀ (s : State) (c v : BitVec 16) (payload : List Byte), c = udpChecksum s.hm (bufBytes s.pb) →
    payload = restOfFrame s 0 → v = udpChecksum s.hm payload →
    (s.hm.pkind = .udp →
      (∃ t, exec .udpCsum s = .next t ∧ t.hm = { s.hm with csum := c, csumInline := true } ∧
        t.sum = ~~~ c ∧ answered .ok 0 (c.zeroExtend 32) 0 [] t ∧ keepsBut [.hm, .sum] s t) ∧
      (∀ trunc bad : Bool, trunc = decide (s.fb.len < s.cur.toNat) →
        bad = (s.hm.csumInline && decide (v ≠ s.hm.csum)) →
        ∃ t, exec .udpVerify s = .next t ∧ t.sum = ~~~ v ∧
          t.hm = (if s.hm.csumInline then s.hm else { s.hm with csum := v }) ∧
          answered (if trunc then .truncated else if bad then .csumMismatch else .ok) 0
            (v.zeroExtend 32) (t.hm.csum.zeroExtend 32) [] t ∧
          t.flags = truncFlags trunc s ||| (if bad then 2 else 0) ∧
          keepsBut [.hm, .sum, .flags] s t)) ∧
    (s.hm.pkind ≠ .udp → ∀ i ∈ [Instr.udpCsum, Instr.udpVerify],
      ∃ t, exec i s = .next t ∧ refuses .badModel 0 s t)

/-! ## Reset and status -/

/-- R35: the values the spec gives the state at power-on and after RESET; the block starts idle. -/
def Obligations.ResetStateValues : Prop :=
  resetValues State.reset ∧ step State.reset = .next State.reset ∧
    ∀ s : State, ∃ t, exec .reset s = .next t ∧ resetValues t

/-- R271: RESET puts every piece of state at its reset value and frees every reassembly slot. The
zeros of what R35 calls unobservable are the model's (log 8), and so is that the tuples at the port
and the draw counter are kept (log 15). -/
def Obligations.ResetCommandRestoresResetState : Prop :=
  ∀ s : State, ∃ t, exec .reset s = .next t ∧ answered .ok 0 0 0 [] t ∧
    keepsBut [.frag, .draws, .host] State.reset t ∧ t.host = s.host ∧ t.draws = s.draws ∧
    ∀ j, (slotAt t j).valid = false

/-- R272: exactly the masked flags are cleared. -/
def Obligations.ClrflagsClearsTheMasked : Prop :=
  ∀ (mask : BitVec 32) (s : State),
    (mask.toNat ≤ 0xF →
      ∃ t, exec (.clrflags mask) s = .next t ∧
        (∀ k, k < 4 → t.flags.getLsbD k = (s.flags.getLsbD k && !mask.getLsbD k)) ∧
        answered .ok 0 (t.flags.zeroExtend 32) 0 [] t ∧ keepsBut [.flags] s t) ∧
    (0xF < mask.toNat → ∃ t, exec (.clrflags mask) s = .next t ∧ refuses .badOperand 0 s t)

/-- R273: STATUS, FLAGS and ERRPOS as the previous command left them, packed, and EVICT_COUNT; STATUS
and ERRPOS are not written; the command itself answers OK. -/
def Obligations.RdstatusReportsThePrevious : Prop :=
  ∀ s : State, ∃ t, exec .rdstatus s = .next t ∧
    t.res0.toNat = s.status.toNat + s.flags.toNat * 2 ^ 8 + s.errpos.toNat * 2 ^ 16 ∧
    t.res1 = s.evictCount ∧ t.status = s.status ∧ t.errpos = s.errpos ∧
    t.resp = some ⟨0, t.res0, t.res1, []⟩ ∧ keepsBut [] s t

/-! ## Encodings -/

/-- R60, R62, R67, R90, R100: words written out from the spec's tables decode to what they stand
for. -/
def Obligations.WordsOfTheTablesDecode : Prop :=
  decode (.command ⟨0x10, 5, 7, 9, [1, 2, 3]⟩) = .ok (.ctxSet 5 [1, 2, 3]) ∧
    decode (.command ⟨0x0B, 2, 0, 12, []⟩) = .ok (.rdbuf 2 0 12) ∧
    decode (.command ⟨0x7F, 0, 0, 0, []⟩) = .error (.badOpcode 0x7F) ∧
    decode (.wire .dispatch 0 [0b01000001]) = .ok .uncompIpv6 ∧
    decode (.wire .dispatch 0 [0b01111111]) = .ok (.iphc true true true 0b11) ∧
    decode (.wire .dispatch 0 [0b11000101]) = .ok (.frag1 0b101) ∧
    decode (.wire .dispatch 0 [0b11100010]) = .ok (.fragn 0b010) ∧
    decode (.wire .dispatch 0 [0b10000000]) = .ok (.other 0b10000000) ∧
    decode (.wire .word 0 [0b01111010, 0b11011011]) =
      .ok (.iphcWord true true false 0b10 true true 0b01 true false 0b11) ∧
    decode (.wire .cid 0 [0b00010010]) = .ok (.cidByte 1 2) ∧
    decode (.wire .frag1Hdr 0 [0b11000000, 0b01001000, 0x12, 0x34]) = .ok (.frag1Hdr 72 0x1234) ∧
    decode (.wire .nhc 0 [0b11110011, 0b11110000, 0x12, 0x34]) =
      .ok (.udpNhcNibblePorts 15 0 (some 0x1234))

/-- Decode and encode agree: every well-formed instruction, with every operand at every value its
encoding admits, is read back from its encoding. -/
def Obligations.DecodeInvertsTheEncoder : Prop :=
  ∀ i : Instr, i.wellFormed = true → decode (encode i) = .ok i

/-- R60, R95: whatever the decoder accepts is well-formed, and has all of its bytes. -/
def Obligations.DecodedInstructionsAreWellFormed : Prop :=
  ∀ (c : Code) (i : Instr), decode c = .ok i →
    i.wellFormed = true ∧ ∀ slot w l, c = .wire slot w l → i.wireLen ≤ l.length

/-! ## The invariant -/

/-- The invariant holds after reset. -/
def Obligations.ResetSatisfiesTheInvariant : Prop := Inv State.reset

/-- The invariant is kept by every step, and every step has a next state (R25, R26, R40, R281). -/
def Obligations.EveryStepKeepsTheInvariant : Prop :=
  ∀ s : State, Inv s → ∃ t, step s = .next t ∧ Inv t

end Statements
end

