-- ==== Sys2Proof/Laws/State.lean ====
section
/-! SUPPORT. One lemma per field per named update of the state, each true by `rfl` and tagged `simp`,
so that no proof unfolds a record update. -/

namespace Sys2Proof.Machine

/-- The cursor in plain numbers (10_state.md R21, CUR_W). -/
theorem cur_lt (s : State) : s.cur.toNat < 65536 := s.cur.isLt

/-! ## The parameters of the machine (00_scope.md R7) -/

@[simp] theorem params_fbCap : Config.params.fbCap = 2048 := rfl
@[simp] theorem params_pbCap : Config.params.pbCap = 2048 := rfl
@[simp] theorem params_obCap : Config.params.obCap = 2096 := rfl
@[simp] theorem params_fragBufCap : Config.params.fragBufCap = 2047 := rfl
@[simp] theorem params_rangeSlots : Config.params.rangeSlots = 256 := rfl
@[simp] theorem params_maxAgeMs : Config.params.maxAgeMs = 2000 := rfl
@[simp] theorem params_fragSlots : Config.params.fragSlots = 4 := rfl
@[simp] theorem params_curW : Config.params.curW = 16 := rfl
@[simp] theorem params_timeW : Config.params.timeW = 32 := rfl
@[simp] theorem params_curMax : Config.params.curMax = 65535 := rfl

/-- The parameters of the machine fit its State. -/
theorem params_fits : Config.params.fits := by decide

/-- A 32-bit operand is a timestamp of the machine as it stands. -/
@[simp] theorem timeOf_params (now : BitVec 32) : timeOf Config.params now = now := by
  simp [timeOf, Nat.mod_eq_of_lt now.isLt]

/-- The machine uses all the slots of State. -/
@[simp] theorem slotsUsed_params (s : State) : slotsUsed Config.params s = s.frag.toList := by
  simp [slotsUsed]

@[simp] theorem mapUsed_all (f : FragSlot → FragSlot) (v : Vector FragSlot Config.fragSlots) :
    mapUsed 4 f v = mapSlots f v := by
  have h : v.toList.length ≤ 4 := by simp
  simp only [mapUsed, mapSlots, List.take_of_length_le h, List.drop_of_length_le h, List.append_nil]

/-- The age limit at the machine's parameters: the difference is modulo 2^32 as it stands. -/
theorem expired_params (now : BitVec 32) (f : FragSlot) :
    expired now f = (f.valid && decide (2000 < (now - f.created).toNat)) := by
  have h : (now - f.created).toNat < 2 ^ 32 := (now - f.created).isLt
  simp only [expired, params_maxAgeMs, params_timeW, Nat.mod_eq_of_lt h]

/-- A cursor value that CUR_W allows is stored as it is, where the parameters fit State. -/
theorem toNat_cur_of_le_curMax {q : Params} {n : Nat} (hq : q.fits) (h : n ≤ q.curMax) :
    (BitVec.ofNat Config.curW n).toNat = n := by
  have hw : 2 ^ q.curW ≤ 2 ^ Config.curW := Nat.pow_le_pow_right (by decide) hq.2.1
  have hp : 0 < 2 ^ q.curW := Nat.two_pow_pos _
  simp only [Params.curMax] at h
  exact Nat.mod_eq_of_lt (by omega)

/-- A number that the cursor can hold is kept by it. -/
theorem toNat_cur_ofNat {n : Nat} (h : n ≤ 65535) : (BitVec.ofNat Config.curW n).toNat = n :=
  Nat.mod_eq_of_lt (Nat.lt_succ_of_le h)

/-- A signed number that the cursor can hold is kept by it. -/
theorem toNat_cur_ofInt {t : Int} (h0 : 0 ≤ t) (h1 : t ≤ 65535) :
    ((BitVec.ofInt Config.curW t).toNat : Int) = t := by
  obtain ⟨n, rfl⟩ := Int.eq_ofNat_of_zero_le h0
  rw [BitVec.ofInt_natCast, toNat_cur_ofNat (by omega)]

variable (s : State) (r : Raise) (a : Adv) (st : Status) (pos n : Nat) (r0 r1 : BitVec 32)
  (out : List Byte) (slot : Slot) (f : HM → HM) (now : BitVec 32)

/-! ## `answer` -/

@[simp] theorem answer_hm : (answer st pos r0 r1 out s).hm = s.hm := rfl
@[simp] theorem answer_res0 : (answer st pos r0 r1 out s).res0 = r0 := rfl
@[simp] theorem answer_res1 : (answer st pos r0 r1 out s).res1 = r1 := rfl
@[simp] theorem answer_status : (answer st pos r0 r1 out s).status = statusCode st := rfl
@[simp] theorem answer_errpos : (answer st pos r0 r1 out s).errpos = BitVec.ofNat 16 pos := rfl
@[simp] theorem answer_flags : (answer st pos r0 r1 out s).flags = s.flags := rfl
@[simp] theorem answer_evictCount : (answer st pos r0 r1 out s).evictCount = s.evictCount := rfl
@[simp] theorem answer_ctx : (answer st pos r0 r1 out s).ctx = s.ctx := rfl
@[simp] theorem answer_sum : (answer st pos r0 r1 out s).sum = s.sum := rfl
@[simp] theorem answer_fb : (answer st pos r0 r1 out s).fb = s.fb := rfl
@[simp] theorem answer_cur : (answer st pos r0 r1 out s).cur = s.cur := rfl
@[simp] theorem answer_linkSrc : (answer st pos r0 r1 out s).linkSrc = s.linkSrc := rfl
@[simp] theorem answer_linkDst : (answer st pos r0 r1 out s).linkDst = s.linkDst := rfl
@[simp] theorem answer_pktType : (answer st pos r0 r1 out s).pktType = s.pktType := rfl
@[simp] theorem answer_pb : (answer st pos r0 r1 out s).pb = s.pb := rfl
@[simp] theorem answer_ob : (answer st pos r0 r1 out s).ob = s.ob := rfl
@[simp] theorem answer_frag : (answer st pos r0 r1 out s).frag = s.frag := rfl
@[simp] theorem answer_walk : (answer st pos r0 r1 out s).walk = Walk.idle := rfl
@[simp] theorem answer_draws : (answer st pos r0 r1 out s).draws = s.draws := rfl
@[simp] theorem answer_host : (answer st pos r0 r1 out s).host = s.host := rfl
@[simp] theorem answer_resp :
    (answer st pos r0 r1 out s).resp = some ⟨statusCode st, r0, r1, out⟩ := rfl

/-! ## `hardError` -/

@[simp] theorem hardError_hm : (hardError r s).hm = s.hm := rfl
@[simp] theorem hardError_res0 : (hardError r s).res0 = 0 := rfl
@[simp] theorem hardError_res1 : (hardError r s).res1 = 0 := rfl
@[simp] theorem hardError_status : (hardError r s).status = statusCode r.status := rfl
@[simp] theorem hardError_errpos : (hardError r s).errpos = BitVec.ofNat 16 r.pos := rfl
@[simp] theorem hardError_flags : (hardError r s).flags = s.flags := rfl
@[simp] theorem hardError_evictCount : (hardError r s).evictCount = s.evictCount := rfl
@[simp] theorem hardError_ctx : (hardError r s).ctx = s.ctx := rfl
@[simp] theorem hardError_sum : (hardError r s).sum = s.sum := rfl
@[simp] theorem hardError_fb : (hardError r s).fb = s.fb := rfl
@[simp] theorem hardError_cur : (hardError r s).cur = s.cur := rfl
@[simp] theorem hardError_linkSrc : (hardError r s).linkSrc = s.linkSrc := rfl
@[simp] theorem hardError_linkDst : (hardError r s).linkDst = s.linkDst := rfl
@[simp] theorem hardError_pktType : (hardError r s).pktType = s.pktType := rfl
@[simp] theorem hardError_pb : (hardError r s).pb = s.pb := rfl
@[simp] theorem hardError_ob : (hardError r s).ob = s.ob := rfl
@[simp] theorem hardError_frag : (hardError r s).frag = s.frag := rfl
@[simp] theorem hardError_walk : (hardError r s).walk = Walk.idle := rfl
@[simp] theorem hardError_draws : (hardError r s).draws = s.draws := rfl
@[simp] theorem hardError_host : (hardError r s).host = s.host := rfl
@[simp] theorem hardError_resp : (hardError r s).resp = some ⟨statusCode r.status, 0, 0, []⟩ := rfl

/-! ## `finish` -/

@[simp] theorem finish_hm : (finish a st r0 r1 out s).hm = s.hm := rfl
@[simp] theorem finish_res0 : (finish a st r0 r1 out s).res0 = r0 := rfl
@[simp] theorem finish_res1 : (finish a st r0 r1 out s).res1 = r1 := rfl
@[simp] theorem finish_status :
    (finish a st r0 r1 out s).status = statusCode (advStatus a st) := rfl
@[simp] theorem finish_errpos : (finish a st r0 r1 out s).errpos = 0 := rfl
@[simp] theorem finish_flags : (finish a st r0 r1 out s).flags = s.flags ||| advFlags a := rfl
@[simp] theorem finish_evictCount : (finish a st r0 r1 out s).evictCount = s.evictCount := rfl
@[simp] theorem finish_ctx : (finish a st r0 r1 out s).ctx = s.ctx := rfl
@[simp] theorem finish_sum : (finish a st r0 r1 out s).sum = s.sum := rfl
@[simp] theorem finish_fb : (finish a st r0 r1 out s).fb = s.fb := rfl
@[simp] theorem finish_cur : (finish a st r0 r1 out s).cur = s.cur := rfl
@[simp] theorem finish_linkSrc : (finish a st r0 r1 out s).linkSrc = s.linkSrc := rfl
@[simp] theorem finish_linkDst : (finish a st r0 r1 out s).linkDst = s.linkDst := rfl
@[simp] theorem finish_pktType : (finish a st r0 r1 out s).pktType = s.pktType := rfl
@[simp] theorem finish_pb : (finish a st r0 r1 out s).pb = s.pb := rfl
@[simp] theorem finish_ob : (finish a st r0 r1 out s).ob = s.ob := rfl
@[simp] theorem finish_frag : (finish a st r0 r1 out s).frag = s.frag := rfl
@[simp] theorem finish_walk : (finish a st r0 r1 out s).walk = Walk.idle := rfl
@[simp] theorem finish_draws : (finish a st r0 r1 out s).draws = s.draws := rfl
@[simp] theorem finish_host : (finish a st r0 r1 out s).host = s.host := rfl
@[simp] theorem finish_resp :
    (finish a st r0 r1 out s).resp = some ⟨statusCode (advStatus a st), r0, r1, out⟩ := rfl

/-! ## `walkOn` -/

@[simp] theorem walkOn_hm : (walkOn slot n f s).hm = s.hm := rfl
@[simp] theorem walkOn_res0 : (walkOn slot n f s).res0 = s.res0 := rfl
@[simp] theorem walkOn_res1 : (walkOn slot n f s).res1 = s.res1 := rfl
@[simp] theorem walkOn_status : (walkOn slot n f s).status = s.status := rfl
@[simp] theorem walkOn_errpos : (walkOn slot n f s).errpos = s.errpos := rfl
@[simp] theorem walkOn_flags : (walkOn slot n f s).flags = s.flags := rfl
@[simp] theorem walkOn_evictCount : (walkOn slot n f s).evictCount = s.evictCount := rfl
@[simp] theorem walkOn_ctx : (walkOn slot n f s).ctx = s.ctx := rfl
@[simp] theorem walkOn_sum : (walkOn slot n f s).sum = s.sum := rfl
@[simp] theorem walkOn_fb : (walkOn slot n f s).fb = s.fb := rfl
@[simp] theorem walkOn_cur : (walkOn slot n f s).cur = s.cur := rfl
@[simp] theorem walkOn_linkSrc : (walkOn slot n f s).linkSrc = s.linkSrc := rfl
@[simp] theorem walkOn_linkDst : (walkOn slot n f s).linkDst = s.linkDst := rfl
@[simp] theorem walkOn_pktType : (walkOn slot n f s).pktType = s.pktType := rfl
@[simp] theorem walkOn_pb : (walkOn slot n f s).pb = s.pb := rfl
@[simp] theorem walkOn_ob : (walkOn slot n f s).ob = s.ob := rfl
@[simp] theorem walkOn_frag : (walkOn slot n f s).frag = s.frag := rfl
@[simp] theorem walkOn_walk :
    (walkOn slot n f s).walk = { s.walk with slot := some slot, pos := s.walk.pos + n, cand := f s.walk.cand } := rfl
@[simp] theorem walkOn_draws : (walkOn slot n f s).draws = s.draws := rfl
@[simp] theorem walkOn_host : (walkOn slot n f s).host = s.host := rfl
@[simp] theorem walkOn_resp : (walkOn slot n f s).resp = s.resp := rfl

/-! ## `sweepState`, for any parameters -/

variable (p : Params)

@[simp] theorem sweepState_hm : (sweepState now s p).hm = s.hm := rfl
@[simp] theorem sweepState_res0 : (sweepState now s p).res0 = s.res0 := rfl
@[simp] theorem sweepState_res1 : (sweepState now s p).res1 = s.res1 := rfl
@[simp] theorem sweepState_status : (sweepState now s p).status = s.status := rfl
@[simp] theorem sweepState_errpos : (sweepState now s p).errpos = s.errpos := rfl
@[simp] theorem sweepState_flags :
    (sweepState now s p).flags = (if 0 < expiredCount now s p then s.flags ||| fEvict else s.flags) := rfl
@[simp] theorem sweepState_evictCount :
    (sweepState now s p).evictCount = s.evictCount + BitVec.ofNat 32 (expiredCount now s p) := rfl
@[simp] theorem sweepState_ctx : (sweepState now s p).ctx = s.ctx := rfl
@[simp] theorem sweepState_sum : (sweepState now s p).sum = s.sum := rfl
@[simp] theorem sweepState_fb : (sweepState now s p).fb = s.fb := rfl
@[simp] theorem sweepState_cur : (sweepState now s p).cur = s.cur := rfl
@[simp] theorem sweepState_linkSrc : (sweepState now s p).linkSrc = s.linkSrc := rfl
@[simp] theorem sweepState_linkDst : (sweepState now s p).linkDst = s.linkDst := rfl
@[simp] theorem sweepState_pktType : (sweepState now s p).pktType = s.pktType := rfl
@[simp] theorem sweepState_pb : (sweepState now s p).pb = s.pb := rfl
@[simp] theorem sweepState_ob : (sweepState now s p).ob = s.ob := rfl
@[simp] theorem sweepState_frag :
    (sweepState now s p).frag =
      mapUsed p.fragSlots (fun x => { x with valid := x.valid && !expired now x p }) s.frag := rfl
@[simp] theorem sweepState_walk : (sweepState now s p).walk = s.walk := rfl
@[simp] theorem sweepState_draws : (sweepState now s p).draws = s.draws := rfl
@[simp] theorem sweepState_host : (sweepState now s p).host = s.host := rfl
@[simp] theorem sweepState_resp : (sweepState now s p).resp = s.resp := rfl

/-! ## Flags and status with no advisory -/

@[simp] theorem advFlags_noAdv : advFlags noAdv = 0 := rfl
@[simp] theorem advStatus_noAdv : advStatus noAdv st = st := rfl
@[simp] theorem advFlags_truncAdv (t : Bool) : advFlags (truncAdv t) = if t then 1 else 0 := by
  cases t <;> rfl
@[simp] theorem advStatus_truncAdv (t : Bool) :
    advStatus (truncAdv t) st = if t then .truncated else st := by
  cases t <;> rfl
@[simp] theorem advFlags_csumAdv (c : Bool) : advFlags (csumAdv c) = if c then 2 else 0 := by
  cases c <;> rfl
@[simp] theorem advStatus_csumAdv (c : Bool) :
    advStatus (csumAdv c) st = if c then .csumMismatch else st := by
  cases c <;> rfl

/-- A command that commits without an advisory keeps the flags. -/
@[simp] theorem finish_noAdv_flags : (finish noAdv st r0 r1 out s).flags = s.flags := by
  simp [finish]

/-- `done` is `finish` without an advisory and with status OK. -/
theorem done_eq : done r0 r1 out s = finish noAdv .ok r0 r1 out s := rfl

/-! ## The temporaries do not matter to an answer -/

theorem answer_walk_irrelevant (w : Walk) :
    answer st pos r0 r1 out { s with walk := w } = answer st pos r0 r1 out s := rfl
theorem hardError_walk_irrelevant (w : Walk) :
    hardError r { s with walk := w } = hardError r s := rfl
theorem finish_walk_irrelevant (w : Walk) :
    finish a st r0 r1 out { s with walk := w } = finish a st r0 r1 out s := rfl

end Sys2Proof.Machine
end

