-- ==== Sys2Proof/Laws/Answer.lean ====
section
/-! SUPPORT. How a command ends (47_system_ops.md R270, 60_exceptions.md R288 to R290): what
`hardError` and `finish` leave, said once in the words of Sys2Proof/Safety.lean. -/

namespace Sys2Proof.Machine

variable (s : State) (a : Adv) (st : Status) (pos : Nat) (r0 r1 : BitVec 32) (out : List Byte)

/-- A hard error answers its status and position and changes nothing else. -/
theorem refuses_hardError : refuses st pos s (hardError ⟨st, pos⟩ s) :=
  ⟨⟨rfl, rfl, rfl, rfl, rfl, rfl⟩, fun p _ => by cases p <;> rfl⟩

/-- A hard error refuses, whatever its status and position are called. -/
theorem refuses_hardError_raise (r : Raise) : refuses r.status r.pos s (hardError r s) :=
  refuses_hardError s r.status r.pos

/-- A command that commits answers the status that R288 chooses. -/
theorem answered_finish : answered (advStatus a st) 0 r0 r1 out (finish a st r0 r1 out s) :=
  ⟨rfl, rfl, rfl, rfl, rfl, rfl⟩

/-- A command that commits with no advisory answers its own success status. -/
theorem answered_finish_noAdv : answered st 0 r0 r1 out (finish noAdv st r0 r1 out s) :=
  answered_finish s noAdv st r0 r1 out

/-- A command that commits with status OK and no advisory. -/
theorem answered_done : answered .ok 0 r0 r1 out (done r0 r1 out s) :=
  answered_finish_noAdv s .ok r0 r1 out

/-- What committing itself changes is FLAGS at most. -/
theorem keepsBut_finish : keepsBut [.flags] s (finish a st r0 r1 out s) := by
  intro p hp
  cases p <;> first | rfl | simp at hp

/-- Committing with no advisory changes no piece of state. -/
theorem keepsBut_finish_noAdv : keepsBut [] s (finish noAdv st r0 r1 out s) := by
  intro p _
  cases p <;> simp [StatePart.same]

theorem keepsBut_done : keepsBut [] s (done r0 r1 out s) := keepsBut_finish_noAdv s .ok r0 r1 out

/-- Frames compose. -/
theorem keepsBut_trans {l : List StatePart} {s t u : State} (h1 : keepsBut l s t)
    (h2 : keepsBut l t u) : keepsBut l s u := by
  intro p hp
  have a1 := h1 p hp
  have a2 := h2 p hp
  cases p <;> simp_all [StatePart.same]

/-- A frame may be loosened. -/
theorem keepsBut_mono {l m : List StatePart} {s t : State} (h : keepsBut l s t)
    (hs : ∀ p, p ∈ l → p ∈ m) : keepsBut m s t :=
  fun p hp => h p (fun hl => hp (hs p hl))

end Sys2Proof.Machine
end

