-- ==== Sys2Proof/Laws/Bytes.lean ====
section
/-! SUPPORT. Lists of bytes and big-endian numbers (20_memory.md R41, 00_scope.md R8). -/

namespace Sys2Proof

@[simp] theorem octBytes_length (o : Oct) : (octBytes o).length = 8 := rfl

/-- The type of eight bytes holds a prefix and a link address (00_scope.md R7, D5). -/
theorem octBytes_length_config (o : Oct) :
    (octBytes o).length = Config.prefixBytes ∧ (octBytes o).length = Config.linkAddrBytes :=
  ⟨rfl, rfl⟩

@[simp] theorem addrBytes_length (a : Addr) : (addrBytes a).length = 16 := rfl

@[simp] theorem octAt_octBytes (o : Oct) : octAt (octBytes o) 0 = o := rfl

@[simp] theorem octAt_octBytes_append (o : Oct) (l : List Byte) : octAt (octBytes o ++ l) 0 = o := rfl

@[simp] theorem addrAt_addrBytes (a : Addr) : addrAt (addrBytes a) 0 = a := rfl

/-- A byte sequence of length 8 is that of its eight bytes. -/
theorem octBytes_octAt {l : List Byte} (h : l.length = 8) : octBytes (octAt l 0) = l := by
  match l, h with
  | [_, _, _, _, _, _, _, _], _ => rfl

/-- A byte sequence of length 16 is that of its address. -/
theorem addrBytes_addrAt {l : List Byte} (h : l.length = 16) : addrBytes (addrAt l 0) = l := by
  match l, h with
  | [_, _, _, _, _, _, _, _, _, _, _, _, _, _, _, _], _ => rfl

/-- The first eight bytes of an address are its prefix. -/
@[simp] theorem addrBytes_take (a : Addr) : (addrBytes a).take 8 = octBytes a.pfx := rfl

/-- Byte sequences of eight bytes are told apart by their bytes. -/
theorem octBytes_inj {x y : Oct} : octBytes x = octBytes y ↔ x = y :=
  ⟨fun h => by rw [← octAt_octBytes x, h, octAt_octBytes], fun h => h ▸ rfl⟩

@[simp] theorem octOperand_octBytes (o : Oct) : octOperand (octBytes o) = some o := rfl

@[simp] theorem linkOperand_octBytes (o : Oct) : linkOperand (octBytes o) = some o := rfl

@[simp] theorem addrOperand_addrBytes (a : Addr) : addrOperand (addrBytes a) = some a := rfl

/-- An 8-byte operand, or none. -/
theorem octOperand_eq (l : List Byte) :
    (∃ o, octOperand l = some o ∧ octBytes o = l ∧ l.length = 8) ∨
      (octOperand l = none ∧ l.length ≠ 8) := by
  by_cases h : l.length = 8
  · exact .inl ⟨octAt l 0, by simp [octOperand, h], octBytes_octAt h, h⟩
  · exact .inr ⟨by simp [octOperand, h], h⟩

/-- A link-address operand, or none. -/
theorem linkOperand_eq (l : List Byte) :
    (∃ o, linkOperand l = some o ∧ octBytes o = l ∧ l.length = 8) ∨
      (linkOperand l = none ∧ l.length ≠ 8) := octOperand_eq l

/-- A 16-byte operand, or none. -/
theorem addrOperand_eq (l : List Byte) :
    (∃ a, addrOperand l = some a ∧ addrBytes a = l ∧ l.length = 16) ∨
      (addrOperand l = none ∧ l.length ≠ 16) := by
  by_cases h : l.length = 16
  · exact .inl ⟨addrAt l 0, by simp [addrOperand, h], addrBytes_addrAt h, h⟩
  · exact .inr ⟨by simp [addrOperand, h], h⟩

/-! ## The flags of the IPHC word (30_encoding.md R62, R63, R65) -/

@[simp] theorem flagSet_tcC (b : Byte) : flagSet Config.tcC b = b.getLsbD 4 := by
  revert b; decide +kernel

@[simp] theorem flagSet_flC (b : Byte) : flagSet Config.flC b = b.getLsbD 3 := by
  revert b; decide +kernel

@[simp] theorem flagSet_nhC (b : Byte) : flagSet Config.nhC b = b.getLsbD 2 := by
  revert b; decide +kernel

@[simp] theorem wordFlag_tcC (w : BitVec 16) : wordFlag Config.tcC w = w.getLsbD 12 := by
  simp [wordFlag]

@[simp] theorem wordFlag_flC (w : BitVec 16) : wordFlag Config.flC w = w.getLsbD 11 := by
  simp [wordFlag]

@[simp] theorem wordFlag_nhC (w : BitVec 16) : wordFlag Config.nhC w = w.getLsbD 10 := by
  simp [wordFlag]

/-! ## Big-endian numbers -/

/-- Appending one byte below a bit vector, as a number. -/
theorem toNat_append_byte {w : Nat} (x : BitVec w) (y : Byte) :
    (x ++ y).toNat = x.toNat * 256 + y.toNat := by
  rw [BitVec.toNat_append, Nat.shiftLeft_eq, Nat.mul_comm, Nat.or_comm, Nat.or_comm,
    ← Nat.two_pow_add_eq_or_of_lt y.isLt]

/-- A 16-bit word as a number. -/
theorem be16_toNat (hi lo : Byte) : (be16 hi lo).toNat = hi.toNat * 256 + lo.toNat :=
  toNat_append_byte hi lo

/-- The two bytes of a word give the word back. -/
theorem be16_be16Bytes (v : BitVec 16) : be16 (v.extractLsb' 8 8) (v.extractLsb' 0 8) = v := by
  apply BitVec.eq_of_toNat_eq
  rw [be16_toNat]
  simp only [BitVec.extractLsb'_toNat, Nat.shiftRight_eq_div_pow]
  have := v.isLt
  omega

@[simp] theorem be16Bytes_length (v : BitVec 16) : (be16Bytes v).length = 2 := rfl

@[simp] theorem be32Bytes_length (v : BitVec 32) : (be32Bytes v).length = 4 := rfl

theorem beNat_nil : beNat [] = 0 := rfl

/-- The number of a byte sequence with one more byte at its end. -/
theorem beNat_concat (l : List Byte) (b : Byte) : beNat (l ++ [b]) = beNat l * 256 + b.toNat := by
  simp [beNat]

theorem beNat_one (x : Byte) : beNat [x] = x.toNat := by simp [beNat]

theorem beNat_two (x y : Byte) : beNat [x, y] = x.toNat * 256 + y.toNat := by simp [beNat]

theorem beNat_three (x y z : Byte) :
    beNat [x, y, z] = (x.toNat * 256 + y.toNat) * 256 + z.toNat := by simp [beNat]

/-- The four bytes of a 32-bit word give its number back. -/
theorem beNat_be32Bytes (v : BitVec 32) : beNat (be32Bytes v) = v.toNat := by
  simp only [beNat, be32Bytes, List.foldl_cons, List.foldl_nil, BitVec.extractLsb'_toNat,
    Nat.shiftRight_eq_div_pow]
  have := v.isLt
  omega

/-- The two bytes of a 16-bit word give its number back. -/
theorem beNat_be16Bytes (v : BitVec 16) : beNat (be16Bytes v) = v.toNat := by
  simp only [beNat, be16Bytes, List.foldl_cons, List.foldl_nil, BitVec.extractLsb'_toNat,
    Nat.shiftRight_eq_div_pow]
  have := v.isLt
  omega

/-! ## The rotations of the traffic class -/

/-- `model_tc` of the byte `ECN | DSCP` is `DSCP | ECN` (R64). -/
theorem modelTc_append (ecn : BitVec 2) (dscp : BitVec 6) : modelTc (ecn ++ dscp) = dscp ++ ecn := by
  revert ecn dscp; decide

/-- `model_tc` inverts `wire_tc` (R64). -/
theorem modelTc_wireTc (tc : Byte) : modelTc (wireTc tc) = tc := by
  revert tc; decide

end Sys2Proof
end

