-- ==== Sys2Proof/Laws/Checksum.lean ====
section
/-! SUPPORT. The fold of bytes into a sum, piece by piece (46_checksum.md R251, R252). -/

namespace Sys2Proof.Machine

@[simp] theorem foldSum_nil (v : BitVec 16) : foldSum v [] = v := rfl

@[simp] theorem foldSum_one (v : BitVec 16) (x : Byte) : foldSum v [x] = ocAdd v (be16 x 0) := rfl

@[simp] theorem foldSum_two (v : BitVec 16) (x y : Byte) (l : List Byte) :
    foldSum v (x :: y :: l) = foldSum (ocAdd v (be16 x y)) l := rfl

/-- Bytes after a word of two bytes are folded into the sum that the word leaves. -/
theorem foldSum_be16Bytes (v w : BitVec 16) (l : List Byte) :
    foldSum v (be16Bytes w ++ l) = foldSum (ocAdd v w) l := by
  have : be16 (w.extractLsb' 8 8) (w.extractLsb' 0 8) = w := by
    apply BitVec.eq_of_getLsbD_eq
    intro i hi
    simp only [be16, BitVec.getLsbD_append, BitVec.getLsbD_extractLsb']
    by_cases h : i < 8
    · simp [h]
    · have : i - 8 < 8 := by omega
      simp [h, this, show 8 + (i - 8) = i by omega]
  simp [be16Bytes, this]

/-- A sequence of even length is folded before what follows it. -/
theorem foldSum_append (v : BitVec 16) (l m : List Byte) (h : l.length % 2 = 0) :
    foldSum v (l ++ m) = foldSum (foldSum v l) m := by
  match l, h with
  | [], _ => rfl
  | [_], h => simp at h
  | x :: y :: l, h =>
    have h' : l.length % 2 = 0 := by simp only [List.length_cons] at h; omega
    simpa using foldSum_append (ocAdd v (be16 x y)) l m h'

end Sys2Proof.Machine
end

