-- ==== Sys2Proof/Laws/Encoder.lean ====
section
/-! SUPPORT. What the address steps of the encoder can answer, said once (43_iphc_encoder.md R156 to
R162): each form together with the address that its bytes stand for (30_encoding.md R68, R70). -/

namespace Sys2Proof.Machine

/-- An IID of the 16-bit form is that of its last two bytes. -/
theorem iid_of_iid16 {a : Addr} (h : iid16 a = true) : a.iid = iidOf16 a.iid.b6 a.iid.b7 := by
  simp only [iid16, Bool.and_eq_true, beq_iff_eq] at h
  obtain ⟨⟨⟨⟨⟨⟨h0, h1⟩, h2⟩, h3⟩, h4⟩, h5⟩, _⟩ := h
  cases hi : a.iid
  simp_all [iidOf16]

/-- The unicast forms: the full address without a prefix to stand for it, else the IID from the link
address, in 16 bits, or in 64 bits. -/
theorem uni_cases (a : Addr) (c : Option Nat) (la : LinkAttr) :
    (c = none ∧ a.pfx ≠ Config.linkLocal ∧ uni a c la = (false, 0b00, addrBytes a)) ∨
      ((c.isSome = true ∨ a.pfx = Config.linkLocal) ∧
        ((la.valid = true ∧ a.iid = iidFromLink la.addr ∧ uni a c la = (c.isSome, 0b11, [])) ∨
          (macDerived a la = false ∧ a.iid = iidOf16 a.iid.b6 a.iid.b7 ∧
            uni a c la = (c.isSome, 0b10, [a.iid.b6, a.iid.b7])) ∨
          (macDerived a la = false ∧ iid16 a = false ∧
            uni a c la = (c.isSome, 0b01, octBytes a.iid)))) := by
  by_cases hp : (c.isSome || a.pfx == Config.linkLocal) = true
  · right
    refine ⟨by simpa using hp, ?_⟩
    cases hm : macDerived a la with
    | true =>
      left
      have : la.valid = true ∧ a.iid = iidFromLink la.addr := by simpa [macDerived] using hm
      exact ⟨this.1, this.2, by simp [uni, hp, hm]⟩
    | false =>
      right
      cases hi : iid16 a with
      | true => exact .inl ⟨rfl, iid_of_iid16 hi, by simp [uni, hp, hm, hi]⟩
      | false => exact .inr ⟨rfl, rfl, by simp [uni, hp, hm, hi]⟩
  · left
    have h : c = none ∧ a.pfx ≠ Config.linkLocal := by simpa using hp
    exact ⟨h.1, h.2, by simp [uni, hp]⟩

/-- The multicast forms, shortest first; each stands for the address. -/
theorem mcast_cases (a : Addr) :
    (∃ x, a = mc8 x ∧ mcast a = (0b11, [x])) ∨
      (∃ x0 x1 x2 x3, a = mc32 x0 x1 x2 x3 ∧ mcast a = (0b10, [x0, x1, x2, x3])) ∨
      (∃ x0 x1 x2 x3 x4 x5, a = mc48 x0 x1 x2 x3 x4 x5 ∧
        mcast a = (0b01, [x0, x1, x2, x3, x4, x5])) ∨
      mcast a = (0b00, addrBytes a) := by
  by_cases h1 : a = mc8 a.iid.b7
  · exact .inl ⟨_, h1, by simp only [mcast, if_pos h1]⟩
  · by_cases h2 : a = mc32 a.pfx.b1 a.iid.b5 a.iid.b6 a.iid.b7
    · exact .inr (.inl ⟨_, _, _, _, h2, by simp only [mcast, if_neg h1, if_pos h2]⟩)
    · by_cases h3 : a = mc48 a.pfx.b1 a.iid.b3 a.iid.b4 a.iid.b5 a.iid.b6 a.iid.b7
      · exact .inr (.inr (.inl ⟨_, _, _, _, _, _, h3,
          by simp only [mcast, if_neg h1, if_neg h2, if_pos h3]⟩))
      · exact .inr (.inr (.inr (by simp only [mcast, if_neg h1, if_neg h2, if_neg h3])))

/-- The traffic class and flow label forms. -/
theorem stepTf_cases (tc : BitVec 8) (fl : BitVec 20) :
    (fl = 0 ∧ tc = 0 ∧ stepTf tc fl = (0x18, [])) ∨
      (fl = 0 ∧ tc ≠ 0 ∧ stepTf tc fl = (0x08, [wireTc tc])) ∨
      (fl ≠ 0 ∧ tc = 0 ∧ stepTf tc fl = (0x10, flBytes fl)) ∨
      (fl ≠ 0 ∧ tc ≠ 0 ∧ stepTf tc fl = (0, wireTc tc :: flBytes fl)) := by
  by_cases hf : fl = 0
  · by_cases ht : tc = 0
    · exact .inl ⟨hf, ht, by simp only [stepTf, if_pos (And.intro hf ht)]; rfl⟩
    · exact .inr (.inl ⟨hf, ht, by
        simp only [stepTf, if_neg (fun h : fl = 0 ∧ tc = 0 => ht h.2), if_pos hf]; rfl⟩)
  · have hn : ¬ (fl = 0 ∧ tc = 0) := fun h => hf h.1
    by_cases ht : tc = 0
    · exact .inr (.inr (.inl ⟨hf, ht, by
        simp only [stepTf, if_neg hn, if_neg hf, if_pos ht]; rfl⟩))
    · exact .inr (.inr (.inr ⟨hf, ht, by
        simp only [stepTf, if_neg hn, if_neg hf, if_neg ht]⟩))

/-- The hop-limit forms. -/
theorem stepHlim_cases (h : BitVec 8) :
    (h = 1 ∧ stepHlim h = (1, [])) ∨ (h = 64 ∧ stepHlim h = (2, [])) ∨
      (h = 255 ∧ stepHlim h = (3, [])) ∨
      (h ≠ 1 ∧ h ≠ 64 ∧ h ≠ 255 ∧ stepHlim h = (0, [h])) := by
  by_cases h1 : h = 1
  · exact .inl ⟨h1, by simp [stepHlim, h1]⟩
  · by_cases h2 : h = 64
    · exact .inr (.inl ⟨h2, by simp [stepHlim, h2]⟩)
    · by_cases h3 : h = 255
      · exact .inr (.inr (.inl ⟨h3, by simp [stepHlim, h3]⟩))
      · exact .inr (.inr (.inr ⟨h1, h2, h3, by
        simp only [stepHlim, if_neg h1, if_neg h2, if_neg h3]⟩))

end Sys2Proof.Machine
end

