-- ==== Sys2Proof/Laws/Lookup.lean ====
section
/-! SUPPORT. The two tables: the context slots and their lookup (41_context_table.md R131, R132), the
reassembly slots and the search for one (45_fragment_reassembly.md R222, R223, R240). -/

namespace Sys2Proof.Machine

/-- The first index of a list whose entry has a property. -/
theorem findIdx?_some_getD {α : Type} (p : α → Bool) (l : List α) (d : α) (i : Nat) :
    l.findIdx? p = some i ↔
      i < l.length ∧ p (l.getD i d) = true ∧ ∀ j, j < i → p (l.getD j d) = false := by
  rw [List.findIdx?_eq_some_iff_getElem]
  constructor
  · rintro ⟨h, h1, h2⟩
    refine ⟨h, by rwa [List.getD_eq_getElem _ _ h], fun j hj => ?_⟩
    rw [List.getD_eq_getElem _ _ (by omega)]
    simpa using h2 j hj
  · rintro ⟨h, h1, h2⟩
    refine ⟨h, by rwa [List.getD_eq_getElem _ _ h] at h1, fun j hj => ?_⟩
    have := h2 j hj
    rw [List.getD_eq_getElem _ _ (by omega)] at this
    simpa using this

/-- No entry of a list has a property. -/
theorem findIdx?_none_getD {α : Type} (p : α → Bool) (l : List α) (d : α) :
    l.findIdx? p = none ↔ ∀ i, i < l.length → p (l.getD i d) = false := by
  rw [List.findIdx?_eq_none_iff]
  constructor
  · intro h i hi
    rw [List.getD_eq_getElem _ _ hi]
    exact h _ (List.getElem_mem _)
  · intro h x hx
    obtain ⟨i, hi, rfl⟩ := List.getElem_of_mem hx
    have := h i hi
    rwa [List.getD_eq_getElem _ _ hi] at this

/-! ## The context table -/

/-- Reading a context slot after one was set. -/
theorem ctxSlot_set (c : Vector CtxSlot Config.nCtx) (i k : Nat) (h : i < Config.nCtx) (x : CtxSlot) :
    ctxSlot (c.set i x h) k = if k = i then x else ctxSlot c k := by
  simp only [ctxSlot, Vector.toList_set, List.getD_eq_getElem?_getD, List.getElem?_set]
  by_cases hk : k = i
  · subst hk; simp [h, Config.nCtx]
  · simp [hk, Ne.symm hk]

/-- The lookup answers the first valid slot that holds the prefix. -/
theorem ctxFind_some {c : Vector CtxSlot Config.nCtx} {p : Oct} {i : Nat} :
    ctxFind c p = some i ↔
      i < 16 ∧ ((ctxSlot c i).valid = true ∧ (ctxSlot c i).pfx = p) ∧
        ∀ j, j < i → ¬ ((ctxSlot c j).valid = true ∧ (ctxSlot c j).pfx = p) := by
  simp [ctxFind, findIdx?_some_getD _ _ (⟨false, Oct.zero⟩ : CtxSlot), ctxSlot, Config.nCtx]

/-- The lookup finds nothing when no valid slot holds the prefix. -/
theorem ctxFind_none {c : Vector CtxSlot Config.nCtx} {p : Oct} :
    ctxFind c p = none ↔
      ∀ i, i < 16 → ¬ ((ctxSlot c i).valid = true ∧ (ctxSlot c i).pfx = p) := by
  simp [ctxFind, findIdx?_none_getD _ _ (⟨false, Oct.zero⟩ : CtxSlot), ctxSlot, Config.nCtx]

/-! ## The reassembly slots -/

@[simp] theorem toList_mapSlots (f : FragSlot → FragSlot) (v : Vector FragSlot Config.fragSlots) :
    (mapSlots f v).toList = v.toList.map f := rfl

/-- The slot of an index, as an entry of the list of slots. -/
theorem slotAt_eq (s : State) (j : Nat) (h : j < 4) :
    slotAt s j = s.frag.toList[j]'(by simpa [Config.fragSlots] using h) := by
  simp only [slotAt]
  rw [List.getD_eq_getElem]

/-- A slot beyond the last is as after reset. -/
theorem slotAt_beyond (s : State) (j : Nat) (h : 4 ≤ j) : slotAt s j = FragSlot.reset := by
  simp [slotAt, List.getD_eq_getElem?_getD, Config.fragSlots, h]

/-- Slots are read from FRAG alone. -/
theorem slotAt_congr {s t : State} (h : t.frag = s.frag) (j : Nat) : slotAt t j = slotAt s j := by
  simp [slotAt, h]

/-- Reading a slot after one was replaced. -/
theorem slotAt_setSlot (s t : State) (i k : Nat) (c : FragSlot) (hi : i < 4)
    (h : t.frag = setSlot i c s) : slotAt t k = if k = i then c else slotAt s k := by
  simp only [slotAt, h, setSlot, Vector.toList_setIfInBounds, List.getD_eq_getElem?_getD,
    List.getElem?_set]
  by_cases hk : k = i
  · subst hk; simp [hi, Config.fragSlots]
  · simp [hk, Ne.symm hk]

/-- Reading a slot after the sweep: only VALID can have changed. -/
theorem slotAt_sweep (now : BitVec 32) (s : State) (j : Nat) :
    slotAt (sweepState now s) j =
      { slotAt s j with valid := (slotAt s j).valid && !expired now (slotAt s j) } := by
  by_cases h : j < 4
  · rw [slotAt_eq _ _ h, slotAt_eq _ _ h]
    simp
  · rw [slotAt_beyond _ _ (by omega), slotAt_beyond _ _ (by omega)]
    rfl

/-- The search for a context answers the lowest valid slot with the key. -/
theorem findSlot_some {s : State} {k : Oct} {tag : BitVec 16} {j : Nat} :
    findSlot s k tag = some j ↔
      j < 4 ∧ ((slotAt s j).valid = true ∧ (slotAt s j).key = k ∧ (slotAt s j).tag = tag) ∧
        ∀ i, i < j →
          ¬ ((slotAt s i).valid = true ∧ (slotAt s i).key = k ∧ (slotAt s i).tag = tag) := by
  simp [findSlot, findIdx?_some_getD _ _ FragSlot.reset, slotAt, Config.fragSlots, and_assoc]

/-- The search for a context finds nothing when no valid slot has the key. -/
theorem findSlot_none {s : State} {k : Oct} {tag : BitVec 16} :
    findSlot s k tag = none ↔
      ∀ i, i < 4 →
        ¬ ((slotAt s i).valid = true ∧ (slotAt s i).key = k ∧ (slotAt s i).tag = tag) := by
  simp [findSlot, findIdx?_none_getD _ _ FragSlot.reset, slotAt, Config.fragSlots]

/-- The free slot is the lowest that is not valid. -/
theorem freeSlot_some {s : State} {j : Nat} :
    freeSlot s = some j ↔
      j < 4 ∧ (slotAt s j).valid = false ∧ ∀ i, i < j → (slotAt s i).valid = true := by
  simp [freeSlot, findIdx?_some_getD _ _ FragSlot.reset, slotAt, Config.fragSlots]

/-- No slot is free when all are valid. -/
theorem freeSlot_none {s : State} :
    freeSlot s = none ↔ ∀ i, i < 4 → (slotAt s i).valid = true := by
  simp [freeSlot, findIdx?_none_getD _ _ FragSlot.reset, slotAt, Config.fragSlots]

end Sys2Proof.Machine
end

