-- ==== Sys2Proof/Laws/Memory.lean ====
section
/-! SUPPORT. The laws of byte spaces and buffers (20_memory.md): a read after a write, writes leave
other bytes alone, every operation keeps the canonical form. -/

namespace Sys2Proof.Machine

/-! ## One byte -/

/-- Reading a space whose first entry is known. -/
theorem memByte_cons (d : Nat) (m : Memory) (a b : Nat) (v : Byte) :
    memByte d ((a, v) :: m) b = if b = a then v else memByte d m b := by
  by_cases h : b = a
  · simp [memByte, List.lookup, h]
  · have hf : (b == a) = false := by simpa using h
    simp [memByte, List.lookup, h, hf]

/-- Reading after one write: the written byte, and every other byte as before. -/
theorem memByte_memWrite (d : Nat) (m : Memory) (a b : Nat) (v : Byte) :
    memByte d (memWrite m a v) b = if b = a then v else memByte d m b := by
  induction m with
  | nil => simp only [memWrite, memByte_cons]
  | cons e m ih =>
    obtain ⟨c, x⟩ := e
    simp only [memWrite]
    split
    · simp only [memByte_cons]
    · split
      · rename_i h1 h2
        subst h2
        simp only [memByte_cons]
        split <;> rfl
      · rename_i h1 h2
        simp only [memByte_cons, ih]
        by_cases hc : b = c
        · rw [if_pos hc, if_neg (by omega), if_pos hc]
        · rw [if_neg hc, if_neg hc]

/-- The byte of a list at an index beyond its head. -/
theorem byteOf_cons (v : Byte) (l : List Byte) (k : Nat) : byteOf (v :: l) (k + 1) = byteOf l k := rfl

/-- Reading after writing a byte sequence: the sequence where it was put, every other byte as
before. -/
theorem memByte_memWriteBytes (d : Nat) (l : List Byte) (m : Memory) (a b : Nat) :
    memByte d (memWriteBytes m a l) b =
      if a ≤ b ∧ b < a + l.length then byteOf l (b - a) else memByte d m b := by
  induction l generalizing m a with
  | nil => rw [if_neg (by simp only [List.length_nil]; omega)]; rfl
  | cons v l ih =>
    simp only [memWriteBytes, ih, memByte_memWrite, List.length_cons]
    by_cases h : b = a
    · subst h
      rw [if_neg (by omega), if_pos rfl, if_pos (by omega)]
      simp [byteOf]
    · rw [if_neg h]
      by_cases h1 : a + 1 ≤ b ∧ b < a + 1 + l.length
      · rw [if_pos h1, if_pos (by omega)]
        obtain ⟨k, rfl⟩ : ∃ k, b = a + (k + 1) := ⟨b - a - 1, by omega⟩
        rw [show a + (k + 1) - (a + 1) = k by omega, show a + (k + 1) - a = k + 1 by omega,
          byteOf_cons]
      · rw [if_neg h1, if_neg (by omega)]

/-- Reading a byte sequence laid out from an index on. -/
theorem memByte_memOfFrom (d : Nat) (l : List Byte) (a b : Nat) (h : a ≤ b ∧ b < a + l.length) :
    memByte d (memOfFrom a l) b = byteOf l (b - a) := by
  induction l generalizing a with
  | nil => simp at h; omega
  | cons v l ih =>
    simp only [List.length_cons] at h
    simp only [memOfFrom, memByte_cons]
    by_cases hb : b = a
    · subst hb; simp [byteOf]
    · rw [if_neg hb]
      obtain ⟨k, rfl⟩ : ∃ k, b = a + (k + 1) := ⟨b - a - 1, by omega⟩
      rw [ih (a + 1) (by omega), show a + (k + 1) - (a + 1) = k by omega,
        show a + (k + 1) - a = k + 1 by omega, byteOf_cons]

/-! ## Ranges -/

@[simp] theorem memRange_length (d : Nat) (m : Memory) (a n : Nat) : (memRange d m a n).length = n := by
  simp [memRange]

/-- The byte of a range at an index inside it. -/
theorem byteOf_memRange (d : Nat) (m : Memory) (a n k : Nat) (h : k < n) :
    byteOf (memRange d m a n) k = memByte d m (a + k) := by
  simp [byteOf, memRange, List.getD, h]

/-- Two byte sequences of one length with the same bytes are equal. -/
theorem list_ext_byteOf {l m : List Byte} (hl : l.length = m.length)
    (h : ∀ k, k < l.length → byteOf l k = byteOf m k) : l = m := by
  apply List.ext_getElem hl
  intro k h1 h2
  have := h k h1
  simpa [byteOf, List.getD, h1, h2] using this

/-- A range whose bytes are those of a list is that list. -/
theorem memRange_eq {d : Nat} {m : Memory} {a n : Nat} {l : List Byte} (hl : l.length = n)
    (h : ∀ k, k < n → memByte d m (a + k) = byteOf l k) : memRange d m a n = l := by
  apply list_ext_byteOf (by simp [hl])
  intro k hk
  have hk' : k < n := by simpa using hk
  rw [byteOf_memRange _ _ _ _ _ hk', h k hk']

/-- A range cut in two. -/
theorem memRange_append (d : Nat) (m : Memory) (a n k : Nat) :
    memRange d m a (n + k) = memRange d m a n ++ memRange d m (a + n) k := by
  simp only [memRange, List.range_add, List.map_append, List.map_map]
  congr 1
  apply List.map_congr_left
  intro x _
  simp [Nat.add_assoc]

/-- Bytes of an appended list. -/
theorem byteOf_append_left {l m : List Byte} {k : Nat} (h : k < l.length) :
    byteOf (l ++ m) k = byteOf l k := by
  simp [byteOf, List.getD, List.getElem?_append_left h]

theorem byteOf_append_right {l m : List Byte} {k : Nat} (h : l.length ≤ k) :
    byteOf (l ++ m) k = byteOf m (k - l.length) := by
  simp [byteOf, List.getD, List.getElem?_append_right h]

/-! ## The canonical form -/

/-- The indices that one write leaves listed. -/
theorem mem_memWrite {m : Memory} {a : Nat} {v : Byte} {e : Host.Cell} (h : e ∈ memWrite m a v) :
    e.1 = a ∨ e ∈ m := by
  induction m with
  | nil => simp [memWrite] at h; exact .inl (by rw [h])
  | cons c m ih =>
    obtain ⟨b, x⟩ := c
    simp only [memWrite] at h
    split at h
    · rcases List.mem_cons.1 h with rfl | h
      · exact .inl rfl
      · exact .inr h
    · split at h
      · rcases List.mem_cons.1 h with rfl | h
        · exact .inl rfl
        · exact .inr (List.mem_cons_of_mem _ h)
      · rcases List.mem_cons.1 h with rfl | h
        · exact .inr List.mem_cons_self
        · rcases ih h with h | h
          · exact .inl h
          · exact .inr (List.mem_cons_of_mem _ h)

/-- One write keeps the canonical form. -/
theorem memWrite_wf {m : Memory} (a : Nat) (v : Byte) (h : Memory.wf m) :
    Memory.wf (memWrite m a v) := by
  induction m with
  | nil => simp [memWrite, Memory.wf]
  | cons c m ih =>
    obtain ⟨b, x⟩ := c
    have hc := List.pairwise_cons.1 h
    simp only [memWrite]
    split
    · rename_i hab
      refine List.pairwise_cons.2 ⟨?_, h⟩
      intro e he
      rcases List.mem_cons.1 he with rfl | he
      · exact hab
      · exact Nat.lt_trans hab (hc.1 e he)
    · split
      · rename_i hab
        exact List.pairwise_cons.2 ⟨fun e he => hab ▸ hc.1 e he, hc.2⟩
      · refine List.pairwise_cons.2 ⟨?_, ih hc.2⟩
        intro e he
        rcases mem_memWrite he with h1 | h1
        · show b < e.1
          omega
        · exact hc.1 e h1

/-- Writing a byte sequence keeps the canonical form. -/
theorem memWriteBytes_wf {m : Memory} (a : Nat) (l : List Byte) (h : Memory.wf m) :
    Memory.wf (memWriteBytes m a l) := by
  induction l generalizing m a with
  | nil => exact h
  | cons v l ih => exact ih (a + 1) (memWrite_wf a v h)

/-- The indices that writing a byte sequence leaves listed. -/
theorem mem_memWriteBytes {l : List Byte} {m : Memory} {a : Nat} {e : Host.Cell}
    (h : e ∈ memWriteBytes m a l) : (a ≤ e.1 ∧ e.1 < a + l.length) ∨ e ∈ m := by
  induction l generalizing m a with
  | nil => exact .inr h
  | cons v l ih =>
    rcases ih h with h | h
    · exact .inl (by simp only [List.length_cons]; omega)
    · rcases mem_memWrite h with h | h
      · exact .inl (by simp only [List.length_cons]; omega)
      · exact .inr h

/-- The indices of a byte sequence laid out. -/
theorem map_fst_memOfFrom (a : Nat) (l : List Byte) :
    (memOfFrom a l).map Prod.fst = List.range' a l.length := by
  induction l generalizing a with
  | nil => rfl
  | cons v l ih => simp [memOfFrom, ih, List.range'_succ]

/-- A byte sequence laid out is in canonical form. -/
theorem memOfFrom_wf (a : Nat) (l : List Byte) : Memory.wf (memOfFrom a l) := by
  have h : ((memOfFrom a l).map Prod.fst).Pairwise (· < ·) := by
    rw [map_fst_memOfFrom]; exact List.pairwise_lt_range'
  exact List.pairwise_map.1 h

/-! ## Buffers -/

/-- A buffer of a byte sequence is in canonical form. -/
theorem bufOf_wf (l : List Byte) : Buf.wf (bufOf l) := by
  simp [Buf.wf, bufOf, map_fst_memOfFrom, List.range_eq_range']

@[simp] theorem bufOf_len (l : List Byte) : (bufOf l).len = l.length := rfl

/-- The byte of a buffer of a byte sequence. -/
theorem memByte_bufOf (d : Nat) (l : List Byte) (k : Nat) (h : k < l.length) :
    memByte d (bufOf l).mem k = byteOf l k := by
  simpa [bufOf] using memByte_memOfFrom d l 0 k (by omega)

/-- A range of a buffer of a byte sequence. -/
theorem bufRange_bufOf (l : List Byte) (a n : Nat) (h : a + n ≤ l.length) :
    bufRange (bufOf l) a n = (l.drop a).take n := by
  apply memRange_eq (by simp; omega)
  intro k hk
  rw [memByte_bufOf _ _ _ (by omega)]
  simp [byteOf, List.getD, List.getElem?_drop, hk]

/-- What is put into a buffer is what it holds. -/
@[simp] theorem bufBytes_bufOf (l : List Byte) : bufBytes (bufOf l) = l := by
  simp [bufBytes, bufRange_bufOf l 0 l.length (by omega)]

@[simp] theorem bufBytes_length (b : Buf) : (bufBytes b).length = b.len := by
  simp [bufBytes, bufRange]

@[simp] theorem bufRange_length (b : Buf) (a n : Nat) : (bufRange b a n).length = n := by
  simp [bufRange]

/-- Every listed index of a canonical buffer is below its LEN. -/
theorem Buf.wf_lt {b : Buf} (h : Buf.wf b) {e : Host.Cell} (he : e ∈ b.mem) : e.1 < b.len := by
  have : e.1 ∈ b.mem.map Prod.fst := List.mem_map.2 ⟨e, he, rfl⟩
  rw [h] at this
  exact List.mem_range.1 this

/-- One write at an index not above the length of a contiguous space. -/
theorem map_fst_memWrite {m : Memory} {c n : Nat} (h : m.map Prod.fst = List.range' c n) {a : Nat}
    (v : Byte) (hc : c ≤ a) (ha : a ≤ c + n) :
    (memWrite m a v).map Prod.fst = List.range' c (max n (a + 1 - c)) := by
  induction m generalizing c n with
  | nil =>
    have hn : n = 0 := by simpa using h.symm
    subst hn
    have : a = c := by omega
    subst this
    simp [memWrite]
  | cons e m ih =>
    obtain ⟨b, x⟩ := e
    match n, h with
    | n + 1, h =>
      simp only [List.map_cons, List.range'_succ, List.cons.injEq] at h
      obtain ⟨rfl, hm⟩ := h
      simp only [memWrite]
      rw [if_neg (by omega)]
      split
      · rename_i hab
        subst hab
        rw [show max (n + 1) (a + 1 - a) = n + 1 by omega, List.range'_succ]
        simp [hm]
      · rename_i hab
        have hab' : ¬ a = b := hab
        have := ih hm (by omega) (by omega)
        rw [show max (n + 1) (a + 1 - b) = max n (a + 1 - (b + 1)) + 1 by omega,
          List.range'_succ]
        simp [this]

/-- Writing a byte sequence into a contiguous space at an index not above its length. -/
theorem map_fst_memWriteBytes {m : Memory} {n : Nat} (h : m.map Prod.fst = List.range' 0 n)
    (a : Nat) (l : List Byte) (ha : a ≤ n) :
    (memWriteBytes m a l).map Prod.fst = List.range' 0 (max n (a + l.length)) := by
  induction l generalizing m a n with
  | nil => simpa [memWriteBytes, show max n a = n by omega] using h
  | cons v l ih =>
    have h1 := map_fst_memWrite h v (Nat.zero_le a) (by omega)
    have h2 := ih h1 (a + 1) (by omega)
    simp only [memWriteBytes, h2, List.length_cons]
    congr 1
    omega

/-- A splice at an index not above LEN keeps the canonical form of a buffer. -/
theorem bufSplice_wf {b : Buf} (h : Buf.wf b) (a : Nat) (l : List Byte) (ha : a ≤ b.len) :
    Buf.wf (bufSplice b a l) := by
  have h' : b.mem.map Prod.fst = List.range' 0 b.len := by
    rw [← List.range_eq_range']; exact h
  simpa [Buf.wf, bufSplice, List.range_eq_range'] using map_fst_memWriteBytes h' a l ha

@[simp] theorem bufSplice_len (b : Buf) (a : Nat) (l : List Byte) :
    (bufSplice b a l).len = max b.len (a + l.length) := rfl

/-- The bytes of a buffer after a splice. -/
theorem memByte_bufSplice (d : Nat) (b : Buf) (a : Nat) (l : List Byte) (k : Nat) :
    memByte d (bufSplice b a l).mem k =
      if a ≤ k ∧ k < a + l.length then byteOf l (k - a) else memByte d b.mem k :=
  memByte_memWriteBytes d l b.mem a k

/-! ## After reset -/

/-- Every space of the reset state is in canonical form. -/
theorem reset_memory_wf :
    Buf.wf State.reset.fb ∧ Buf.wf State.reset.pb ∧ Buf.wf State.reset.ob ∧
      ∀ f ∈ State.reset.frag.toList, Memory.wf f.buf := by
  refine ⟨rfl, rfl, rfl, ?_⟩
  intro f hf
  have : f = FragSlot.reset := by
    simp [State.reset, Vector.toList_replicate] at hf
    exact hf
  subst this
  exact List.Pairwise.nil

end Sys2Proof.Machine
end

