-- ==== Sys2Proof/Laws/Fragments.lean ====
section
/-! SUPPORT. What storing a fragment can do, said once (45_fragment_reassembly.md R220, R230 to R237,
R239). -/

namespace Sys2Proof.Machine

/-- FRAG_BUF_CAP holds every datagram whose size a fragment header can declare (00_scope.md R7). -/
theorem total_le_fragBufCap (c : FragSlot) : c.total.toNat ≤ Config.fragBufCap :=
  Nat.le_of_lt_succ c.total.isLt

/-- A fragment passes the checks of its context exactly when it lies inside the declared size, does
not over-count, and a record is free. -/
theorem pieceCheck_none {x : Piece} {c : FragSlot} :
    pieceCheck x c = none ↔
      0 ≤ x.place c ∧ x.place c + (x.payload.length : Int) ≤ (c.total.toNat : Int) ∧
        c.recvd.toNat + x.added ≤ c.total.toNat ∧ c.ranges.length ≠ 256 := by
  have ht : c.total.toNat ≤ 2047 := total_le_fragBufCap c
  unfold pieceCheck
  split
  · simp_all; omega
  · split
    · simp; omega
    · split <;> simp_all

/-- A fragment that passes the checks of its context is stored within the context's buffer (R231). -/
theorem stored_within_fragBufCap {x : Piece} {c : FragSlot} (h : pieceCheck x c = none) :
    (x.place c).toNat + x.payload.length ≤ Config.fragBufCap := by
  have hp := (pieceCheck_none.1 h)
  have ht := total_le_fragBufCap c
  omega

/-- Where a fragment goes, in terms of `target`: it is refused before a context is taken, or stored
into the one that `target` names. -/
theorem storeFragment_cases (now : BitVec 32) (size : BitVec 11) (tag : BitVec 16) (x : Piece)
    (s : State) :
    (findSlot s s.linkSrc.addr tag = none ∧ freeSlot s = none ∧ target s now size tag = none ∧
        storeFragment now size tag x s = hardError ⟨.fragTableFull, 0⟩ s) ∨
      (∃ j, findSlot s s.linkSrc.addr tag = some j ∧ (slotAt s j).total ≠ size ∧
        target s now size tag = none ∧
        storeFragment now size tag x s = hardError ⟨.fragInconsistent, 0⟩ s) ∨
      (∃ j c n, target s now size tag = some (j, c, n) ∧
        storeFragment now size tag x s = storeInto j c n x s) := by
  unfold storeFragment target
  cases hf : findSlot s s.linkSrc.addr tag with
  | some j =>
    have e : s.frag.toList.getD j FragSlot.reset = slotAt s j := rfl
    simp only [e]
    by_cases h : (slotAt s j).total = size
    · exact .inr (.inr ⟨j, slotAt s j, s.draws, by rw [if_pos h], by rw [if_neg (not_not.2 h)]⟩)
    · exact .inr (.inl ⟨j, rfl, h, by rw [if_neg h], by rw [if_pos h]⟩)
  | none =>
    cases hg : freeSlot s with
    | none => exact .inl ⟨rfl, rfl, rfl, rfl⟩
    | some j => exact .inr (.inr ⟨j, _, _, rfl, rfl⟩)

/-- What storing into a context can do: a duplicate is a no-op, a failed check refuses, and else the
fragment is kept and the datagram waits or completes. -/
theorem storeInto_cases (j : Nat) (c : FragSlot) (n : Nat) (x : Piece) (s : State) :
    (x.range ∈ c.ranges ∧
        storeInto j c n x s = finish noAdv .duplicate (BitVec.ofNat 32 j) 0 [] s) ∨
      (∃ r, x.range ∉ c.ranges ∧ pieceCheck x c = some r ∧ storeInto j c n x s = hardError r s) ∨
      (x.range ∉ c.ranges ∧ pieceCheck x c = none ∧ completes x (storePiece x c) = true ∧
        storeInto j c n x s = finish noAdv .complete (BitVec.ofNat 32 j) 0 []
          { s with
            frag := setSlot j { storePiece x c with valid := false } s
            draws := n
            fb := bufOf (assembled (storePiece x c))
            cur := 0 }) ∨
      (x.range ∉ c.ranges ∧ pieceCheck x c = none ∧ completes x (storePiece x c) = false ∧
        storeInto j c n x s = finish noAdv .incomplete (BitVec.ofNat 32 j) 0 []
          { s with frag := setSlot j (storePiece x c) s, draws := n }) := by
  unfold storeInto
  by_cases hd : x.range ∈ c.ranges
  · exact .inl ⟨hd, by simp [hd]⟩
  · cases hp : pieceCheck x c with
    | some r => exact .inr (.inl ⟨r, hd, rfl, by simp [hd]⟩)
    | none =>
      cases hc : completes x (storePiece x c) with
      | true => exact .inr (.inr (.inl ⟨hd, rfl, rfl, by simp [hd, hc]⟩))
      | false => exact .inr (.inr (.inr ⟨hd, rfl, rfl, by simp [hd, hc]⟩))

/-- Every byte of a context's buffer after a fragment was put into it. -/
theorem memByte_storePiece (x : Piece) (c : FragSlot) (d a : Nat) :
    memByte d (storePiece x c).buf a =
      if (x.place c).toNat ≤ a ∧ a < (x.place c).toNat + x.payload.length then
        byteOf x.payload (a - (x.place c).toNat)
      else memByte d c.buf a :=
  memByte_memWriteBytes d x.payload c.buf (x.place c).toNat a

/-- The byte of an assembled datagram. -/
theorem byteOf_assembled (c : FragSlot) (a : Nat) (h : a < assembledLen c) :
    byteOf (assembled c) a = memByte c.draw c.buf a := by
  simpa [assembled] using byteOf_memRange c.draw c.buf 0 (assembledLen c) a h

@[simp] theorem assembled_length (c : FragSlot) : (assembled c).length = assembledLen c := by
  simp [assembled]

end Sys2Proof.Machine
end

