-- ==== Sys2Proof/Laws/PerInstr.lean ====
section
/-! SUPPORT. Statements about every instruction as syntax, one lemma per constructor. -/

namespace Sys2Proof

/-- The first byte of an IPHC header bit by bit, `011tfnhh` (30_encoding.md R60, R62). -/
theorem iphcByte0_eq (tc fl nh : Bool) (hlim : BitVec 2) :
    iphcByte0 tc fl nh hlim =
      (0b011 : BitVec 3) ++ BitVec.ofBool tc ++ BitVec.ofBool fl ++ BitVec.ofBool nh ++ hlim := by
  revert tc fl nh hlim
  decide

end Sys2Proof

namespace Sys2Proof.Laws

/-- The encoding of a wire-format row has exactly as many bytes as the decoder reads for it
(30_encoding.md R61 to R73, R90, R91); a command has none of its own. -/
def Sized.Statement (i : Instr) : Prop :=
  match encode i with
  | .command _ => i.wireLen = 0
  | .wire _ _ l => l.length = i.wireLen

theorem Sized.setbytes (data : List Byte) : Sized.Statement (.setbytes data) := rfl
theorem Sized.getbyte (off : BitVec 32) : Sized.Statement (.getbyte off) := rfl
theorem Sized.get16 (off : BitVec 32) : Sized.Statement (.get16 off) := rfl
theorem Sized.get24 (off : BitVec 32) : Sized.Statement (.get24 off) := rfl
theorem Sized.copyout (srcOff dstOff length : BitVec 32) :
    Sized.Statement (.copyout srcOff dstOff length) := rfl
theorem Sized.incpos (delta : BitVec 32) : Sized.Statement (.incpos delta) := rfl
theorem Sized.payloadlen : Sized.Statement .payloadlen := rfl
theorem Sized.setattr (att valid value : BitVec 32) (addr : List Byte) :
    Sized.Statement (.setattr att valid value addr) := rfl
theorem Sized.getattr (att : BitVec 32) : Sized.Statement (.getattr att) := rfl
theorem Sized.pbLoad (data : List Byte) : Sized.Statement (.pbLoad data) := rfl
theorem Sized.rdbuf (space off length : BitVec 32) :
    Sized.Statement (.rdbuf space off length) := rfl
theorem Sized.ctxSet (idx : BitVec 32) (pfx : List Byte) : Sized.Statement (.ctxSet idx pfx) := rfl
theorem Sized.ctxLookup (addr : List Byte) : Sized.Statement (.ctxLookup addr) := rfl
theorem Sized.ctxGet (idx : BitVec 32) : Sized.Statement (.ctxGet idx) := rfl
theorem Sized.hmWr (fld value : BitVec 32) (addr : List Byte) :
    Sized.Statement (.hmWr fld value addr) := rfl
theorem Sized.hmRd (fld : BitVec 32) : Sized.Statement (.hmRd fld) := rfl
theorem Sized.setpayload (kind : BitVec 32) : Sized.Statement (.setpayload kind) := rfl
theorem Sized.encode : Sized.Statement .encode := rfl
theorem Sized.classify : Sized.Statement .classify := rfl
theorem Sized.decode : Sized.Statement .decode := rfl
theorem Sized.reasm (now : BitVec 32) : Sized.Statement (.reasm now) := rfl
theorem Sized.sweep (now : BitVec 32) : Sized.Statement (.sweep now) := rfl
theorem Sized.fragStat (j : BitVec 32) : Sized.Statement (.fragStat j) := rfl
theorem Sized.csumPseudo (nh payloadLength : BitVec 32) (addrs : List Byte) :
    Sized.Statement (.csumPseudo nh payloadLength addrs) := rfl
theorem Sized.csumFold (off length : BitVec 32) : Sized.Statement (.csumFold off length) := rfl
theorem Sized.csumFinal : Sized.Statement .csumFinal := rfl
theorem Sized.udpCsum : Sized.Statement .udpCsum := rfl
theorem Sized.udpVerify : Sized.Statement .udpVerify := rfl
theorem Sized.reset : Sized.Statement .reset := rfl
theorem Sized.clrflags (mask : BitVec 32) : Sized.Statement (.clrflags mask) := rfl
theorem Sized.rdstatus : Sized.Statement .rdstatus := rfl
theorem Sized.uncompIpv6 : Sized.Statement .uncompIpv6 := rfl
theorem Sized.iphc (tc fl nh : Bool) (hlim : BitVec 2) :
    Sized.Statement (.iphc tc fl nh hlim) := rfl
theorem Sized.frag1 (sizeHi : BitVec 3) : Sized.Statement (.frag1 sizeHi) := rfl
theorem Sized.fragn (sizeHi : BitVec 3) : Sized.Statement (.fragn sizeHi) := rfl
theorem Sized.other (b : Byte) : Sized.Statement (.other b) := rfl
theorem Sized.iphcWord (tc fl nh : Bool) (hlim : BitVec 2) (cid sac : Bool) (sam : BitVec 2) (m dac : Bool) (dam : BitVec 2) :
    Sized.Statement (.iphcWord tc fl nh hlim cid sac sam m dac dam) := rfl
theorem Sized.cidByte (sci dci : BitVec 4) : Sized.Statement (.cidByte sci dci) := rfl
theorem Sized.frag1Hdr (size : BitVec 11) (tag : BitVec 16) :
    Sized.Statement (.frag1Hdr size tag) := rfl
theorem Sized.fragnHdr (size : BitVec 11) (tag : BitVec 16) (offset : BitVec 8) :
    Sized.Statement (.fragnHdr size tag offset) := rfl
theorem Sized.tfElided : Sized.Statement .tfElided := rfl
theorem Sized.tfTcOnly (ecn : BitVec 2) (dscp : BitVec 6) :
    Sized.Statement (.tfTcOnly ecn dscp) := rfl
theorem Sized.tfFlOnly (ecn pad : BitVec 2) (fl : BitVec 20) :
    Sized.Statement (.tfFlOnly ecn pad fl) := rfl
theorem Sized.tfFull (ecn : BitVec 2) (dscp : BitVec 6) (pad : BitVec 4) (fl : BitVec 20) :
    Sized.Statement (.tfFull ecn dscp pad fl) := rfl
theorem Sized.nhInline (nh : Byte) : Sized.Statement (.nhInline nh) := rfl
theorem Sized.nhUdpNhc : Sized.Statement .nhUdpNhc := rfl
theorem Sized.hlimInline (h : Byte) : Sized.Statement (.hlimInline h) := rfl
theorem Sized.hlim1 : Sized.Statement .hlim1 := rfl
theorem Sized.hlim64 : Sized.Statement .hlim64 := rfl
theorem Sized.hlim255 : Sized.Statement .hlim255 := rfl
theorem Sized.srcFull (a : Addr) : Sized.Statement (.srcFull a) := rfl
theorem Sized.srcLl64 (iid : Oct) : Sized.Statement (.srcLl64 iid) := rfl
theorem Sized.srcLl16 (x y : Byte) : Sized.Statement (.srcLl16 x y) := rfl
theorem Sized.srcLlMac : Sized.Statement .srcLlMac := rfl
theorem Sized.srcUnspec : Sized.Statement .srcUnspec := rfl
theorem Sized.srcCtx64 (iid : Oct) : Sized.Statement (.srcCtx64 iid) := rfl
theorem Sized.srcCtx16 (x y : Byte) : Sized.Statement (.srcCtx16 x y) := rfl
theorem Sized.srcCtxMac : Sized.Statement .srcCtxMac := rfl
theorem Sized.dstFull (a : Addr) : Sized.Statement (.dstFull a) := rfl
theorem Sized.dstLl64 (iid : Oct) : Sized.Statement (.dstLl64 iid) := rfl
theorem Sized.dstLl16 (x y : Byte) : Sized.Statement (.dstLl16 x y) := rfl
theorem Sized.dstLlMac : Sized.Statement .dstLlMac := rfl
theorem Sized.dstReservedDac1Dam00 : Sized.Statement .dstReservedDac1Dam00 := rfl
theorem Sized.dstCtx64 (iid : Oct) : Sized.Statement (.dstCtx64 iid) := rfl
theorem Sized.dstCtx16 (x y : Byte) : Sized.Statement (.dstCtx16 x y) := rfl
theorem Sized.dstCtxMac : Sized.Statement .dstCtxMac := rfl
theorem Sized.dstMcFull (a : Addr) : Sized.Statement (.dstMcFull a) := rfl
theorem Sized.dstMc48 (x0 x1 x2 x3 x4 x5 : Byte) :
    Sized.Statement (.dstMc48 x0 x1 x2 x3 x4 x5) := rfl
theorem Sized.dstMc32 (x0 x1 x2 x3 : Byte) : Sized.Statement (.dstMc32 x0 x1 x2 x3) := rfl
theorem Sized.dstMc8 (x : Byte) : Sized.Statement (.dstMc8 x) := rfl
theorem Sized.dstReservedM1Dac1 (dam : BitVec 2) : Sized.Statement (.dstReservedM1Dac1 dam) := rfl
theorem Sized.udpNhcFullPorts (sport dport : BitVec 16) (csum : Option (BitVec 16)) :
    Sized.Statement (.udpNhcFullPorts sport dport csum) := by cases csum <;> rfl
theorem Sized.udpNhcNibblePorts (s d : BitVec 4) (csum : Option (BitVec 16)) :
    Sized.Statement (.udpNhcNibblePorts s d csum) := by cases csum <;> rfl
theorem Sized.udpNhcP01 (c : Bool) : Sized.Statement (.udpNhcP01 c) := rfl
theorem Sized.udpNhcP10 (c : Bool) : Sized.Statement (.udpNhcP10 c) := rfl
theorem Sized.nhcOther (b : Byte) : Sized.Statement (.nhcOther b) := rfl

end Sys2Proof.Laws
end

