-- ==== Sys2Proof/Laws/Reads.lean ====
section
/-! SUPPORT. The tolerant read and what a header's reader depends on (20_memory.md R44, R45;
44_iphc_decoder.md R181). -/

namespace Sys2Proof.Machine

/-- The truncation mark of a read, as a proposition. -/
theorem past_eq (s : State) (off n : Nat) :
    past s off n = decide (0 < n ∧ s.fb.len < s.cur.toNat + off + n) := by
  simp [past]

/-- Two adjoining reads are past the data when the read of both is. -/
theorem past_append (s : State) (off n k : Nat) :
    (past s off n || past s (off + n) k) = past s off (n + k) := by
  simp only [past_eq, ← Bool.decide_or, decide_eq_decide]
  omega

@[simp] theorem rdb_length (s : State) (off n : Nat) : (rdb s off n).length = n := by simp [rdb]

/-- The byte of a tolerant read at an index inside it. -/
theorem byteOf_rdb (s : State) (off n k : Nat) (h : k < n) :
    byteOf (rdb s off n) k = rdByte s (off + k) := by
  simp [byteOf, rdb, List.getD, h]

/-- A byte at or beyond FB.LEN reads 0. -/
theorem byteAt_beyond (s : State) (i : Nat) (h : s.fb.len ≤ i) : byteAt s i = 0 := by
  simp [byteAt, Nat.not_lt.2 h]

/-- A byte below FB.LEN reads as FB.DATA has it. -/
theorem byteAt_below (s : State) (i : Nat) (h : i < s.fb.len) : byteAt s i = memByte 0 s.fb.mem i := by
  simp [byteAt, h]

/-! ## What a decode looks at -/

section Congruence

variable {s t : State} (hf : t.fb = s.fb) (hc : t.cur = s.cur)

include hf hc

/-- Reads look at FB and the cursor alone. -/
theorem rdByte_congr (off : Nat) : rdByte t off = rdByte s off := by
  simp [rdByte, byteAt, hf, hc]

theorem past_congr (off n : Nat) : past t off n = past s off n := by
  simp [past, hf, hc]

theorem rdOct_congr (off : Nat) : rdOct t off = rdOct s off := by
  simp [rdOct, rdByte_congr hf hc]

theorem rdAddr_congr (off : Nat) : rdAddr t off = rdAddr s off := by
  simp [rdAddr, rdOct_congr hf hc]

theorem decTf_congr (b0 : Byte) (p : Nat) : decTf t b0 p = decTf s b0 p := by
  simp [decTf, rdByte_congr hf hc]

theorem decNh_congr (b0 : Byte) (p : Nat) : decNh t b0 p = decNh s b0 p := by
  simp [decNh, rdByte_congr hf hc]

theorem decHlim_congr (b0 : Byte) (p : Nat) : decHlim t b0 p = decHlim s b0 p := by
  simp [decHlim, rdByte_congr hf hc]

theorem decNhc_congr (p : Nat) : decNhc t p = decNhc s p := by
  simp [decNhc, decCsum, rd16, rdByte_congr hf hc]

theorem decTail_congr (base : Nat) (b0 : Byte) (m : HM) (p : Nat) (trunc : Bool) :
    decTail t base b0 m p trunc = decTail s base b0 m p trunc := by
  simp [decTail, decNhc_congr hf hc, past_congr hf hc]

theorem decIid_congr (pfx : Oct) (mode : BitVec 2) (la : LinkAttr) (base p : Nat) :
    decIid t pfx mode la base p = decIid s pfx mode la base p := by
  simp [decIid, rdOct_congr hf hc, rdByte_congr hf hc]

theorem decMcast_congr (dac : Bool) (dam : BitVec 2) (base p : Nat) :
    decMcast t dac dam base p = decMcast s dac dam base p := by
  simp [decMcast, rdAddr_congr hf hc, rdByte_congr hf hc]

variable (hx : t.ctx = s.ctx)

include hx

theorem decPrefixed_congr (c : Bool) (i : BitVec 4) (mode : BitVec 2) (la : LinkAttr)
    (base p : Nat) : decPrefixed t c i mode la base p = decPrefixed s c i mode la base p := by
  simp [decPrefixed, addrPrefix, ctxPrefix, hx, decIid_congr hf hc]

theorem decSrc_congr (hs : t.linkSrc = s.linkSrc) (b1 : Byte) (sci : BitVec 4) (base p : Nat) :
    decSrc t b1 sci base p = decSrc s b1 sci base p := by
  simp [decSrc, hs, rdAddr_congr hf hc, decPrefixed_congr hf hc hx]

theorem decDst_congr (hd : t.linkDst = s.linkDst) (b1 : Byte) (dci : BitVec 4) (base p : Nat) :
    decDst t b1 dci base p = decDst s b1 dci base p := by
  simp [decDst, hd, rdAddr_congr hf hc, decPrefixed_congr hf hc hx, decMcast_congr hf hc]

/-- `decode_at` looks at FB, the cursor, the context table and the link addresses alone. -/
theorem decodeAt_congr (hs : t.linkSrc = s.linkSrc) (hd : t.linkDst = s.linkDst) (base : Nat) :
    decodeAt t base = decodeAt s base := by
  simp only [decodeAt, decAddrs, rdByte_congr hf hc, past_congr hf hc, decTf_congr hf hc,
    decNh_congr hf hc, decHlim_congr hf hc, decTail_congr hf hc, decSrc_congr hf hc hx hs,
    decDst_congr hf hc hx hd]

end Congruence

/-! ## What the parts of an address answer -/

/-- A context prefix, or MISSING_CONTEXT. -/
theorem ctxPrefix_eq (s : State) (i : BitVec 4) (pos : Nat) :
    ((ctxSlot s.ctx i.toNat).valid = true ∧ ctxPrefix s i pos = .ok (ctxSlot s.ctx i.toNat).pfx) ∨
      ((ctxSlot s.ctx i.toNat).valid = false ∧ ctxPrefix s i pos = .error ⟨.missingContext, pos⟩) := by
  cases h : (ctxSlot s.ctx i.toNat).valid <;> simp [ctxPrefix, h]

/-- The IID of a link address, or MISSING_LINK_ADDR. -/
theorem linkIid_eq (la : LinkAttr) (pos : Nat) :
    (la.valid = true ∧ linkIid la pos = .ok (iidFromLink la.addr)) ∨
      (la.valid = false ∧ linkIid la pos = .error ⟨.missingLinkAddr, pos⟩) := by
  cases h : la.valid <;> simp [linkIid, h]

/-! ## The temporaries do not matter to the end of a command -/

theorem storeInto_walk (j : Nat) (c : FragSlot) (n : Nat) (x : Piece) (s : State) (w : Walk) :
    storeInto j c n x { s with walk := w } = storeInto j c n x s := by
  unfold storeInto
  split
  · rfl
  · split
    · rfl
    · dsimp only
      split <;> rfl

theorem storeFragment_walk (now : BitVec 32) (size : BitVec 11) (tag : BitVec 16) (x : Piece)
    (s : State) (w : Walk) :
    storeFragment now size tag x { s with walk := w } = storeFragment now size tag x s := by
  simp only [storeFragment, storeInto_walk]
  rfl

theorem storeFirst_walk (now : BitVec 32) (size : BitVec 11) (tag : BitVec 16) (d : Decoded)
    (s : State) (w : Walk) :
    storeFirst now size tag d { s with walk := w } = storeFirst now size tag d s := by
  simp only [storeFirst, storeFragment_walk]
  rfl

theorem commitDecode_walk (d : Decoded) (s : State) (w : Walk) :
    commitDecode d { s with walk := w } = commitDecode d s := by
  unfold commitDecode; rfl

end Sys2Proof.Machine
end

