-- ==== Sys2Proof/Tests/Slice0.lean ====
section
/-! SUPPORT. Tests. Every expected value is the spec's (30_encoding.md, the vectors V1 to V99 and the
programs P1 to P5 of 95_test_vectors.md); each test's comment names its source. Then one witness for
every statement that has hypotheses: a concrete state and operands that meet them, at the boundary
values of each clause. -/

namespace Sys2Proof.Tests

open Sys2Proof Sys2Proof.Machine

-- One test after another: each is evaluated by the kernel, and many at once take a thread each.
set_option Elab.async false

/-! ## Helpers -/

/-- The state after an instruction. -/
def after (i : Instr) (s : State) : State :=
  match exec i s with
  | .next t => t
  | .fault _ => s
  | .refused _ => s

/-- What an instruction answers to the host: status, RES0, RES1, OUT. -/
def result (i : Instr) (s : State) : Option Response := (after i { s with resp := none }).resp

/-- The answer `(status, RES0, RES1, OUT)`. -/
def gives (st : BitVec 8) (r0 r1 : BitVec 32) (out : List Byte) : Option Response :=
  some ⟨st, r0, r1, out⟩

/-- L1 of 95_test_vectors.md. -/
def l1 : Oct := ⟨0x00, 0x50, 0xC4, 0xFF, 0xFE, 0x04, 0x00, 0x01⟩
/-- L2. -/
def l2 : Oct := ⟨0x02, 0x50, 0xC4, 0xFF, 0xFE, 0x04, 0x00, 0x02⟩
/-- The prefix `fe80::/64`. -/
def ll : Oct := ⟨0xFE, 0x80, 0, 0, 0, 0, 0, 0⟩
/-- S1. -/
def s1 : Addr := ⟨ll, ⟨0x02, 0x50, 0xC4, 0xFF, 0xFE, 0x04, 0x00, 0x01⟩⟩
/-- D1. -/
def d1 : Addr := ⟨⟨0xFF, 0x02, 0, 0, 0, 0, 0, 0⟩, ⟨0, 0, 0, 0, 0, 0, 0, 1⟩⟩
/-- PFX. -/
def pfx : Oct := ⟨0x20, 0x01, 0x04, 0x20, 0x5F, 0xFF, 0x00, 0x7D⟩
/-- `2001:db8::/64`. -/
def pfx2 : Oct := ⟨0x20, 0x01, 0x0D, 0xB8, 0, 0, 0, 0⟩

/-- The start state of the vectors: reset, LINK_SRC = L1. -/
def start : State := { State.reset with linkSrc := ⟨true, l1⟩ }

/-- The start state with a frame. -/
def frame (l : List Byte) : State := { start with fb := bufOf l }

/-- The start state with a context slot. -/
def withCtx (i : Nat) (p : Oct) (s : State) : State :=
  { s with ctx := s.ctx.setIfInBounds i ⟨true, p⟩ }

/-- The payload of V1, "T22.2". -/
def text : List Byte := [0x54, 0x32, 0x32, 0x2E, 0x32]

/-- The model of V1. -/
def hm1 : HM := ⟨0, 0, 17, 255, s1, d1, .udp, 0xF0B0, 0xF0B0, 0xA337, true⟩

/-- The sending side of V1. -/
def send1 : State := { start with hm := hm1, pb := bufOf text }

/-- The frame of V1. -/
def frame1 : List Byte := [0x7F, 0x3B, 0x01, 0xF3, 0x00, 0xA3, 0x37, 0x54, 0x32, 0x32, 0x2E, 0x32]

/-- The model of the encoder vectors V31 to V48. -/
def hm2 : HM := ⟨0, 0, 58, 64, s1, d1, .icmpv6, 0, 0, 0, false⟩

/-- The header that ENCODE produces for a model. -/
def header (m : HM) (s : State) : List Byte := bufBytes (after .encode { s with hm := m }).ob

/-- F1 of the reassembly vectors. -/
def f1 : List Byte :=
  [0xC0, 0x48, 0x12, 0x34, 0x7F, 0x3B, 0x01, 0xF3, 0x00, 0xC7, 0xD2, 0x41, 0x42, 0x43, 0x44, 0x45,
   0x46, 0x47, 0x48]
/-- F2 of the reassembly vectors. -/
def f2 : List Byte :=
  [0xE0, 0x48, 0x12, 0x34, 0x07, 0x49, 0x4A, 0x4B, 0x4C, 0x4D, 0x4E, 0x4F, 0x50, 0x51, 0x52, 0x53,
   0x54, 0x55, 0x56, 0x57, 0x58]
/-- The state after `SETBYTES F1; REASM 100`. -/
def half : State := after (.reasm 100) (frame f1)
/-- A frame that comes after F1. -/
def then2 (l : List Byte) : State := { half with fb := bufOf l }

/-- The state in which a header row is run for a command. -/
def reading (r : Reader) (w : BitVec 16) : State :=
  { start with walk := { Walk.idle with slot := some .dispatch, reader := r, pos := 2, w := w } }

/-! ## Well-formedness: what it refuses -/

-- R60: an OTHER byte matches none of the four patterns, at the patterns' edges.
theorem test_wellFormed_other :
    [Instr.other 0x41, .other 0x60, .other 0x7F, .other 0xC0, .other 0xC7, .other 0xE0,
      .other 0xE7].all (fun i => !i.wellFormed) = true ∧
    [Instr.other 0x00, .other 0x40, .other 0x42, .other 0x5F, .other 0x80, .other 0xBF, .other 0xC8,
      .other 0xDF, .other 0xE8, .other 0xFF].all (fun i => i.wellFormed) = true := by decide

-- R80, R95: an NHC_OTHER byte is not `11110xxx`.
theorem test_wellFormed_nhcOther :
    [Instr.nhcOther 0xF0, .nhcOther 0xF7].all (fun i => !i.wellFormed) = true ∧
    [Instr.nhcOther 0xEF, .nhcOther 0xF8, .nhcOther 0x00].all (fun i => i.wellFormed) = true := by
  decide

/-! ## Decoding: words written out from the tables of 30_encoding.md -/

-- R100.
theorem test_decode_buffer_commands :
    decodeCommand ⟨0x01, 1, 2, 3, [9]⟩ = .ok (.setbytes [9]) ∧
    decodeCommand ⟨0x02, 1, 2, 3, [9]⟩ = .ok (.getbyte 1) ∧
    decodeCommand ⟨0x03, 1, 2, 3, [9]⟩ = .ok (.get16 1) ∧
    decodeCommand ⟨0x04, 1, 2, 3, [9]⟩ = .ok (.get24 1) ∧
    decodeCommand ⟨0x05, 1, 2, 3, [9]⟩ = .ok (.copyout 1 2 3) ∧
    decodeCommand ⟨0x06, 1, 2, 3, [9]⟩ = .ok (.incpos 1) ∧
    decodeCommand ⟨0x07, 1, 2, 3, [9]⟩ = .ok .payloadlen ∧
    decodeCommand ⟨0x08, 1, 2, 3, [9]⟩ = .ok (.setattr 1 2 3 [9]) ∧
    decodeCommand ⟨0x09, 1, 2, 3, [9]⟩ = .ok (.getattr 1) ∧
    decodeCommand ⟨0x0A, 1, 2, 3, [9]⟩ = .ok (.pbLoad [9]) ∧
    decodeCommand ⟨0x0B, 1, 2, 3, [9]⟩ = .ok (.rdbuf 1 2 3) :=
  ⟨rfl, rfl, rfl, rfl, rfl, rfl, rfl, rfl, rfl, rfl, rfl⟩

-- R100.
theorem test_decode_table_and_model_commands :
    decodeCommand ⟨0x10, 1, 2, 3, [9]⟩ = .ok (.ctxSet 1 [9]) ∧
    decodeCommand ⟨0x11, 1, 2, 3, [9]⟩ = .ok (.ctxLookup [9]) ∧
    decodeCommand ⟨0x12, 1, 2, 3, [9]⟩ = .ok (.ctxGet 1) ∧
    decodeCommand ⟨0x18, 1, 2, 3, [9]⟩ = .ok (.hmWr 1 2 [9]) ∧
    decodeCommand ⟨0x19, 1, 2, 3, [9]⟩ = .ok (.hmRd 1) ∧
    decodeCommand ⟨0x1A, 1, 2, 3, [9]⟩ = .ok (.setpayload 1) ∧
    decodeCommand ⟨0x20, 1, 2, 3, [9]⟩ = .ok .encode ∧
    decodeCommand ⟨0x28, 1, 2, 3, [9]⟩ = .ok .classify ∧
    decodeCommand ⟨0x29, 1, 2, 3, [9]⟩ = .ok .decode :=
  ⟨rfl, rfl, rfl, rfl, rfl, rfl, rfl, rfl, rfl⟩

-- R100, R102.
theorem test_decode_other_commands :
    decodeCommand ⟨0x30, 1, 2, 3, [9]⟩ = .ok (.reasm 1) ∧
    decodeCommand ⟨0x31, 1, 2, 3, [9]⟩ = .ok (.sweep 1) ∧
    decodeCommand ⟨0x32, 1, 2, 3, [9]⟩ = .ok (.fragStat 1) ∧
    decodeCommand ⟨0x38, 1, 2, 3, [9]⟩ = .ok (.csumPseudo 1 2 [9]) ∧
    decodeCommand ⟨0x39, 1, 2, 3, [9]⟩ = .ok (.csumFold 1 2) ∧
    decodeCommand ⟨0x3A, 1, 2, 3, [9]⟩ = .ok .csumFinal ∧
    decodeCommand ⟨0x3B, 1, 2, 3, [9]⟩ = .ok .udpCsum ∧
    decodeCommand ⟨0x3C, 1, 2, 3, [9]⟩ = .ok .udpVerify ∧
    decodeCommand ⟨0x40, 1, 2, 3, [9]⟩ = .ok .reset ∧
    decodeCommand ⟨0x41, 1, 2, 3, [9]⟩ = .ok (.clrflags 1) ∧
    decodeCommand ⟨0x42, 1, 2, 3, [9]⟩ = .ok .rdstatus ∧
    decodeCommand ⟨0x7F, 1, 2, 3, [9]⟩ = .error (.badOpcode 0x7F) :=
  ⟨rfl, rfl, rfl, rfl, rfl, rfl, rfl, rfl, rfl, rfl, rfl, rfl⟩

-- R60, R62, R67, R90, R91.
theorem test_decode_dispatch_and_headers :
    decodeWire .dispatch 0 [0b01000001] = .ok .uncompIpv6 ∧
    decodeWire .dispatch 0 [0b01110110] = .ok (.iphc true false true 0b10) ∧
    decodeWire .dispatch 0 [0b11000011] = .ok (.frag1 0b011) ∧
    decodeWire .dispatch 0 [0b11100110] = .ok (.fragn 0b110) ∧
    decodeWire .dispatch 0 [0b11110000] = .ok (.other 0b11110000) ∧
    decodeWire .word 0 [0b01101001, 0b10100101] =
      .ok (.iphcWord false true false 0b01 true false 0b10 false true 0b01) ∧
    decodeWire .cid 0 [0b01111100] = .ok (.cidByte 7 12) ∧
    decodeWire .frag1Hdr 0 [0xC7, 0xFF, 0x12, 0x34] = .ok (.frag1Hdr 2047 0x1234) ∧
    decodeWire .fragnHdr 0 [0xE0, 0x48, 0x12, 0x34, 0x07] = .ok (.fragnHdr 72 0x1234 7) :=
  ⟨rfl, rfl, rfl, rfl, rfl, rfl, rfl, rfl, rfl⟩

-- R63 to R66: bits 12:8 of the IPHC word choose the form.
theorem test_decode_fixed_fields :
    decodeWire .tf 0x7800 [] = .ok .tfElided ∧
    decodeWire .tf 0x6800 [0b01101110] = .ok (.tfTcOnly 0b01 0b101110) ∧
    decodeWire .tf 0x7000 [0xF1, 0x23, 0x45] = .ok (.tfFlOnly 0b11 0b11 0x12345) ∧
    decodeWire .tf 0x6000 [0x6E, 0xF1, 0x23, 0x45] = .ok (.tfFull 0b01 0b101110 0xF 0x12345) ∧
    decodeWire .nh 0x6000 [0x3A] = .ok (.nhInline 0x3A) ∧
    decodeWire .nh 0x6400 [] = .ok .nhUdpNhc ∧
    decodeWire .hlim 0x6000 [42] = .ok (.hlimInline 42) ∧
    decodeWire .hlim 0x6100 [] = .ok .hlim1 ∧
    decodeWire .hlim 0x6200 [] = .ok .hlim64 ∧
    decodeWire .hlim 0x6300 [] = .ok .hlim255 :=
  ⟨rfl, rfl, rfl, rfl, rfl, rfl, rfl, rfl, rfl, rfl⟩

/-- Sixteen bytes, 1 to 16. -/
def bytes16 : List Byte := [1, 2, 3, 4, 5, 6, 7, 8, 9, 10, 11, 12, 13, 14, 15, 16]

-- R68: SAC is bit 6, SAM bits 5:4 of the IPHC word.
theorem test_decode_sources :
    decodeWire .src 0x6000 bytes16 =
      .ok (.srcFull ⟨⟨1, 2, 3, 4, 5, 6, 7, 8⟩, ⟨9, 10, 11, 12, 13, 14, 15, 16⟩⟩) ∧
    decodeWire .src 0x6010 bytes16 = .ok (.srcLl64 ⟨1, 2, 3, 4, 5, 6, 7, 8⟩) ∧
    decodeWire .src 0x6020 [0x0B, 0xCD] = .ok (.srcLl16 0x0B 0xCD) ∧
    decodeWire .src 0x6030 [] = .ok .srcLlMac ∧
    decodeWire .src 0x6040 [] = .ok .srcUnspec ∧
    decodeWire .src 0x6050 bytes16 = .ok (.srcCtx64 ⟨1, 2, 3, 4, 5, 6, 7, 8⟩) ∧
    decodeWire .src 0x6060 [0x0B, 0xCD] = .ok (.srcCtx16 0x0B 0xCD) ∧
    decodeWire .src 0x6070 [] = .ok .srcCtxMac ∧
    decodeWire .src 0x6010 [1, 2, 3] = .error (.tooShort .src) :=
  ⟨rfl, rfl, rfl, rfl, rfl, rfl, rfl, rfl, rfl⟩

-- R70: M is bit 3, DAC bit 2, DAM bits 1:0 of the IPHC word.
theorem test_decode_destinations :
    decodeWire .dst 0x6000 bytes16 =
      .ok (.dstFull ⟨⟨1, 2, 3, 4, 5, 6, 7, 8⟩, ⟨9, 10, 11, 12, 13, 14, 15, 16⟩⟩) ∧
    decodeWire .dst 0x6001 bytes16 = .ok (.dstLl64 ⟨1, 2, 3, 4, 5, 6, 7, 8⟩) ∧
    decodeWire .dst 0x6002 [0x0B, 0xCD] = .ok (.dstLl16 0x0B 0xCD) ∧
    decodeWire .dst 0x6003 [] = .ok .dstLlMac ∧
    decodeWire .dst 0x6004 [] = .ok .dstReservedDac1Dam00 ∧
    decodeWire .dst 0x6005 bytes16 = .ok (.dstCtx64 ⟨1, 2, 3, 4, 5, 6, 7, 8⟩) ∧
    decodeWire .dst 0x6006 [0x0B, 0xCD] = .ok (.dstCtx16 0x0B 0xCD) ∧
    decodeWire .dst 0x6007 [] = .ok .dstCtxMac ∧
    decodeWire .dst 0x6008 bytes16 =
      .ok (.dstMcFull ⟨⟨1, 2, 3, 4, 5, 6, 7, 8⟩, ⟨9, 10, 11, 12, 13, 14, 15, 16⟩⟩) ∧
    decodeWire .dst 0x6009 bytes16 = .ok (.dstMc48 1 2 3 4 5 6) ∧
    decodeWire .dst 0x600A bytes16 = .ok (.dstMc32 1 2 3 4) ∧
    decodeWire .dst 0x600B bytes16 = .ok (.dstMc8 1) ∧
    decodeWire .dst 0x600E [] = .ok (.dstReservedM1Dac1 0b10) :=
  ⟨rfl, rfl, rfl, rfl, rfl, rfl, rfl, rfl, rfl, rfl, rfl, rfl, rfl⟩

-- R80 to R82, R95.
theorem test_decode_nhc :
    decodeWire .nhc 0 [0b11110000, 0x04, 0xD2, 0x16, 0x33, 0x20, 0xF7] =
      .ok (.udpNhcFullPorts 1234 5683 (some 0x20F7)) ∧
    decodeWire .nhc 0 [0b11110100, 0x04, 0xD2, 0x16, 0x33] =
      .ok (.udpNhcFullPorts 1234 5683 none) ∧
    decodeWire .nhc 0 [0b11110011, 0xF0, 0x12, 0x34] =
      .ok (.udpNhcNibblePorts 15 0 (some 0x1234)) ∧
    decodeWire .nhc 0 [0b11110111, 0x0F] = .ok (.udpNhcNibblePorts 0 15 none) ∧
    decodeWire .nhc 0 [0b11110001] = .ok (.udpNhcP01 false) ∧
    decodeWire .nhc 0 [0b11110110] = .ok (.udpNhcP10 true) ∧
    decodeWire .nhc 0 [0b11100000] = .ok (.nhcOther 0b11100000) :=
  ⟨rfl, rfl, rfl, rfl, rfl, rfl, rfl⟩

-- The words of spec/opcode_table.json reach the same decoder (log 6).
theorem test_decodeTableWord :
    decodeTableWord 8 0x20 = some .encode ∧ decodeTableWord 8 0x7F = some (.iphc true true true 3) ∧
    decodeTableWord 16 0x7A3B =
      some (.iphcWord true true false 0b10 false false 0b11 true false 0b11) ∧
    decodeTableWord 32 0xC0481234 = some (.frag1Hdr 72 0x1234) ∧
    decodeTableWord 40 0xE048123407 = some (.fragnHdr 72 0x1234 7) ∧
    decodeTableWord 8 0xF3 = some (.udpNhcNibblePorts 0 0 (some 0)) := by decide

-- R270, log 1: a placed table word is what the next step runs.
theorem test_withFetchWord :
    step (State.reset.withFetchWord 8 0x07) = .next (after .payloadlen State.reset) := rfl

/-! ## Buffers -/

/-- The frame of V20. -/
def v20 : State := frame [0xC0, 0x64, 0x12, 0x34]

-- V20.
theorem test_setbytes :
    result (.setbytes [0xC0, 0x64]) { v20 with cur := 3 } = gives 0 0 0 [] ∧
    bufBytes (after (.setbytes [0xC0, 0x64]) { v20 with cur := 3 }).fb = [0xC0, 0x64] ∧
    (after (.setbytes [0xC0, 0x64]) { v20 with cur := 3 }).cur = 0 := by decide +kernel
-- V20.
theorem test_getbyte :
    result (.getbyte 3) v20 = gives 0 0x34 0 [] ∧ result (.getbyte 4) v20 = gives 0x12 0 0 [] ∧
    (after (.getbyte 4) v20).flags = 1 ∧
    result (.getbyte 0x10000) v20 = gives 0x2D 0 0 [] := by decide +kernel
-- V20.
theorem test_get16 :
    result (.get16 0) v20 = gives 0 0xC064 0 [] ∧
    result (.get16 3) v20 = gives 0x12 0x3400 0 [] := by decide +kernel
-- V20.
theorem test_get24 :
    result (.get24 1) v20 = gives 0 0x641234 0 [] ∧
    result (.get24 2) v20 = gives 0x12 0x123400 0 [] := by decide +kernel
-- V21.
theorem test_incpos :
    result (.incpos 4) v20 = gives 0 4 0 [] ∧
    result (.incpos 0xFFFFFFFB) { v20 with cur := 5 } = gives 0 0 0 [] ∧
    result (.incpos 0xFFFFFFFF) v20 = gives 0x2D 0 0 [] ∧
    result (.incpos 0xFFFF) v20 = gives 0 0xFFFF 0 [] ∧
    result (.incpos 1) { v20 with cur := 0xFFFF } = gives 0x2D 0 0 [] := by decide +kernel
-- V21.
theorem test_payloadlen :
    result .payloadlen { v20 with cur := 4 } = gives 0 0 0 [] ∧
    result .payloadlen { v20 with cur := 5 } = gives 0 0xFFFFFFFF 0 [] := by decide +kernel
-- V22.
theorem test_copyout :
    bufBytes (after (.copyout 1 1 2) { frame [1, 2, 3] with pb := bufOf [0xAA] }).pb =
      [0xAA, 2, 3] ∧
    bufBytes (after (.copyout 2 3 2) { frame [1, 2, 3] with pb := bufOf [0xAA, 2, 3] }).pb =
      [0xAA, 2, 3, 3, 0] ∧
    result (.copyout 2 3 2) { frame [1, 2, 3] with pb := bufOf [0xAA, 2, 3] } =
      gives 0x12 0 0 [] := by decide +kernel
-- V22.
theorem test_copyout_refused :
    result (.copyout 0 7 1) { frame [1] with pb := bufOf [1, 2, 3, 4, 5] } = gives 0x2D 0 0 [] ∧
    result (.copyout 0 0 0) { frame [1] with pb := bufOf [1] } = gives 0 0 0 [] := by
  decide +kernel
-- V24.
theorem test_setattr :
    (after (.setattr 2 1 7 []) start).pktType = ⟨true, 7⟩ ∧
    result (.setattr 0 1 0 [0x00, 0x50, 0xC4]) start = gives 0x2D 0 0 [] ∧
    result (.setattr 3 1 0 []) start = gives 0x2D 0 0 [] ∧
    (after (.setattr 1 1 0 (octBytes l2)) start).linkDst = ⟨true, l2⟩ := by decide +kernel
-- R119 (example), V24.
theorem test_getattr :
    result (.getattr 0) start = gives 0 1 0 [0x00, 0x50, 0xC4, 0xFF, 0xFE, 0x04, 0x00, 0x01] ∧
    result (.getattr 1) start = gives 0 0 0 [0, 0, 0, 0, 0, 0, 0, 0] ∧
    result (.getattr 2) { start with pktType := ⟨true, 7⟩ } = gives 0 1 7 [] := by decide +kernel
-- R120.
theorem test_pbLoad :
    bufBytes (after (.pbLoad [7, 8]) { start with pb := bufOf [1, 2, 3] }).pb = [7, 8] := by
  decide +kernel
-- V25.
theorem test_rdbuf :
    result (.rdbuf 0 1 2) (frame [1, 2, 3]) = gives 0 0 0 [2, 3] ∧
    result (.rdbuf 0 2 2) (frame [1, 2, 3]) = gives 0x2D 0 0 [] ∧
    result (.rdbuf 0 3 0) (frame [1, 2, 3]) = gives 0 0 0 [] ∧
    result (.rdbuf 3 0 0) (frame [1, 2, 3]) = gives 0x2D 0 0 [] := by decide +kernel

/-! ## The context table, the header model -/

/-- The table of V26: slots 3 and 5 hold PFX. -/
def v26 : State := withCtx 5 pfx (withCtx 3 pfx start)

-- V26.
theorem test_ctxSet :
    ctxSlot (after (.ctxSet 3 (octBytes pfx)) start).ctx 3 = ⟨true, pfx⟩ ∧
    result (.ctxSet 16 (octBytes pfx)) start = gives 0x24 0 0 [] ∧
    result (.ctxSet 0 [0x20, 0x01]) start = gives 0x2D 0 0 [] := by decide +kernel
-- V26.
theorem test_ctxLookup :
    result (.ctxLookup (addrBytes ⟨pfx, ⟨0, 0, 0, 0, 0, 0, 0, 1⟩⟩)) start = gives 0 0 0 [] ∧
    result (.ctxLookup (addrBytes ⟨pfx, ⟨0, 0, 0, 0, 0, 0, 0, 1⟩⟩)) v26 = gives 0 1 3 [] ∧
    result (.ctxLookup (addrBytes ⟨{ pfx with b7 := 0x7E }, Oct.zero⟩)) v26 = gives 0 0 0 [] := by
  decide +kernel
-- V26.
theorem test_ctxGet :
    result (.ctxGet 3) v26 = gives 0 1 0 [0x20, 0x01, 0x04, 0x20, 0x5F, 0xFF, 0x00, 0x7D] ∧
    result (.ctxGet 4) v26 = gives 0 0 0 [0, 0, 0, 0, 0, 0, 0, 0] ∧
    result (.ctxGet 16) v26 = gives 0x24 0 0 [] := by decide +kernel
-- V27.
theorem test_hmWr :
    result (.hmWr 1 0x100 []) start = gives 0x2D 0 0 [] ∧
    result (.hmWr 2 0xFFFFF []) start = gives 0 0 0 [] ∧
    result (.hmWr 2 0x100000 []) start = gives 0x2D 0 0 [] ∧
    result (.hmWr 0 6 []) start = gives 0x2D 0 0 [] ∧
    result (.hmWr 7 1 []) start = gives 0x2D 0 0 [] ∧
    result (.hmWr 12 0 []) start = gives 0x2D 0 0 [] := by decide +kernel
-- V27: writing the checksum marks it present.
theorem test_hmWr_checksum :
    (after (.hmWr 10 0xA337 []) start).hm = { HM.reset with csum := 0xA337, csumInline := true } := by
  decide +kernel
-- V27.
theorem test_hmRd :
    result (.hmRd 0) start = gives 0 6 0 [] ∧ result (.hmRd 7) start = gives 0 0 0 [] ∧
    result (.hmRd 5) start = gives 0 0 0 (List.replicate 16 0) ∧
    result (.hmRd 9) send1 = gives 0 0xF0B0 0 [] ∧
    result (.hmRd 6) send1 = gives 0 0 0 [0xFF, 2, 0, 0, 0, 0, 0, 0, 0, 0, 0, 0, 0, 0, 0, 1] := by
  decide +kernel
-- V27: OPAQUE keeps NH.
theorem test_setpayload :
    (after (.setpayload 2) start).hm.nh = 58 ∧ (after (.setpayload 3) send1).hm.nh = 0 ∧
    (after (.setpayload 4) { start with hm := { hm1 with nh := 99 } }).hm.nh = 99 ∧
    result (.setpayload 0) start = gives 0x2D 0 0 [] ∧
    result (.setpayload 5) start = gives 0x2D 0 0 [] := by decide +kernel

/-! ## The encoder -/

-- V1, V50.
theorem test_encode :
    result .encode send1 = gives 0 7 12 [] ∧ bufBytes (after .encode send1).ob = frame1 ∧
    result .encode { send1 with hm := { hm1 with csum := 0 } } = gives 0x11 7 12 [] := by
  decide +kernel

-- V2, V31 to V37.
theorem test_encoder_fields :
    header { hm2 with hlim := 42 } start = [0x78, 0x3B, 0x3A, 0x2A, 0x01] ∧
    header { hm2 with hlim := 1 } start = [0x79, 0x3B, 0x3A, 0x01] ∧
    header { hm2 with tc := 0xB9 } start = [0x6A, 0x3B, 0x6E, 0x3A, 0x01] ∧
    header { hm2 with fl := 0x12345 } start = [0x72, 0x3B, 0x01, 0x23, 0x45, 0x3A, 0x01] ∧
    header { hm2 with tc := 0x02, fl := 1 } start =
      [0x62, 0x3B, 0x80, 0x00, 0x00, 0x01, 0x3A, 0x01] ∧
    header { hm2 with src := Addr.zero } start = [0x7A, 0x4B, 0x3A, 0x01] := by decide +kernel

-- V38 to V40, V42.
theorem test_encoder_unicast :
    header { hm2 with src := ⟨pfx, s1.iid⟩ } (withCtx 0 pfx start) =
      [0x7A, 0xFB, 0x00, 0x3A, 0x01] ∧
    header { hm2 with dst := ⟨ll, ⟨0, 0x50, 0xC4, 0xFF, 0xFE, 4, 0, 2⟩⟩ }
      { start with linkDst := ⟨true, l2⟩ } = [0x7A, 0x33, 0x3A] ∧
    header { hm2 with dst := ⟨ll, ⟨0, 0x50, 0xC4, 0xFF, 0xFE, 4, 0, 2⟩⟩ } start =
      [0x7A, 0x31, 0x3A, 0x00, 0x50, 0xC4, 0xFF, 0xFE, 0x04, 0x00, 0x02] ∧
    header { hm2 with
        src := ⟨pfx, ⟨0, 0, 0, 0, 0, 0, 0, 1⟩⟩
        dst := ⟨pfx2, ⟨0x00, 0xAB, 0xCD, 0xEF, 0x12, 0x34, 0x56, 0x78⟩⟩ }
      (withCtx 2 pfx2 (withCtx 1 pfx start)) =
      [0x7A, 0xE5, 0x12, 0x3A, 0x00, 0x01, 0x00, 0xAB, 0xCD, 0xEF, 0x12, 0x34, 0x56, 0x78] := by
  decide +kernel

-- V45 to V48.
theorem test_encoder_multicast :
    header hm2 (withCtx 3 ⟨0xFF, 2, 0, 0, 0, 0, 0, 0⟩ start) = [0x7A, 0xBB, 0x03, 0x3A, 0x01] ∧
    header { hm2 with dst := ⟨⟨0xFF, 2, 0, 1, 0, 0, 0, 0⟩, ⟨0, 0, 0, 0, 0, 0, 0, 1⟩⟩ } start =
      [0x7A, 0x38, 0x3A, 0xFF, 2, 0, 1, 0, 0, 0, 0, 0, 0, 0, 0, 0, 0, 0, 1] ∧
    header { hm2 with dst := ⟨⟨0xFF, 2, 0, 0, 0, 0, 0, 0⟩, ⟨0, 0, 0, 1, 0xFF, 0, 0, 1⟩⟩ } start =
      [0x7A, 0x39, 0x3A, 0x02, 0x01, 0xFF, 0x00, 0x00, 0x01] ∧
    header { hm2 with dst := ⟨⟨0xFF, 1, 0, 0, 0, 0, 0, 0⟩, ⟨0, 0, 0, 0, 0, 0, 0, 1⟩⟩ } start =
      [0x7A, 0x3A, 0x3A, 0x01, 0x00, 0x00, 0x01] := by decide +kernel

-- V49.
theorem test_encode_refused :
    result .encode { send1 with hm := { hm1 with nh := 6 } } = gives 0x25 0 0 [] ∧
    result .encode start = gives 0x25 0 0 [] := by decide +kernel

/-! ## The decoder -/

-- R180 (examples), V23.
theorem test_classify :
    result .classify (frame frame1) = gives 0 2 0 [] ∧
    result .classify (frame f1) = gives 0 3 0 [] ∧
    result .classify (frame f2) = gives 0 4 0 [] ∧
    result .classify (frame [0x41, 0x60]) = gives 0 1 0 [] ∧
    result .classify (frame []) = gives 0x12 0 0 [] := by decide +kernel

-- V1.
theorem test_decode :
    result .decode (frame frame1) = gives 0 48 7 [] ∧
    (after .decode (frame frame1)).hm = hm1 ∧ (after .decode (frame frame1)).cur = 7 := by
  decide +kernel

-- V61, V72, V73: the advisories and their flags.
theorem test_decode_advisories :
    result .decode (frame [0x7F, 0x3B, 0x01, 0xF1, 0x00, 0xA3, 0x37]) = gives 0x10 40 3 [] ∧
    (after .decode (frame [0x7F, 0x3B, 0x01, 0xF1, 0x00, 0xA3, 0x37])).flags = 4 ∧
    result .decode (frame [0x7F, 0x3B, 0x01, 0xF3]) = gives 0x12 48 7 [] ∧
    (after .decode (frame [0x7F, 0x3B, 0x01, 0xF3])).hm.csumInline = true ∧
    (after .decode (frame [0x7F, 0x3B])).flags = 5 := by decide +kernel

-- V64 to V69.
theorem test_decode_refused :
    (after .decode (frame [0x41, 0x60, 0, 0])).status = 0x21 ∧
    (after .decode (frame [0x7A, 0x3F, 0x3A, 1])).status = 0x22 ∧
    (after .decode (frame [0x7A, 0x34, 0x3A])).errpos = 1 ∧
    (after .decode (frame [0x7A, 0xDB, 0x50, 0x3A, 0, 0, 0, 0, 0, 0, 0xAB, 0xCD, 1])).status = 0x20 ∧
    (after .decode { frame [0x7A, 0x3B, 0x3A, 1] with linkSrc := ⟨false, l1⟩ }).status = 0x23 := by
  decide +kernel

/-! ## The header rows, one step each -/

-- R180, V64, R238: the dispatch rows as each command takes them.
theorem test_dispatch_rows :
    result .uncompIpv6 (reading .classify 0) = gives 0 1 0 [] ∧
    result .uncompIpv6 (reading .decode 0) = gives 0x21 0 0 [] ∧
    result (.iphc true true true 3) (reading .classify 0) = gives 0 2 0 [] ∧
    result (.frag1 0) (reading .classify 0) = gives 0 3 0 [] ∧
    result (.fragn 0) (reading .classify 0) = gives 0 4 0 [] ∧
    result (.other 0x00) (reading .reasm 0) = gives 1 0 0 [] ∧
    (after (.frag1 0) (reading .reasm 0)).walk.slot = some .frag1Hdr := by decide +kernel

-- R62 (byte 0 0x7A, byte 1 0xDB of V67), R67.
theorem test_word_and_cid_rows :
    (after (.iphcWord true true false 0b10 true true 0b01 true false 0b11)
      (reading .decode 0)).walk.w = 0x7ADB ∧
    (after (.iphcWord true true false 0b10 true true 0b01 true false 0b11)
      (reading .decode 0)).walk.slot = some .cid ∧
    (after (.cidByte 5 0) (reading .decode 0)).walk.sci = 5 ∧
    (after (.cidByte 5 0) (reading .decode 0)).walk.pos = 3 := by decide +kernel

-- R64, V32, V70, V71.
theorem test_tf_rows :
    (after .tfElided (reading .decode 0)).walk.cand.tc = 0 ∧
    (after (.tfTcOnly 0b01 0b101110) (reading .decode 0)).walk.cand.tc = 0xB9 ∧
    (after (.tfFlOnly 0b11 0b11 0x12345) (reading .decode 0)).walk.cand.tc = 0x03 ∧
    (after (.tfFull 0b01 0b101110 0xF 0x12345) (reading .decode 0)).walk.cand.tc = 0xB9 ∧
    (after (.tfFull 0b01 0b101110 0xF 0x12345) (reading .decode 0)).walk.cand.fl = 0x12345 := by
  decide +kernel

-- R65, R66.
theorem test_nh_hlim_rows :
    (after (.nhInline 58) (reading .decode 0)).walk.cand.nh = 58 ∧
    (after .nhUdpNhc (reading .decode 0)).walk.cand.nh = 17 ∧
    (after (.hlimInline 42) (reading .decode 0)).walk.cand.hlim = 42 ∧
    (after .hlim1 (reading .decode 0)).walk.cand.hlim = 1 ∧
    (after .hlim64 (reading .decode 0)).walk.cand.hlim = 64 ∧
    (after .hlim255 (reading .decode 0)).walk.cand.hlim = 255 := by decide +kernel

-- R68, R69, V1 (S1 from L1), V6, V67, V69.
theorem test_source_rows :
    (after (.srcFull d1) (reading .decode 0)).walk.cand.src = d1 ∧
    (after (.srcLl64 s1.iid) (reading .decode 0)).walk.cand.src = s1 ∧
    (after (.srcLl16 0 1) (reading .decode 0)).walk.cand.src = ⟨ll, ⟨0, 0, 0, 0, 0, 0, 0, 1⟩⟩ ∧
    (after .srcLlMac (reading .decode 0)).walk.cand.src = s1 ∧
    (after .srcUnspec (reading .decode 0)).walk.cand.src = Addr.zero ∧
    (after (.srcCtx16 0x0B 0xCD) (withCtx 0 pfx (reading .decode 0))).walk.cand.src =
      ⟨pfx, ⟨0, 0, 0, 0, 0, 0, 0x0B, 0xCD⟩⟩ ∧
    (after .srcCtxMac (withCtx 0 pfx (reading .decode 0))).walk.cand.src = ⟨pfx, s1.iid⟩ ∧
    (after (.srcCtx64 s1.iid) (reading .decode 0)).status = 0x20 := by decide +kernel

-- R70, V1 (the byte 01 gives ff02::1), V7, V8, V39, V42.
theorem test_destination_rows :
    (after (.dstMc8 1) (reading .decode 0x0400)).walk.cand.dst = d1 ∧
    (after (.dstMc32 0x1E 1 2 3) (reading .decode 0x0400)).walk.cand.dst =
      ⟨⟨0xFF, 0x1E, 0, 0, 0, 0, 0, 0⟩, ⟨0, 0, 0, 0, 0, 1, 2, 3⟩⟩ ∧
    (after (.dstMc48 0x1E 1 2 3 4 5) (reading .decode 0x0400)).walk.cand.dst =
      ⟨⟨0xFF, 0x1E, 0, 0, 0, 0, 0, 0⟩, ⟨0, 0, 0, 1, 2, 3, 4, 5⟩⟩ ∧
    (after (.dstMcFull s1) (reading .decode 0)).hm.dst = s1 ∧
    (after (.dstFull s1) (reading .decode 0)).hm.dst = s1 ∧
    (after (.dstLl64 s1.iid) (reading .decode 0)).hm.dst = s1 ∧
    (after (.dstLl16 0 2) (reading .decode 0)).hm.dst = ⟨ll, ⟨0, 0, 0, 0, 0, 0, 0, 2⟩⟩ := by
  decide +kernel

-- R70, R95, V39, V65, V66.
theorem test_destination_rows_context :
    (after .dstLlMac { reading .decode 0 with linkDst := ⟨true, l2⟩ }).hm.dst =
      ⟨ll, ⟨0x00, 0x50, 0xC4, 0xFF, 0xFE, 0x04, 0x00, 0x02⟩⟩ ∧
    (after (.dstCtx64 s1.iid) (withCtx 0 pfx (reading .decode 0))).hm.dst = ⟨pfx, s1.iid⟩ ∧
    (after (.dstCtx16 0 2) (withCtx 0 pfx (reading .decode 0))).hm.dst =
      ⟨pfx, ⟨0, 0, 0, 0, 0, 0, 0, 2⟩⟩ ∧
    (after .dstCtxMac (withCtx 0 pfx (reading .decode 0))).status = 0x23 ∧
    (after .dstReservedDac1Dam00 (reading .decode 0)).status = 0x22 ∧
    (after (.dstReservedM1Dac1 3) (reading .decode 0)).errpos = 1 := by decide +kernel

-- R81, R82, R200, R207, V10, V60, V61 to V63.
theorem test_nhc_rows :
    (after (.udpNhcFullPorts 1234 5683 (some 0x20F7)) (reading .decode 0)).hm.dport = 5683 ∧
    result (.udpNhcFullPorts 1234 5683 (some 0x20F7)) (reading .decode 0) = gives 0 48 9 [] ∧
    (after (.udpNhcNibblePorts 15 0 none) (reading .decode 0)).hm.sport = 0xF0BF ∧
    (after (.udpNhcNibblePorts 15 0 none) (reading .decode 0)).hm.csumInline = false ∧
    result (.udpNhcP01 false) (reading .decode 0) = gives 0x10 40 2 [] ∧
    result (.udpNhcP10 true) (reading .decode 0) = gives 0x10 40 2 [] ∧
    result (.nhcOther 0xE0) (reading .decode 0) = gives 0x10 40 2 [] := by decide +kernel

-- R90, R91, V97, V44.
theorem test_fragment_header_rows :
    (after (.frag1Hdr 72 0x1234) { reading .reasm 0 with fb := bufOf f1 }).walk.size = 72 ∧
    (after (.frag1Hdr 72 0x1234) { reading .reasm 0 with fb := bufOf [0xC0, 0x48, 0x12] }).status =
      0x2B ∧
    result (.fragnHdr 72 0x1234 7) { reading .reasm 0 with fb := bufOf f2 } = gives 2 0 0 [] := by
  decide +kernel

/-! ## Reassembly -/

-- V44: the first fragment waits, the second completes the 31-byte frame.
theorem test_reasm :
    result (.reasm 100) (frame f1) = gives 2 0 0 [] ∧
    result (.reasm 101) (then2 f2) = gives 3 0 0 [] ∧
    bufBytes (after (.reasm 101) (then2 f2)).fb = f1.drop 4 ++ f2.drop 5 ∧
    (after (.reasm 101) (then2 f2)).cur = 0 := by decide +kernel

-- P2 line 8, V90, V91, V92, V95.
theorem test_reasm_no_store :
    result (.reasm 110) (then2 f1) = gives 4 0 0 [] ∧
    (after (.reasm 101) (then2 (0xE0 :: 0x49 :: f2.drop 2))).status = 0x27 ∧
    (after (.reasm 101) (then2 ([0xE0, 0x48, 0x12, 0x34, 0x0E] ++ f2.drop 5))).status = 0x28 ∧
    (after (.reasm 102) (then2 (f2 ++ [0x59]))).status = 0x27 ∧
    (after (.reasm 2100) (then2 [0x7F, 0x3B, 0x01])).flags = 0 ∧
    (after (.reasm 2101) (then2 [0x7F, 0x3B, 0x01])).flags = 8 := by decide +kernel

/-- One context created at a time (V98). -/
def v98 (t : BitVec 32) : State := after (.reasm t) (frame f2)

-- V98.
theorem test_sweep :
    result (.sweep 3000) (v98 1000) = gives 0 0 0 [] ∧
    result (.sweep 3001) (v98 1000) = gives 0 1 0 [] ∧
    result (.sweep 0x6D0) (v98 0xFFFFFF00) = gives 0 0 0 [] ∧
    result (.sweep 0x6D1) (v98 0xFFFFFF00) = gives 0 1 0 [] ∧
    result (.sweep 4999) (v98 5000) = gives 0 1 0 [] := by decide +kernel

-- R31: other parameters are other inputs. A capacity of 1 refuses two bytes; an age limit of 10 ms
-- evicts what 2000 ms keeps; a buffer of 4 bytes refuses a fragment of 5 that TOTAL allows.
theorem test_parametersAreInputs :
    (setbytesState { Config.params with fbCap := 1 } [1, 2] start).status = 0x2D ∧
    (setbytesState Config.params [1, 2] start).status = 0x00 ∧
    (sweepAnswer { Config.params with maxAgeMs := 10 } 1011 (v98 1000)).res0 = 1 ∧
    (sweepAnswer Config.params 1011 (v98 1000)).res0 = 0 ∧
    pieceCheck ⟨false, 0, [1, 2, 3, 4, 5], 0⟩ (newContext l1 7 8 0 1)
      { Config.params with fragBufCap := 4 } = some ⟨.fragOverflow, 0⟩ ∧
    pieceCheck ⟨false, 0, [1, 2, 3, 4, 5], 0⟩ (newContext l1 7 8 0 1) = none := by decide +kernel

-- R31: with CUR_W 8 the cursor stops at 255; with TIME_W 8 the time 260 is 4, and its age from 250
-- is 10; with FRAG_SLOTS 1 there is no second slot to take or to read.
theorem test_widthsAndSlotsAreInputs :
    (incposState { Config.params with curW := 8 } 256 start).status = 0x2D ∧
    (incposState { Config.params with curW := 8 } 255 start).cur = 255 ∧
    (incposState Config.params 256 start).cur = 256 ∧
    timeOf { Config.params with timeW := 8 } 260 = 4 ∧
    (sweepAnswer { Config.params with timeW := 8, maxAgeMs := 9 } 4 (v98 250)).res0 = 1 ∧
    (sweepAnswer { Config.params with timeW := 8, maxAgeMs := 10 } 4 (v98 250)).res0 = 0 ∧
    freeSlot (v98 1000) { Config.params with fragSlots := 1 } = none ∧
    freeSlot (v98 1000) = some 1 ∧
    (fragStatState { Config.params with fragSlots := 1 } 1 (v98 1000)).status = 0x24 ∧
    (fragStatState Config.params 1 (v98 1000)).status = 0x00 := by decide +kernel

-- P2 line 6, V97.
theorem test_fragStat :
    result (.fragStat 0) half =
      gives 0 0x12342901 0x00380048 [0, 0x50, 0xC4, 0xFF, 0xFE, 4, 0, 1, 0, 0, 0, 0x64, 0, 1] ∧
    result (.fragStat 1) half = gives 0 0 0 (List.replicate 14 0) ∧
    result (.fragStat 4) half = gives 0x24 0 0 [] := by decide +kernel

/-! ## Checksums -/

-- V80, V81.
theorem test_oc_add_and_fold :
    ocAdd 0xFFFE 0x0001 = 0xFFFF ∧ ocAdd 0xFFFF 0x0001 = 0x0001 ∧ ocAdd 0x8000 0x8000 = 0x0001 ∧
    ocAdd 0xFFFF 0xFFFF = 0xFFFF ∧ foldSum 0 [0x12] = 0x1200 ∧ foldSum 0 [1, 2, 3, 4, 5] = 0x0906 ∧
    foldSum 0 [0xFF, 0xFF, 0, 1] = 1 := by decide +kernel

-- V82, V84.
theorem test_csumPseudo :
    result (.csumPseudo 17 13 (addrBytes s1 ++ addrBytes d1)) start = gives 0 0xC2F8 0 [] ∧
    result (.csumPseudo 256 0 (List.replicate 32 0)) start = gives 0x2D 0 0 [] ∧
    result (.csumPseudo 17 0 (List.replicate 31 0)) start = gives 0x2D 0 0 [] := by decide +kernel

/-- The payload of V82, with SUM as CSUM_PSEUDO left it. -/
def v82 : State :=
  { start with
    sum := 0xC2F8
    pb := bufOf ([0xF0, 0xB0, 0xF0, 0xB0, 0x00, 0x0D, 0x00, 0x00] ++ text) }

-- V82.
theorem test_csumFold :
    result (.csumFold 0 8) v82 = gives 0 0xA467 0 [] ∧
    result (.csumFold 0 13) v82 = gives 0 0x5CC8 0 [] ∧
    result (.csumFold 12 2) v82 = gives 0x2D 0 0 [] := by decide +kernel
-- V82.
theorem test_csumFinal :
    result .csumFinal { start with sum := 0x5CC8 } = gives 0 0xA337 0 [] := by decide +kernel
-- V30, V85.
theorem test_udpCsum :
    result .udpCsum { send1 with hm := { hm1 with csum := 0 } } = gives 0 0xA337 0 [] ∧
    (after .udpCsum { send1 with hm := { hm1 with csum := 0 } }).hm = hm1 ∧
    (after .udpCsum start).status = 0x25 := by decide +kernel
-- V1, V86, V60.
theorem test_udpVerify :
    result .udpVerify (after .decode (frame frame1)) = gives 0 0xA337 0xA337 [] ∧
    result .udpVerify (after .decode (frame (frame1.set 11 0x33))) = gives 0x11 0xA237 0xA337 [] ∧
    result .udpVerify (after .decode (frame ([0x7F, 0x3B, 0x01, 0xF7, 0x00] ++ text))) =
      gives 0 0xA337 0xA337 [] := by decide +kernel

/-! ## The system commands -/

-- V99, R271.
theorem test_reset :
    (after .reset half).frag.toList.all (fun f => !f.valid) = true ∧
    (after .reset send1).hm = HM.reset ∧ result .reset send1 = gives 0 0 0 [] := by decide +kernel
-- V99.
theorem test_clrflags :
    result (.clrflags 0x8) { start with flags := 9 } = gives 0 1 0 [] ∧
    result (.clrflags 0x10) start = gives 0x2D 0 0 [] := by decide +kernel
-- P3 line 6, V95.
theorem test_rdstatus :
    result .rdstatus { start with status := 0x20, errpos := 1 } = gives 0 0x00010020 0 [] ∧
    result .rdstatus { start with status := 1, flags := 8, evictCount := 1 } =
      gives 0 0x00000801 1 [] := by decide +kernel

/-! ## Witnesses: concrete states and operands that meet the hypotheses of each statement -/

/-- The state after reset with a tuple at the port. -/
def presented (op : BitVec 8) : State := { State.reset with host := [⟨op, 1, 2, 3, []⟩] }

theorem witness_StepRunsTheInstructionAtHand :
    ((presented 0x07).walk.slot = none ∧ (presented 0x07).host = ⟨0x07, 1, 2, 3, []⟩ :: [] ∧
      decodeCommand ⟨0x07, 1, 2, 3, []⟩ = .ok .payloadlen) ∧
    ((reading .decode 0).walk.slot = some .dispatch ∧
      decodeWire .dispatch (reading .decode 0).walk.w
        (rdb (reading .decode 0) (reading .decode 0).walk.pos 24) = .ok (.other 0)) ∧
    (State.reset.walk.slot = none ∧ State.reset.host = []) :=
  ⟨⟨rfl, rfl, rfl⟩, ⟨rfl, rfl⟩, rfl, rfl⟩

theorem witness_UnknownOpcodeIsBadCommand :
    (presented 0x43).walk.slot = none ∧ (presented 0x43).host = ⟨0x43, 1, 2, 3, []⟩ :: [] ∧
    ∀ op ∈ [0x00#8, 0x0C#8, 0x43#8, 0xFF#8],
      op ∉ [0x01#8, 0x02#8, 0x03#8, 0x04#8, 0x05#8, 0x06#8, 0x07#8, 0x08#8, 0x09#8, 0x0A#8,
        0x0B#8, 0x10#8, 0x11#8, 0x12#8, 0x18#8, 0x19#8, 0x1A#8, 0x20#8, 0x28#8, 0x29#8, 0x30#8,
        0x31#8, 0x32#8, 0x38#8, 0x39#8, 0x3A#8, 0x3B#8, 0x3C#8, 0x40#8, 0x41#8, 0x42#8] :=
  ⟨rfl, rfl, by decide⟩

/-- A frame whose source needs a context that is not there. -/
def noCtx : State := frame [0x7A, 0x6B, 0x3A, 0x0B, 0xCD, 0x01]

/-- MISSING_CONTEXT is the least of the hard errors. -/
theorem witness_HardErrorsChangeNothing :
    isCommand .decode = true ∧ exec .decode noCtx = .next (after .decode noCtx) ∧
    (after .decode noCtx).resp = some ⟨0x20, 0, 0, []⟩ ∧ 0x20 ≤ (0x20#8).toNat := by
  refine ⟨rfl, rfl, ?_, by decide⟩
  decide +kernel

theorem witness_FlagsAreSticky :
    clearsFlags .decode = false ∧ exec .decode noCtx = .next (after .decode noCtx) := ⟨rfl, rfl⟩

theorem witness_EveryInstructionKeepsTheRest :
    exec (.reasm 101) (then2 f2) = .next (after (.reasm 101) (then2 f2)) := rfl

theorem witness_LoadsReplaceTheBuffer :
    (List.replicate 2048 (0 : Byte)).length ≤ 2048 ∧
    2048 < (List.replicate 2049 (0 : Byte)).length :=
  ⟨le_of_eq List.length_replicate, lt_of_lt_of_eq (by omega) List.length_replicate.symm⟩

theorem witness_FrameReadsAreTolerant :
    (0xFFFF : BitVec 32).toNat ≤ 0xFFFF ∧ 0xFFFF < (0x10000 : BitVec 32).toNat := by decide

/-- A payload buffer of five bytes. -/
def five : State := { start with pb := bufOf text }

theorem witness_CopyoutFillsPayloadBytes :
    ((0xFFFF : BitVec 32).toNat ≤ 0xFFFF ∧ (5 : BitVec 32).toNat ≤ five.pb.len ∧
      (5 : BitVec 32).toNat + (2043 : BitVec 32).toNat ≤ 2048) ∧
    0xFFFF < (0x10000 : BitVec 32).toNat ∧ five.pb.len < (6 : BitVec 32).toNat ∧
    2048 < (5 : BitVec 32).toNat + (2044 : BitVec 32).toNat := by decide

theorem witness_IncposMovesTheCursor :
    (0 ≤ (start.cur.toNat : Int) + (0 : BitVec 32).toInt ∧
      (start.cur.toNat : Int) + (0xFFFF : BitVec 32).toInt ≤ 0xFFFF) ∧
    (start.cur.toNat : Int) + (0xFFFFFFFF : BitVec 32).toInt < 0 ∧
    0xFFFF < (start.cur.toNat : Int) + (0x10000 : BitVec 32).toInt := by decide

theorem witness_PayloadLengthIsSigned : { start with fb := ⟨2048, []⟩ }.fb.len ≤ 2048 := by decide

theorem witness_SetattrWritesOneAttribute :
    (octBytes l1).length = 8 ∧ 2 < (3 : BitVec 32).toNat ∧ 1 < (2 : BitVec 32).toNat ∧
    ((1 : BitVec 32).toNat ≤ 1 ∧ (1 : BitVec 32) = 1 ∧ [(0 : Byte)].length ≠ 8) := by decide

theorem witness_GetattrReadsOneAttribute :
    start.linkSrc.valid = true ∧ State.reset.linkSrc.valid = false ∧
    { start with linkDst := ⟨true, l2⟩ }.linkDst.valid = true ∧ start.linkDst.valid = false ∧
    { start with pktType := ⟨true, 7⟩ }.pktType.valid = true ∧ start.pktType.valid = false ∧
    2 < (3 : BitVec 32).toNat := by decide

theorem witness_RdbufReturnsTheBytes :
    ((1 : BitVec 32) = 1 ∧ bufOf text = five.pb) ∧
    (2 : BitVec 32).toNat + (3 : BitVec 32).toNat ≤ five.pb.len ∧
    five.pb.len < (2 : BitVec 32).toNat + (4 : BitVec 32).toNat ∧
    2 < (3 : BitVec 32).toNat := by decide

theorem witness_CtxSetInstallsOneSlot :
    (octBytes pfx).length = 8 ∧ (15 : BitVec 32).toNat ≤ 15 ∧ [(0 : Byte)].length ≠ 8 ∧
    15 < (16 : BitVec 32).toNat := by decide

theorem witness_CtxLookupFindsTheFirstMatch :
    (addrBytes ⟨pfx, Oct.zero⟩).length = 16 ∧ ctxMatches v26 (addrBytes ⟨pfx, Oct.zero⟩) 3 ∧
    (∀ j, j < 3 → ¬ ctxMatches v26 (addrBytes ⟨pfx, Oct.zero⟩) j) ∧
    (∀ i, i < 16 → ¬ ctxMatches start (addrBytes ⟨pfx, Oct.zero⟩) i) ∧
    [(0 : Byte)].length ≠ 16 := by
  unfold ctxMatches
  decide +kernel

theorem witness_CtxGetReadsOneSlot :
    (15 : BitVec 32).toNat ≤ 15 ∧ (ctxSlot v26.ctx 3).valid = true ∧
    (ctxSlot v26.ctx 15).valid = false ∧ 15 < (16 : BitVec 32).toNat := by decide +kernel

theorem witness_HmWriteChangesOneField :
    (hmLimit (2 : BitVec 32).toNat = some 0xFFFFF ∧ (0xFFFFF : BitVec 32).toNat ≤ 0xFFFFF) ∧
    ((5 : BitVec 32) = 5 ∧ (addrBytes d1).length = 16) ∧
    (hmLimit (11 : BitVec 32).toNat = some 1 ∧ 1 < (2 : BitVec 32).toNat) ∧
    (hmLimit (0 : BitVec 32).toNat = none ∧ (0 : BitVec 32) ≠ 5 ∧ (0 : BitVec 32) ≠ 6) ∧
    hmLimit (7 : BitVec 32).toNat = none ∧ hmLimit (12 : BitVec 32).toNat = none := by decide

theorem witness_HmReadAnswersTheField : 11 < (12 : BitVec 32).toNat := by decide

theorem witness_SetpayloadFixesNextHeader :
    (0 : BitVec 32).toNat < 1 ∧ 4 < (5 : BitVec 32).toNat := by decide

/-- A model that OUTPUT_OVERFLOW refuses: PB longer than its capacity. -/
def tooLong : State := { start with hm := hm2, pb := ⟨2093, []⟩ }

theorem witness_EncodeWritesHeaderThenPayload :
    (accepted send1.hm ∧ (encodedHeader send1).length + send1.pb.len ≤ 2096) ∧
    (accepted { tooLong with pb := ⟨2092, []⟩ }.hm ∧
      (encodedHeader { tooLong with pb := ⟨2092, []⟩ }).length + 2092 ≤ 2096) ∧
    ¬ accepted start.hm ∧
    (accepted tooLong.hm ∧ 2096 < (encodedHeader tooLong).length + tooLong.pb.len) := by
  unfold accepted
  decide +kernel

/-- No slot matches either side; the source matches slot 5 before slot 7. -/
theorem witness_EncodedHeaderSaysWhatItCarries :
    (frame1.take 7 = encodedHeader send1 ∧ 0x7F = byteOf (frame1.take 7) 0 ∧
      0x3B = byteOf (frame1.take 7) 1 ∧ firstMatch send1 (addrBytes send1.hm.src) none ∧
      firstMatch send1 (addrBytes send1.hm.dst) none) ∧
    (∀ t, t = withCtx 7 Config.linkLocal (withCtx 5 Config.linkLocal send1) →
      0xFB = byteOf (encodedHeader t) 1 ∧ firstMatch t (addrBytes t.hm.src) (some 5) ∧
        firstMatch t (addrBytes t.hm.dst) none) := by
  unfold firstMatch ctxMatches
  refine ⟨by decide +kernel, ?_⟩
  rintro t rfl
  decide +kernel

theorem witness_DecodeRestoresWhatEncodeSent :
    accepted send1.hm ∧ (encodedHeader send1).length + send1.pb.len ≤ 2048 := by
  unfold accepted
  decide +kernel

theorem witness_EncodeAfterUdpCsumIsOk :
    send1.hm.pkind = .udp ∧ send1.hm.nh = 17 ∧ send1.pb.len ≤ 2048 := by decide

theorem witness_ClassifyNamesTheDispatchByte :
    (0x7F : Byte) = byteAt (frame frame1) (frame frame1).cur.toNat ∧
    (0x00 : Byte) = byteAt (frame []) (frame []).cur.toNat := by decide

theorem witness_DecodeCommitsOrRefuses :
    headerRefusal noCtx 0 = some (.missingContext, 1) ∧
    (headerRefusal (frame frame1) 0 = none ∧
      (frame frame1).cur.toNat + headerLen (frame frame1) 0 ≤ 0xFFFF) ∧
    (headerRefusal { frame [] with fb := ⟨0xFFFF, memOfFrom 0xFFFD [0x7E, 0x08]⟩, cur := 0xFFFD } 0 =
        none ∧
      0xFFFF < 0xFFFD +
        headerLen { frame [] with fb := ⟨0xFFFF, memOfFrom 0xFFFD [0x7E, 0x08]⟩, cur := 0xFFFD } 0) ∧
    (hasShell (frame [0x7F, 0x3B, 0x01, 0xF1]) 0 = false ∧
      headerRefusal (frame [0x7F, 0x3B, 0x01, 0xF1]) 0 = none) := by decide +kernel

theorem witness_DecodeRestoresTheFixedFields :
    headerRefusal (frame frame1) 0 = none ∧
    (frame frame1).cur.toNat + headerLen (frame frame1) 0 ≤ 0xFFFF ∧
    0x7F = rdByte (frame frame1) 0 ∧ 2 = (if (rdByte (frame frame1) 1).getLsbD 7 then 3 else 2) ∧
    2 = 2 + tfLen 0x7F ∧ 2 = 2 + (if (0x7F : Byte).getLsbD 2 then 0 else 1) := by decide +kernel

/-- The rows of the dispatch byte read for REASM's probe. -/
def probing : State :=
  { start with walk := { Walk.idle with slot := some .dispatch, reader := .reasm, base := 4, pos := 4 } }

theorem witness_DispatchRowsByReader :
    ((.uncompIpv6, 1) : Instr × Nat) ∈ [(Instr.uncompIpv6, 1), (.iphc true true true 3, 2),
      (.frag1 0, 3), (.fragn 0, 4), (.other 0, 0)] ∧
    (reading .classify 0).walk.reader = .classify ∧ (reading .decode 0).walk.reader = .decode ∧
    (probing.walk.reader = .reasm ∧ probing.walk.base ≠ 0) ∧
    ((reading .reasm 0).walk.reader = .reasm ∧ (reading .reasm 0).walk.base = 0) := by decide

theorem witness_SourceAddressRows :
    ctxSlot (withCtx 0 pfx start).ctx (withCtx 0 pfx start).walk.sci.toNat = ⟨true, pfx⟩ ∧
    (withCtx 0 pfx start).linkSrc.valid = true ∧
    (withCtx 0 pfx State.reset).linkSrc.valid = false ∧
    (ctxSlot start.ctx start.walk.sci.toNat).valid = false := by decide +kernel

/-- Both values of NH_C, both kinds of reader, and a cursor that the header takes past 0xFFFF. -/
theorem witness_DestinationAddressRows :
    ((reading .decode 0x0400).walk.w.getLsbD 10 = true ∧
      (reading .decode 0).walk.w.getLsbD 10 = false) ∧
    ((reading .decode 0).walk.reader ≠ .reasm ∧
      { reading .decode 0 with cur := 0xFFED }.cur.toNat + (2 + 16 - 0) ≤ 0xFFFF ∧
      0xFFFF < { reading .decode 0 with cur := 0xFFEE }.cur.toNat + (2 + 16 - 0)) ∧
    (reading .reasm 0).walk.reader = .reasm ∧
    ctxSlot (withCtx 0 pfx start).ctx (withCtx 0 pfx start).walk.dci.toNat = ⟨true, pfx⟩ ∧
    { start with linkDst := ⟨true, l2⟩ }.linkDst.valid = true ∧ start.linkDst.valid = false ∧
    (ctxSlot start.ctx start.walk.dci.toNat).valid = false := by decide +kernel

theorem witness_NhcRows :
    (reading .decode 0).walk.reader ≠ .reasm ∧
    { reading .decode 0 with cur := 0xFFF6 }.cur.toNat + (2 + 7 - 0) ≤ 0xFFFF ∧
    0xFFFF < { reading .decode 0 with cur := 0xFFF7 }.cur.toNat + (2 + 7 - 0) ∧
    (reading .reasm 0).walk.reader = .reasm := by decide

theorem witness_ReasmPassesOtherFrames :
    frame [] = sweepState 5 (frame []) ∧ (frame []).fb.len ≤ (frame []).cur.toNat ∧
    (byteAt (frame frame1) 0 &&& 0xF8 ≠ 0xC0 ∧ byteAt (frame frame1) 0 &&& 0xF8 ≠ 0xE0) := by
  decide +kernel

/-- What the probe finds in F1. -/
def probe1 : Decoded := ⟨{ hm1 with csum := 0xC7D2 }, 7, 48, false, false⟩

/-- The first fragment F1 (ADJ 41). -/
def piece1 : Piece := ⟨true, 0, f1.drop 4, 41⟩
/-- The continuation F2, at byte 56. -/
def piece2 : Piece := ⟨false, 56, f2.drop 5, 0⟩
/-- The context that F1 makes. -/
def ctx1 : FragSlot := newContext l1 0x1234 72 100 1

theorem witness_FirstFragmentIsStored :
    frame f1 = sweepState 100 (frame f1) ∧ rdByte (frame f1) 0 &&& 0xF8 = 0xC0 ∧
    4 ≤ payloadLen (frame f1) ∧ (frame f1).linkSrc.valid = true ∧
    decodeAt (frame f1) 4 = .ok probe1 ∧ probe1.trunc = false ∧ probe1.chs ≤ probe1.uhs ∧
    target (frame f1) 100 ((rd16 (frame f1) 0).extractLsb' 0 11) (rd16 (frame f1) 2) =
      some (0, ctx1, 2) ∧
    piece1 = ⟨true, 0, restOfFrame (frame f1) 4, probe1.uhs - probe1.chs⟩ ∧ fits piece1 ctx1 := by
  unfold fits
  decide +kernel

/-- Both outcomes of a continuation: it waits (no context yet), it completes (after F1). -/
theorem witness_ContinuationIsStoredOrCompletes :
    (then2 f2 = sweepState 101 (then2 f2) ∧ rdByte (then2 f2) 0 &&& 0xF8 = 0xE0 ∧
      5 ≤ payloadLen (then2 f2) ∧ (then2 f2).linkSrc.valid = true ∧
      target (then2 f2) 101 ((rd16 (then2 f2) 0).extractLsb' 0 11) (rd16 (then2 f2) 2) =
        some (0, slotAt half 0, 2) ∧
      piece2 = ⟨false, (rdByte (then2 f2) 4).toNat * 8, restOfFrame (then2 f2) 5, 0⟩ ∧
      fits piece2 (slotAt half 0) ∧
      (slotAt half 0).recvd.toNat + piece2.payload.length = (slotAt half 0).total.toNat) ∧
    (target (frame f2) 100 72 0x1234 = some (0, ctx1, 2) ∧ fits piece2 ctx1 ∧
      ctx1.recvd.toNat + piece2.payload.length < ctx1.total.toNat) := by
  unfold fits
  decide +kernel

/-- The state with F1 in FB and F1 recorded; the state with F2 in FB and F2 recorded. -/
def again2 : State := { after (.reasm 100) (frame f2) with fb := bufOf f2 }

theorem witness_RecordedRangeIsDuplicate :
    (then2 f1 = sweepState 110 (then2 f1) ∧ (then2 f1).linkSrc.valid = true ∧
      target (then2 f1) 110 ((rd16 (then2 f1) 0).extractLsb' 0 11) (rd16 (then2 f1) 2) =
        some (0, slotAt half 0, 2) ∧
      rdByte (then2 f1) 0 &&& 0xF8 = 0xC0 ∧ 4 ≤ payloadLen (then2 f1) ∧
      decodeAt (then2 f1) 4 = .ok probe1 ∧ probe1.trunc = false ∧ probe1.chs ≤ probe1.uhs ∧
      ⟨BitVec.ofNat 16 0, BitVec.ofNat 16 ((then2 f1).fb.len - ((then2 f1).cur.toNat + 4))⟩ ∈
        (slotAt half 0).ranges) ∧
    (again2 = sweepState 101 again2 ∧ rdByte again2 0 &&& 0xF8 = 0xE0 ∧
      56 = (rdByte again2 4).toNat * 8 ∧ 5 ≤ payloadLen again2 ∧
      target again2 101 ((rd16 again2 0).extractLsb' 0 11) (rd16 again2 2) =
        some (0, slotAt again2 0, 2) ∧
      ⟨BitVec.ofNat 16 56, BitVec.ofNat 16 (again2.fb.len - (again2.cur.toNat + 5))⟩ ∈
        (slotAt again2 0).ranges) := by decide +kernel

/-- A first fragment whose compressed header is longer than what it stands for (CHS 41, UHS 40). -/
def swollen : State :=
  frame ([0xC0, 0x48, 0x12, 0x34, 0x60, 0x80, 0x00, 0x01, 0x02, 0x03, 0x04, 0x3A, 0x07] ++
    addrBytes s1 ++ addrBytes d1)

theorem witness_FragmentHeaderRefusals :
    ([frame [0xC0, 0x48, 0x12], frame [0xE0, 0x48, 0x12, 0x34]].all (fun w =>
        decide (w = sweepState 1 w) && decide (1 ≤ payloadLen w)) = true ∧
      payloadLen (frame [0xC0, 0x48, 0x12]) < 4 ∧
      payloadLen (frame [0xE0, 0x48, 0x12, 0x34]) < 5) ∧
    ({ frame f1 with linkSrc := ⟨false, l1⟩ }.linkSrc.valid = false ∧ 4 ≤ payloadLen (frame f1) ∧
      5 ≤ payloadLen (frame [0xE0, 0x48, 0x12, 0x34, 0x07])) ∧
    headerRefusal (frame [0xC0, 0x48, 0x12, 0x34]) 4 = some (.notIphc, 4) ∧
    (headerRefusal (frame [0xC0, 0x48, 0x12, 0x34, 0x7F, 0x3B, 0x01, 0xF3]) 4 = none ∧
      8 < 0 + 4 + bytesRead (frame [0xC0, 0x48, 0x12, 0x34, 0x7F, 0x3B, 0x01, 0xF3]) 4) ∧
    (headerRefusal swollen 4 = none ∧
      swollen.cur.toNat + 4 + bytesRead swollen 4 ≤ swollen.fb.len ∧
      (if hasShell swollen 4 then 48 else 40) < headerLen swollen 4) := by decide +kernel

/-- A full table: four contexts with other tags (V96). -/
def full : State :=
  { frame f1 with frag := Vector.replicate 4 { newContext l1 0x0009 72 100 1 with valid := true } }

/-- A context with no free record. -/
def crowded : FragSlot :=
  { ctx1 with ranges := (List.range 256).map (fun k => ⟨BitVec.ofNat 16 (8 * k), 0⟩) }

theorem witness_FragmentStoreRefusals :
    (full = sweepState 101 full ∧ full.linkSrc.valid = true ∧
      findSlot full l1 0x1234 = none ∧ freeSlot full = none ∧
      decodeAt full 4 = .ok probe1) ∧
    (findSlot (then2 f2) l1 0x1234 = some 0 ∧ (slotAt (then2 f2) 0).total ≠ 73 ∧
      73 = (rd16 (then2 (0xE0 :: 0x49 :: f2.drop 2)) 0).extractLsb' 0 11) ∧
    (target (then2 f2) 101 72 0x1234 = some (0, slotAt half 0, 2) ∧
      piece2.range ∉ (slotAt half 0).ranges ∧
      Piece.place ⟨false, 0, [1], 0⟩ (slotAt half 0) < 0 ∧
      ((slotAt half 0).total.toNat : Int) <
        Piece.place ⟨false, 112, f2.drop 5, 0⟩ (slotAt half 0) + (f2.drop 5).length) ∧
    (0 ≤ piece2.place (slotAt half 0) ∧
      (slotAt half 0).total.toNat <
        (slotAt half 0).recvd.toNat + Piece.added ⟨false, 56, f2.drop 5 ++ [0x59], 0⟩) ∧
    (crowded.recvd.toNat + piece2.added ≤ crowded.total.toNat ∧ crowded.ranges.length = 256 ∧
      piece2.range ∉ crowded.ranges) := by decide +kernel

theorem witness_FragmentHeaderRows :
    (start.linkSrc.valid = true ∧ 4 ≤ payloadLen (frame (f1.take 4)) ∧
      5 ≤ payloadLen (frame (f2.take 5)) ∧
      target (frame f2) (frame f2).walk.now 72 0x1234 =
        some (0, newContext l1 0x1234 72 0 1, 2) ∧
      piece2 = ⟨false, (7 : BitVec 8).toNat * 8, restOfFrame (frame f2) 5, 0⟩ ∧
      fits piece2 (newContext l1 0x1234 72 0 1)) ∧
    payloadLen (frame (f1.take 3)) < 4 ∧ payloadLen (frame (f2.take 4)) < 5 ∧
    State.reset.linkSrc.valid = false := by
  unfold fits
  decide +kernel

/-- Ages 2000 and 2001: the second is evicted. -/
theorem witness_SweepEvictsTheOld :
    ([] : List Nat) = (List.range 4).filter (fun j => (slotAt half j).valid &&
      decide (2000 < (2100 - (slotAt half j).created).toNat)) ∧
    [0] = (List.range 4).filter (fun j => (slotAt half j).valid &&
      decide (2000 < (2101 - (slotAt half j).created).toNat)) := by decide +kernel

theorem witness_FragStatPacksTheSlot :
    (slotAt half (0 : BitVec 32).toNat).valid = true ∧
    ((3 : BitVec 32).toNat ≤ 3 ∧ (slotAt half (3 : BitVec 32).toNat).valid = false) ∧
    3 < (4 : BitVec 32).toNat := by decide +kernel

/-- F1 and F2 are the frame of P2 cut after 15 bytes. -/
theorem witness_TwoFragmentsReassemble :
    start.linkSrc.valid = true ∧ 15 ≤ (f1.drop 4 ++ f2.drop 5).length ∧
    72 = (f1.drop 4 ++ f2.drop 5).length + (probe1.uhs - probe1.chs) ∧
    f1 = be16Bytes (0xC000 + BitVec.ofNat 16 72) ++ be16Bytes 0x1234 ++
      (f1.drop 4 ++ f2.drop 5).take 15 ∧
    f2 = be16Bytes (0xE000 + BitVec.ofNat 16 72) ++ be16Bytes 0x1234 ++ [7] ++
      (f1.drop 4 ++ f2.drop 5).drop 15 ∧
    decodeAt { start with fb := bufOf f1, cur := 0 } 4 = .ok probe1 ∧ probe1.trunc = false ∧
    probe1.chs ≤ probe1.uhs ∧ (7 : BitVec 8).toNat * 8 = 15 + (probe1.uhs - probe1.chs) ∧
    findSlot (sweepState 100 start) start.linkSrc.addr 0x1234 = none ∧
    freeSlot (sweepState 100 start) = some 0 ∧
    ((2100 : BitVec 32) - 100).toNat ≤ 2000 := by decide +kernel

theorem witness_CsumFoldInPieces :
    (8 : BitVec 32).toNat % 2 = 0 ∧
    (0 : BitVec 32).toNat + (8 : BitVec 32).toNat + (5 : BitVec 32).toNat ≤ v82.pb.len ∧
    v82.pb.len ≤ 2048 := by decide

theorem witness_ChecksumPrimitives :
    ((0xFF : BitVec 32).toNat ≤ 0xFF ∧ (addrBytes s1 ++ addrBytes d1).length = 32) ∧
    0xFF < (0x100 : BitVec 32).toNat ∧ (addrBytes s1).length ≠ 32 ∧
    (8 : BitVec 32).toNat + (5 : BitVec 32).toNat ≤ v82.pb.len ∧
    v82.pb.len < (8 : BitVec 32).toNat + (6 : BitVec 32).toNat := by decide

theorem witness_UdpChecksumSumsToAllOnes : 13 = text.length + 8 := by decide

theorem witness_UdpCommandsComputeTheChecksum :
    0xA337 = udpChecksum send1.hm (bufBytes send1.pb) ∧ [] = restOfFrame send1 0 ∧
    0x5BA2 = udpChecksum send1.hm [] ∧ send1.hm.pkind = .udp ∧
    (true = (send1.hm.csumInline && decide ((0x5BA2 : BitVec 16) ≠ send1.hm.csum))) ∧
    false = decide (send1.fb.len < send1.cur.toNat) ∧ start.hm.pkind ≠ .udp := by decide +kernel

theorem witness_ClrflagsClearsTheMasked :
    (0xF : BitVec 32).toNat ≤ 0xF ∧ 0xF < (0x10 : BitVec 32).toNat := by decide

theorem witness_DecodeInvertsTheEncoder :
    (Instr.other 0xBF).wellFormed = true ∧ (Instr.dstMc8 0xFF).wellFormed = true := by decide

theorem witness_DecodedInstructionsAreWellFormed :
    decode (.wire .dispatch 0 [0xBF]) = .ok (.other 0xBF) ∧
    decode (.command ⟨0x42, 0, 0, 0, []⟩) = .ok .rdstatus := ⟨rfl, rfl⟩

/-- The invariant holds between the two fragments of P2. -/
theorem witness_EveryStepKeepsTheInvariant : Inv half where
  fb := by unfold bufOk; decide +kernel
  pb := by unfold bufOk; decide +kernel
  ob := by unfold bufOk; decide +kernel
  slots := by unfold slotOk; decide +kernel
  keys := by
    have h : ∀ j, j < 4 → (slotAt half j).valid = true → j = 0 := by decide +kernel
    intro j k hj hk hvj hvk _ _
    rw [h j hj hvj, h k hk hvk]
  status := by decide +kernel
  walk := by unfold walkOk; decide +kernel

end Sys2Proof.Tests
end

/-! # What one instruction does to the state

`Runs` bundles what the frame (O5), the flags (O4) and the invariant (O60) ask of an instruction, so
that every shared operation of the block is looked at once. The three statements, and the two about
reset, follow at the end. -/

namespace Sys2Proof.Machine

/-! ## The parts of the invariant -/

/-- Every status code is listed (60_exceptions.md R281). -/
theorem statusCode_mem (st : Status) : statusCode st ∈ allStatuses.map statusCode :=
  List.mem_map_of_mem (by cases st <;> decide)

/-- Between commands the temporaries are consistent. -/
theorem walkOk_idle : walkOk Walk.idle := by simp [walkOk, Walk.idle]

/-- The pieces of a header that stand behind the two bytes of its IPHC word (30_encoding.md R61). -/
def behindWord (slot : Slot) : Bool :=
  match slot with
  | .cid | .tf | .nh | .hlim | .src | .dst | .nhc => true
  | .dispatch | .word | .frag1Hdr | .fragnHdr => false

/-- The consistency of the temporaries of a header whose next piece is in `slot`. -/
theorem walkOk_iff {w : Walk} {slot : Slot} (h : w.slot = some slot) :
    walkOk w ↔ w.base ≤ w.pos ∧ (behindWord slot = true → w.base + 2 ≤ w.pos) := by
  cases slot <;> simp [walkOk, h, behindWord]

/-- What the invariant says of the reassembly slots (10_state.md R25, R26). -/
structure FragOk (s : State) : Prop where
  slots : ∀ j, j < 4 → slotOk (slotAt s j)
  keys : keysDistinct s

theorem Inv.fragOk {s : State} (h : Inv s) : FragOk s := ⟨h.slots, h.keys⟩

/-- The invariant looks at the buffers, the reassembly slots, STATUS and the temporaries alone. -/
theorem Inv.transfer {s t : State} (h : Inv s) (fb : bufOk 2048 t.fb) (pb : t.pb = s.pb)
    (ob : t.ob = s.ob) (frag : FragOk t) (status : t.status = s.status) (walk : t.walk = s.walk) :
    Inv t where
  fb := fb
  pb := pb ▸ h.pb
  ob := ob ▸ h.ob
  slots := frag.slots
  keys := frag.keys
  status := status ▸ h.status
  walk := walk ▸ h.walk

/-- Setting flags clears none. -/
theorem and_or_absorb (f a : BitVec 4) : f &&& (f ||| a) = f := by
  ext i hi
  simpa using Or.inl

/-- A valid bit may be cleared: the other parts of a slot's invariant do not depend on it. -/
theorem slotOk_clear {f : FragSlot} (h : slotOk f) {v : Bool} (hv : v = true → f.valid = true) :
    slotOk { f with valid := v } :=
  ⟨h.1, fun hw => h.2 (hv hw)⟩

/-- The frame of a state that is written out: each part is unchanged as it stands, or is listed. -/
theorem keepsBut_of_parts {l : List StatePart} {s t : State}
    (h : keepsBut l s t := by intro p hp; cases p <;> first | rfl | simp [writes] at hp) :
    keepsBut l s t := h

/-! ## The relation -/

/-- What an instruction that stands in `slot` (none for a command) and may write the parts `l` does:
it keeps the rest, clears no flag and, run in its place, keeps the invariant. -/
structure Runs (l : List StatePart) (slot : Option Slot) (s t : State) : Prop where
  frame : keepsBut l s t
  sticky : s.flags &&& t.flags = s.flags
  inv : s.walk.slot = slot → Inv s → Inv t

/-- An outcome is a next state that `Runs` describes. -/
def RunsTo (l : List StatePart) (slot : Option Slot) (s : State)
    (o : Host.Outcome State Fault Refusal) : Prop :=
  ∃ t, o = .next t ∧ Runs l slot s t

section Rules

variable {l m : List StatePart} {slot : Option Slot} {s t u : State}

theorem Runs.next (h : Runs l slot s t) : RunsTo l slot s (.next t) := ⟨t, rfl, h⟩

theorem Runs.mono (h : Runs l slot s t) (hs : ∀ p, p ∈ l → p ∈ m) : Runs m slot s t :=
  { h with frame := keepsBut_mono h.frame hs }

/-- What runs one after another runs as a whole. -/
theorem Runs.trans (h1 : Runs l slot s t) (h2 : Runs l t.walk.slot t u) : Runs l slot s u where
  frame := keepsBut_trans h1.frame h2.frame
  sticky := by rw [← h1.sticky, BitVec.and_assoc, h2.sticky]
  inv hs hi := h2.inv rfl (h1.inv hs hi)

/-- An update of parts that the invariant does not look at. -/
theorem runs_update
    (frame : keepsBut l s t := by exact keepsBut_of_parts)
    (hl : ∀ p ∈ [.flags, .fb, .pb, .ob, .frag], p ∉ l := by decide)
    (status : t.status = s.status := by rfl) (walk : t.walk = s.walk := by rfl) :
    Runs l slot s t where
  frame := frame
  sticky := by
    have : t.flags = s.flags := frame .flags (hl _ (by decide))
    rw [this, BitVec.and_self]
  inv _ hi := by
    have hfb : t.fb = s.fb := frame .fb (hl _ (by decide))
    have hfrag : t.frag = s.frag := frame .frag (hl _ (by decide))
    have hslot := slotAt_congr hfrag
    refine hi.transfer (hfb ▸ hi.fb) (frame .pb (hl _ (by decide))) (frame .ob (hl _ (by decide)))
      ⟨?_, ?_⟩ status walk
    · simpa only [hslot] using hi.slots
    · simpa only [keysDistinct, hslot] using hi.keys

/-- Only the temporaries change: the header's reading passes on. -/
theorem runs_walk {w : Walk} (hw : s.walk.slot = slot → walkOk s.walk → walkOk w) :
    Runs [] slot s { s with walk := w } where
  frame := keepsBut_of_parts
  sticky := BitVec.and_self
  inv hs hi := { hi with walk := hw hs hi.walk }

/-- A hard error (60_exceptions.md R290). -/
theorem runs_hardError (r : Raise) : Runs [] slot s (hardError r s) where
  frame := (refuses_hardError_raise s r).2
  sticky := BitVec.and_self
  inv _ hi := { hi with status := statusCode_mem _, walk := walkOk_idle }

/-- A hard error, whatever the instruction may write. -/
theorem runs_refusal (r : Raise) : Runs l slot s (hardError r s) :=
  (runs_hardError r).mono (fun _ h => absurd h List.not_mem_nil)

/-- A commit sets flags and clears none (60_exceptions.md R288, 10_state.md R15). -/
theorem runs_finish (a : Adv) (st : Status) (r0 r1 : BitVec 32) (out : List Byte) :
    Runs [.flags] slot s (finish a st r0 r1 out s) where
  frame := keepsBut_finish s a st r0 r1 out
  sticky := by
    rw [finish_flags]
    exact and_or_absorb _ _
  inv _ hi := { hi with status := statusCode_mem _, walk := walkOk_idle }

/-- A commit without an advisory. -/
theorem runs_finish_noAdv (st : Status) (r0 r1 : BitVec 32) (out : List Byte) :
    Runs [] slot s (finish noAdv st r0 r1 out s) :=
  { runs_finish noAdv st r0 r1 out with frame := keepsBut_finish_noAdv s st r0 r1 out }

/-- An update that a command commits. -/
theorem Runs.finish (h : Runs l slot s t) (hl : .flags ∈ l) (a : Adv) (st : Status)
    (r0 r1 : BitVec 32) (out : List Byte) : Runs l slot s (finish a st r0 r1 out t) :=
  h.trans ((runs_finish a st r0 r1 out).mono (by simpa using hl))

/-- An update that a command commits without an advisory. -/
theorem Runs.finish_noAdv (h : Runs l slot s t) (st : Status) (r0 r1 : BitVec 32)
    (out : List Byte) : Runs l slot s (Machine.finish noAdv st r0 r1 out t) :=
  h.trans ((runs_finish_noAdv st r0 r1 out).mono (by simp))

/-- Such an update, committed without an advisory and with status OK. -/
theorem runs_done {r0 r1 : BitVec 32} {out : List Byte}
    (frame : keepsBut l s t := by exact keepsBut_of_parts)
    (hl : ∀ p ∈ [.flags, .fb, .pb, .ob, .frag], p ∉ l := by decide)
    (status : t.status = s.status := by rfl) (walk : t.walk = s.walk := by rfl) :
    Runs l slot s (done r0 r1 out t) :=
  (runs_update frame hl status walk).finish_noAdv ..

end Rules

/-! ## The buffer commands (40_buffer_ops.md) -/

section Commands

variable {slot : Option Slot} {s : State}

/-- FB is replaced and the cursor goes to 0 (R111, R236). -/
theorem runs_setFb {l : List Byte} (h : l.length ≤ 2048) :
    Runs [.fb, .cur] slot s { s with fb := bufOf l, cur := 0 } where
  frame := keepsBut_of_parts
  sticky := BitVec.and_self
  inv _ hi := { hi with fb := ⟨bufOf_wf l, h⟩ }

/-- PB is replaced by a buffer that is canonical and within its capacity. -/
theorem runs_setPb {b : Buf} (h : bufOk 2048 s.pb → bufOk 2048 b) :
    Runs [.pb] slot s { s with pb := b } where
  frame := keepsBut_of_parts
  sticky := BitVec.and_self
  inv _ hi := { hi with pb := h hi.pb }

/-- OB is replaced and SUM is written (R150, R170). -/
theorem runs_setOb {l : List Byte} (h : l.length ≤ 2096) (v : BitVec 16) :
    Runs [.ob, .sum] slot s { s with ob := bufOf l, sum := v } where
  frame := keepsBut_of_parts
  sticky := BitVec.and_self
  inv _ hi := { hi with ob := ⟨bufOf_wf l, h⟩ }

theorem runs_setbytes (data : List Byte) :
    Runs [.fb, .cur] slot s (setbytesState Config.params data s) := by
  unfold setbytesState
  split
  · exact runs_refusal _
  · next h => exact (runs_setFb (Nat.le_of_not_lt h)).finish_noAdv ..

theorem runs_read (n : Nat) (off : BitVec 32) : Runs [.flags] slot s (readCommand n off s) := by
  unfold readCommand
  split
  · exact runs_finish ..
  · exact runs_refusal _

theorem runs_copyout (srcOff dstOff length : BitVec 32) :
    Runs [.pb, .flags] slot s (copyoutState Config.params srcOff dstOff length s) := by
  unfold copyoutState
  split
  · exact runs_refusal _
  · next h =>
    simp only [params_pbCap, not_or, Nat.not_lt] at h
    obtain ⟨-, hlen, hcap⟩ := h
    have hsplice : Runs [.pb, .flags] slot s { s with
        pb := bufSplice s.pb dstOff.toNat (rdb s srcOff.toNat length.toNat) } :=
      (runs_setPb fun hpb => ⟨bufSplice_wf hpb.1 _ _ hlen, by
        rw [bufSplice_len, rdb_length]; exact max_le hpb.2 hcap⟩).mono (by simp)
    exact hsplice.finish (by decide) ..

theorem runs_incpos (delta : BitVec 32) :
    Runs [.cur] slot s (incposState Config.params delta s) := by
  unfold incposState
  dsimp only
  split
  · exact runs_refusal _
  · exact runs_done

theorem runs_setattr (att valid value : BitVec 32) (addr : List Byte) :
    RunsTo [.linkSrc, .linkDst, .pktType] slot s (execSetattr att valid value addr s) := by
  unfold execSetattr
  split
  · exact (runs_refusal _).next
  split
  · exact Runs.next runs_done
  split
  · split
    · exact (runs_refusal _).next
    · split <;> exact Runs.next runs_done
  split <;> exact Runs.next runs_done

theorem runs_getattr (att : BitVec 32) : RunsTo [] slot s (execGetattr att s) := by
  unfold execGetattr
  split
  iterate 3 exact (runs_finish_noAdv ..).next
  exact (runs_refusal _).next

theorem runs_pbLoad (data : List Byte) :
    Runs [.pb] slot s (pbLoadState Config.params data s) := by
  unfold pbLoadState
  split
  · exact runs_refusal _
  · next h =>
    exact (runs_setPb fun _ => ⟨bufOf_wf data, Nat.le_of_not_lt h⟩).finish_noAdv ..

theorem runs_rdbuf (space off length : BitVec 32) :
    RunsTo [] slot s (execRdbuf space off length s) := by
  unfold execRdbuf
  split
  · exact (runs_refusal _).next
  split
  · exact (runs_refusal _).next
  · exact (runs_finish_noAdv ..).next

/-! ## The context table and the header model (41_context_table.md, 42_header_model.md) -/

theorem runs_ctxSet (idx : BitVec 32) (pfx : List Byte) :
    RunsTo [.ctx] slot s (execCtxSet idx pfx s) := by
  unfold execCtxSet
  split
  · exact (runs_refusal _).next
  split
  · exact Runs.next runs_done
  · exact (runs_refusal _).next

theorem runs_ctxLookup (addr : List Byte) : RunsTo [] slot s (execCtxLookup addr s) := by
  unfold execCtxLookup
  split
  · exact (runs_refusal _).next
  split <;> exact (runs_finish_noAdv ..).next

theorem runs_ctxGet (idx : BitVec 32) : RunsTo [] slot s (execCtxGet idx s) := by
  unfold execCtxGet
  split
  · exact (runs_finish_noAdv ..).next
  · exact (runs_refusal _).next

theorem runs_hmWr (fld value : BitVec 32) (addr : List Byte) :
    RunsTo [.hm] slot s (execHmWr fld value addr s) := by
  unfold execHmWr
  split
  · exact Runs.next runs_done
  · exact (runs_refusal _).next

theorem runs_hmRd (fld : BitVec 32) : RunsTo [] slot s (execHmRd fld s) := by
  unfold execHmRd
  split
  · exact (runs_finish_noAdv ..).next
  · exact (runs_refusal _).next

theorem runs_setpayload (kind : BitVec 32) : RunsTo [.hm] slot s (execSetpayload kind s) := by
  unfold execSetpayload
  split
  · exact (runs_refusal _).next
  · exact Runs.next runs_done

/-! ## The encoder and the checksum unit (43_iphc_encoder.md, 46_checksum.md) -/

theorem runs_encode : Runs [.ob, .sum, .flags] slot s (encodeState Config.params s) := by
  unfold encodeState
  split
  · exact runs_refusal _
  dsimp only
  split
  · exact runs_refusal _
  · next h =>
    have hlen : (encodedHeader s ++ bufBytes s.pb).length ≤ 2096 := by
      simpa using h
    exact ((runs_setOb hlen _).mono (by simp)).finish (by decide) ..

theorem runs_csumPseudo (nh payloadLength : BitVec 32) (addrs : List Byte) :
    RunsTo [.sum] slot s (execCsumPseudo nh payloadLength addrs s) := by
  unfold execCsumPseudo
  split
  · exact (runs_refusal _).next
  · exact Runs.next runs_done

theorem runs_csumFold (off length : BitVec 32) :
    RunsTo [.sum] slot s (execCsumFold off length s) := by
  unfold execCsumFold
  split
  · exact (runs_refusal _).next
  · exact Runs.next runs_done

theorem runs_udpCsum : RunsTo [.sum, .hm] slot s (execUdpCsum s) := by
  unfold execUdpCsum
  split
  · exact (runs_refusal _).next
  · exact Runs.next runs_done

theorem runs_udpVerify : RunsTo [.sum, .hm, .flags] slot s (execUdpVerify s) := by
  unfold execUdpVerify
  split
  · exact (runs_refusal _).next
  · have hstore (v : BitVec 16) (m : HM) :
        Runs [.sum, .hm] slot s { s with sum := v, hm := m } := runs_update
    exact (((hstore _ _).mono (by simp)).finish (by decide) ..).next

/-! ## The system commands (47_system_ops.md) -/

theorem runs_rdstatus : RunsTo [] slot s (execRdstatus s) :=
  Runs.next {
    frame := keepsBut_of_parts
    sticky := BitVec.and_self
    inv := fun _ hi => { hi with walk := walkOk_idle } }

end Commands
end Sys2Proof.Machine

/-! # Reassembly and the reading of a header -/

namespace Sys2Proof.Machine

/-! ## The adjustment of a first fragment is at most 44 (10_state.md R26) -/

/-- The checksum field only adds to the bytes of a UDP NHC header (44_iphc_decoder.md R200). -/
theorem le_decCsum_n (s : State) (n : Byte) (sport dport : BitVec 16) (p q : Nat) :
    q ≤ (decCsum s n sport dport p q).n := by
  unfold decCsum
  split
  · exact Nat.le_refl q
  · exact Nat.le_add_right q 2

/-- A supported UDP NHC header has at least two bytes (44_iphc_decoder.md R200). -/
theorem two_le_of_decNhc {s : State} {p : Nat} {u : UdpShell} (h : decNhc s p = some u) :
    2 ≤ u.n := by
  unfold decNhc at h
  dsimp only at h
  split at h
  · exact absurd h (by simp)
  split at h
  · obtain rfl := Option.some.inj h
    exact Nat.le_trans (by decide) (le_decCsum_n ..)
  split at h
  · obtain rfl := Option.some.inj h
    exact le_decCsum_n ..
  · exact absurd h (by simp)

/-- A header that is read from behind its IPHC word on is at most 44 bytes shorter than the headers
it stands for. -/
theorem decTail_uhs_le {s : State} {base p : Nat} (hp : base + 2 ≤ p) (b0 : Byte) (m : HM)
    (trunc : Bool) :
    (decTail s base b0 m p trunc).uhs ≤ (decTail s base b0 m p trunc).chs + 44 := by
  unfold decTail
  split
  · split
    · next u hu =>
      have hn := two_le_of_decNhc hu
      simp only [Config.ipv6Hdr, Config.udpHdr]
      omega
    · simp only [Config.ipv6Hdr]
      omega
  · simp only [Config.ipv6Hdr]
    omega

/-- The same with the two addresses still to be read. -/
theorem decAddrs_uhs_le {s : State} {base p : Nat} {b0 b1 : Byte} {sci dci : BitVec 4} {m : HM}
    {trunc : Bool} {d : Decoded} (hp : base + 2 ≤ p)
    (h : decAddrs s base b0 b1 sci dci m p trunc = .ok d) : d.uhs ≤ d.chs + 44 := by
  unfold decAddrs at h
  split at h
  · exact absurd h (by simp)
  split at h
  · exact absurd h (by simp)
  · obtain rfl := Except.ok.inj h
    exact decTail_uhs_le (by omega) ..

/-- The same of every header that is decoded (44_iphc_decoder.md R210). -/
theorem decodeAt_uhs_le {s : State} {base : Nat} {d : Decoded} (h : decodeAt s base = .ok d) :
    d.uhs ≤ d.chs + 44 := by
  unfold decodeAt at h
  dsimp only at h
  split at h
  · exact absurd h (by simp)
  · exact decAddrs_uhs_le (by omega) h

/-! ## The slots -/

/-- No valid slot but possibly `j` has the key of context `c`
(10_state.md R26, 45_fragment_reassembly.md R229). -/
def keyFree (s : State) (j : Nat) (c : FragSlot) : Prop :=
  ∀ k, k < 4 → k ≠ j → (slotAt s k).valid = true →
    ¬ ((slotAt s k).key = c.key ∧ (slotAt s k).tag = c.tag)

/-- A slot may be replaced by a context whose key no other slot has. -/
theorem FragOk.set {s t : State} {j : Nat} {c : FragSlot} (h : FragOk s) (hj : j < 4)
    (hc : slotOk c) (hk : keyFree s j c) (ht : t.frag = setSlot j c s) : FragOk t := by
  have hslot (k : Nat) : slotAt t k = if k = j then c else slotAt s k :=
    slotAt_setSlot s t j k c hj ht
  refine ⟨fun k hk4 => ?_, fun a b ha hb hva hvb hkey htag => ?_⟩
  · rw [hslot]
    split
    · exact hc
    · exact h.slots k hk4
  · rw [hslot] at hva hkey htag
    rw [hslot] at hvb hkey htag
    by_cases haj : a = j <;> by_cases hbj : b = j
    · rw [haj, hbj]
    · rw [if_neg hbj] at hvb hkey htag
      rw [if_pos haj] at hkey htag
      exact absurd ⟨hkey.symm, htag.symm⟩ (hk b hb hbj hvb)
    · rw [if_neg haj] at hva hkey htag
      rw [if_pos hbj] at hkey htag
      exact absurd ⟨hkey, htag⟩ (hk a ha haj hva)
    · rw [if_neg haj] at hva hkey htag
      rw [if_neg hbj] at hvb hkey htag
      exact h.keys a b ha hb hva hvb hkey htag

/-- Slots that differ at most in having become absent. -/
theorem FragOk.of_clear {s t : State} (h : FragOk s) (v : Nat → Bool)
    (ht : ∀ j, j < 4 → slotAt t j = { slotAt s j with valid := (slotAt s j).valid && v j }) :
    FragOk t := by
  refine ⟨fun j hj => ?_, fun a b ha hb hva hvb hkey htag => ?_⟩
  · rw [ht j hj]
    exact slotOk_clear (h.slots j hj) (fun hv => (Bool.and_eq_true_iff.1 hv).1)
  · rw [ht a ha] at hva hkey htag
    rw [ht b hb] at hvb hkey htag
    exact h.keys a b ha hb (Bool.and_eq_true_iff.1 hva).1 (Bool.and_eq_true_iff.1 hvb).1 hkey htag

/-- The context that `target` names: in an existing slot, valid, canonical, and alone with its key
(45_fragment_reassembly.md R222, R223, R228). -/
theorem target_ok {s : State} {now : BitVec 32} {size : BitVec 11} {tag : BitVec 16} {j n : Nat}
    {c : FragSlot} (hs : FragOk s) (h : target s now size tag = some (j, c, n)) :
    j < 4 ∧ c.valid = true ∧ slotOk c ∧ keyFree s j c := by
  unfold target at h
  split at h
  · next i hfind =>
    obtain ⟨hi, ⟨hvalid, -, -⟩, -⟩ := findSlot_some.1 hfind
    split at h
    · simp only [Option.some.injEq, Prod.mk.injEq] at h
      obtain ⟨rfl, rfl, -⟩ := h
      exact ⟨hi, hvalid, hs.slots i hi, fun k hk hki hvk hkey =>
        hki (hs.keys k i hk hi hvk hvalid hkey.1 hkey.2)⟩
    · exact absurd h (by simp)
  · next hfind =>
    split at h
    · next i hfree =>
      simp only [Option.some.injEq, Prod.mk.injEq] at h
      obtain ⟨rfl, rfl, -⟩ := h
      refine ⟨(freeSlot_some.1 hfree).1, rfl, ?_, fun k hk _ hvk hkey =>
        findSlot_none.1 hfind k hk ⟨hvk, hkey⟩⟩
      simp [slotOk, newContext, Memory.wf]
    · exact absurd h (by simp)

/-- Storing a fragment that passes the checks keeps a context's invariant (R25, R26). -/
theorem slotOk_storePiece {x : Piece} {c : FragSlot} (hc : slotOk c) (hv : c.valid = true)
    (hx : x.range ∉ c.ranges) (hp : pieceCheck x c = none) (ha : x.first = true → x.adj ≤ 44) :
    slotOk (storePiece x c) := by
  obtain ⟨hwf, hvalid⟩ := hc
  obtain ⟨hbuf, -, hadj, hadj44, hranges, hnodup⟩ := hvalid hv
  obtain ⟨hplace, hend, hcount, hfree⟩ := pieceCheck_none.1 hp
  have htotal : c.total.toNat < 2048 := c.total.isLt
  have hrecvd : (storePiece x c).recvd.toNat = c.recvd.toNat + x.added :=
    Nat.mod_eq_of_lt (by omega)
  have hadj' : (storePiece x c).adj.toNat ≤ c.recvd.toNat + x.added ∧
      (storePiece x c).adj.toNat ≤ 44 := by
    cases hf : x.first with
    | true =>
      have hle := ha hf
      have hval : (BitVec.ofNat 8 x.adj).toNat = x.adj := Nat.mod_eq_of_lt (by omega)
      simp only [storePiece, hf, if_true, hval, Piece.added]
      omega
    | false =>
      simp only [storePiece, hf, Bool.false_eq_true, if_false]
      omega
  refine ⟨memWriteBytes_wf _ _ hwf, fun _ => ⟨fun e he => ?_, ?_, ?_, hadj'.2, ?_, ?_⟩⟩
  · show e.1 < c.total.toNat
    rcases mem_memWriteBytes he with hin | hold
    · omega
    · exact hbuf e hold
  · rw [hrecvd]; exact hcount
  · rw [hrecvd]; exact hadj'.1
  · simp only [storePiece, List.length_append, List.length_singleton]
    omega
  · exact List.nodup_append.2 ⟨hnodup, List.nodup_singleton _, fun a hold b hb hab =>
      hx (List.mem_singleton.1 hb ▸ hab ▸ hold)⟩

/-! ## The reassembly commands (45_fragment_reassembly.md) -/

section Reassembly

variable {slot : Option Slot} {s : State}

theorem runs_sweep (now : BitVec 32) :
    Runs [.frag, .flags, .evictCount] slot s (sweepState now s) where
  frame := keepsBut_of_parts
  sticky := by
    rw [sweepState_flags]
    split
    · exact and_or_absorb _ _
    · exact BitVec.and_self
  inv _ hi := hi.transfer hi.fb rfl rfl
    (hi.fragOk.of_clear _ fun j _ => slotAt_sweep now s j) rfl rfl

/-- The parts that storing a fragment may write: only a continuation completes a datagram and puts
it into FB (R236, R237). -/
def pieceWrites (x : Piece) : List StatePart :=
  if x.first then [.frag, .draws] else [.frag, .fb, .cur, .draws]

/-- A context is replaced. -/
theorem runs_setSlot {j n : Nat} {c : FragSlot}
    (h : s.walk.slot = slot → Inv s → j < 4 ∧ slotOk c ∧ keyFree s j c) :
    Runs [.frag, .draws] slot s { s with frag := setSlot j c s, draws := n } where
  frame := keepsBut_of_parts
  sticky := BitVec.and_self
  inv hs hi :=
    have ⟨hj, hc, hk⟩ := h hs hi
    hi.transfer hi.fb rfl rfl (hi.fragOk.set hj hc hk rfl) rfl rfl

/-- Storing a fragment into the context that is its target (R220, R230 to R237). -/
theorem runs_storeInto {j n : Nat} {c : FragSlot} {x : Piece}
    (hc : FragOk s → j < 4 ∧ c.valid = true ∧ slotOk c ∧ keyFree s j c)
    (ha : s.walk.slot = slot → Inv s → x.first = true → x.adj ≤ 44) :
    Runs (pieceWrites x) slot s (storeInto j c n x s) := by
  have hstored (hx : x.range ∉ c.ranges) (hp : pieceCheck x c = none) (hs : s.walk.slot = slot)
      (hi : Inv s) : j < 4 ∧ slotOk (storePiece x c) ∧ keyFree s j c := by
    obtain ⟨hj, hv, hok, hk⟩ := hc hi.fragOk
    exact ⟨hj, slotOk_storePiece hok hv hx hp (ha hs hi), hk⟩
  rcases storeInto_cases j c n x s with ⟨-, h⟩ | ⟨r, -, -, h⟩ | ⟨hx, hp, hdone, h⟩ | ⟨hx, hp, -, h⟩
  · rw [h]
    exact (runs_finish_noAdv ..).mono (by simp)
  · rw [h]
    exact runs_refusal r
  · rw [h]
    have hnext : x.first = false := by
      simpa using (Bool.and_eq_true_iff.1 hdone).1
    have hlen : (assembled (storePiece x c)).length ≤ 2048 := by
      have htotal : (storePiece x c).total.toNat < 2048 := (storePiece x c).total.isLt
      rw [assembled_length, assembledLen]
      omega
    have hslot : Runs [.frag, .draws] slot s
        { s with frag := setSlot j { storePiece x c with valid := false } s, draws := n } :=
      runs_setSlot fun hs hi =>
        have ⟨hj, hok, hk⟩ := hstored hx hp hs hi
        ⟨hj, slotOk_clear hok (by simp), hk⟩
    have hboth := (hslot.mono (m := pieceWrites x) (by simp [pieceWrites, hnext])).trans
      ((runs_setFb hlen).mono (by simp [pieceWrites, hnext]))
    exact hboth.finish_noAdv ..
  · rw [h]
    refine ((runs_setSlot (hstored hx hp)).mono ?_).finish_noAdv ..
    unfold pieceWrites
    split <;> simp

/-- Finding or making the context of a fragment and storing it (R222, R223, R228). -/
theorem runs_storeFragment (now : BitVec 32) (size : BitVec 11) (tag : BitVec 16) {x : Piece}
    (ha : s.walk.slot = slot → Inv s → x.first = true → x.adj ≤ 44) :
    Runs (pieceWrites x) slot s (storeFragment now size tag x s) := by
  rcases storeFragment_cases now size tag x s with
    ⟨-, -, -, h⟩ | ⟨j, -, -, -, h⟩ | ⟨j, c, n, htarget, h⟩
  · rw [h]
    exact runs_refusal _
  · rw [h]
    exact runs_refusal _
  · rw [h]
    exact runs_storeInto (fun hs => target_ok hs htarget) ha

/-- A first fragment whose header is at most 44 bytes shorter than what it stands for (R226,
R227). -/
theorem runs_storeFirst (now : BitVec 32) (size : BitVec 11) (tag : BitVec 16) {d : Decoded}
    (hd : s.walk.slot = slot → Inv s → d.uhs ≤ d.chs + 44) :
    Runs [.frag, .draws] slot s (storeFirst now size tag d s) := by
  unfold storeFirst
  split
  · exact runs_refusal _
  split
  · exact runs_refusal _
  · exact runs_storeFragment now size tag (x := ⟨true, 0, restOfFrame s 4, d.uhs - d.chs⟩)
      fun hs hi _ => by
        have huhs := hd hs hi
        dsimp only
        omega

/-- A continuation fragment (R235). -/
theorem runs_storeNext (now : BitVec 32) (size : BitVec 11) (tag : BitVec 16) (off : BitVec 8) :
    Runs [.frag, .fb, .cur, .draws] slot s (storeNext now size tag off s) :=
  runs_storeFragment now size tag
    (x := ⟨false, off.toNat * Config.fragOffsetUnit, restOfFrame s 5, 0⟩)
    fun _ _ hfirst => absurd hfirst Bool.false_ne_true

/-- REASM after its sweep (R220, R238). -/
theorem runs_reasmSwept (now : BitVec 32) :
    Runs [.frag, .fb, .cur, .draws] slot s (reasmSwept now s) := by
  have hpass : Runs [.frag, .fb, .cur, .draws] slot s (passFrame s) :=
    (runs_finish_noAdv ..).mono (by simp)
  have hfirst : Runs [.frag, .fb, .cur, .draws] slot s (reasmFirst now s) := by
    unfold reasmFirst
    split
    · exact runs_refusal _
    split
    · exact runs_refusal _
    · next d hd => exact (runs_storeFirst _ _ _ fun _ _ => decodeAt_uhs_le hd).mono (by simp)
  have hnext : Runs [.frag, .fb, .cur, .draws] slot s (reasmNext now s) := by
    unfold reasmNext
    split
    · exact runs_refusal _
    · exact runs_storeNext ..
  unfold reasmSwept
  split
  · exact hpass
  split
  · exact hfirst
  split
  · exact hnext
  · exact hpass

theorem runs_reasm (now : BitVec 32) :
    Runs [.frag, .fb, .cur, .flags, .evictCount, .draws] slot s
      (reasmState Config.params now s) :=
  ((runs_sweep now).mono (by simp)).trans ((runs_reasmSwept now).mono (by simp))

theorem runs_fragStat (j : BitVec 32) : Runs [] slot s (fragStatState Config.params j s) := by
  unfold fragStatState
  split
  · dsimp only
    split <;> exact runs_finish_noAdv ..
  · exact runs_refusal _

end Reassembly

/-! ## The end of a header (44_iphc_decoder.md R181) -/

section Wire

variable {slot : Option Slot} {s : State}

theorem runs_commitDecode (d : Decoded) :
    Runs [.hm, .cur, .flags] slot s (commitDecode d s) := by
  unfold commitDecode
  split
  · exact runs_refusal _
  · have hstore (m : HM) (v : BitVec Config.curW) :
        Runs [.hm, .cur] slot s { s with hm := m, cur := v } := runs_update
    exact ((hstore _ _).mono (by simp)).finish (by decide) ..

theorem runs_decode : Runs [.hm, .cur, .flags] slot s (decodeState Config.params s) := by
  unfold decodeState
  split
  · exact runs_commitDecode _
  · exact runs_refusal _

/-- What the last piece of a header may write: DECODE commits, or REASM stores its first
fragment. -/
abbrev headerWrites : List StatePart := [.hm, .cur, .flags, .frag, .draws]

theorem runs_endHeader {d : Decoded}
    (hd : s.walk.slot = slot → Inv s → d.uhs ≤ d.chs + 44) :
    Runs headerWrites slot s (endHeader d s) := by
  unfold endHeader
  split
  · exact (runs_storeFirst _ _ _ hd).mono (by simp)
  · exact (runs_commitDecode d).mono (by simp)
  · exact (runs_commitDecode d).mono (by simp)

/-! ## The rows of the wire format (30_encoding.md R60 to R96) -/

/-- Passing from one piece of the header to the next. -/
theorem runs_walkOn {a b : Slot} (n : Nat) (f : HM → HM)
    (hab : behindWord b = true → behindWord a = true) :
    Runs [] (some a) s (walkOn b n f s) :=
  runs_walk fun hs hw => by
    obtain ⟨hbase, hword⟩ := (walkOk_iff hs).1 hw
    refine (walkOk_iff rfl).2 ⟨Nat.le_add_right_of_le hbase, fun hb => ?_⟩
    exact Nat.le_add_right_of_le (hword (hab hb))

/-- A dispatch byte (R60). -/
theorem runs_onDispatch (code : Nat) : Runs [.flags] (some .dispatch) s (onDispatch code s) := by
  have hpass (b : Slot) (hb : behindWord b = false) :
      Runs [.flags] (some .dispatch) s (walkOn b 0 id s) :=
    (runs_walkOn 0 id (by simp [hb])).mono (by simp)
  have hheader : Runs [.flags] (some .dispatch) s (headerStart code s) := by
    unfold headerStart
    split
    · exact hpass .word rfl
    · exact runs_refusal _
  have hfragment : Runs [.flags] (some .dispatch) s (fragmentStart code s) := by
    unfold fragmentStart
    split
    · exact hpass .frag1Hdr rfl
    split
    · exact hpass .fragnHdr rfl
    · exact (runs_finish_noAdv ..).mono (by simp)
  unfold onDispatch
  split
  · exact runs_finish ..
  · exact hheader
  · split
    · exact hfragment
    · exact hheader

/-- The IPHC word: its two bytes are behind every later piece (R61, R62). -/
theorem runs_iphcWord (tc fl nh : Bool) (hlim : BitVec 2) (cid sac : Bool) (sam : BitVec 2)
    (m dac : Bool) (dam : BitVec 2) :
    RunsTo [] (some .word) s (execIphcWord tc fl nh hlim cid sac sam m dac dam s) :=
  Runs.next <| runs_walk fun hs hw => by
    have hbase := ((walkOk_iff hs).1 hw).1
    exact (walkOk_iff rfl).2 ⟨by dsimp only; omega, fun _ => by dsimp only; omega⟩

theorem runs_cidByte (sci dci : BitVec 4) : RunsTo [] (some .cid) s (execCidByte sci dci s) :=
  Runs.next <| runs_walk fun hs hw => by
    obtain ⟨hbase, hword⟩ := (walkOk_iff hs).1 hw
    have hpos := hword rfl
    exact (walkOk_iff rfl).2 ⟨by dsimp only; omega, fun _ => by dsimp only; omega⟩

theorem runs_frag1Hdr (size : BitVec 11) (tag : BitVec 16) :
    RunsTo [] slot s (execFrag1Hdr size tag s) := by
  unfold execFrag1Hdr
  split
  · exact (runs_refusal _).next
  · exact (runs_walk fun _ _ => (walkOk_iff rfl).2 ⟨Nat.le_refl _, by simp [behindWord]⟩).next

theorem runs_fragnHdr (size : BitVec 11) (tag : BitVec 16) (offset : BitVec 8) :
    RunsTo [.frag, .fb, .cur, .draws] slot s (execFragnHdr size tag offset s) := by
  unfold execFragnHdr
  split
  · exact (runs_refusal _).next
  · exact (runs_storeNext ..).next

/-- A source address or its refusal (R196). -/
theorem runs_srcStep (r : Except Raise Addr) (n : Nat) :
    Runs [] (some .src) s (srcStep r n s) := by
  unfold srcStep
  split
  · exact runs_walkOn _ _ (by decide)
  · exact runs_refusal _

/-- After the destination address a header without an NHC header ends, 40 bytes of headers for at
least 2 (R61, R210). -/
theorem runs_afterDst : Runs headerWrites (some .dst) s (afterDst s) := by
  unfold afterDst
  split
  · exact (runs_walkOn _ _ (by decide)).mono (by simp)
  · exact runs_endHeader fun hs hi => by
      have hpos := ((walkOk_iff hs).1 hi.walk).2 rfl
      simp only [Config.ipv6Hdr]
      omega

/-- A destination address or its refusal (R197, R198). -/
theorem runs_dstStep (r : Except Raise Addr) (n : Nat) :
    Runs headerWrites (some .dst) s (dstStep r n s) := by
  unfold dstStep
  split
  · exact ((runs_walkOn _ _ id).mono (by simp)).trans runs_afterDst
  · exact runs_refusal _

/-- A UDP NHC header has at least 2 bytes, behind at least 2, for 48 bytes of headers (R200,
R210). -/
theorem runs_nhcShell (sport dport : BitVec 16) (k : Option (BitVec 16)) {n : Nat} (hn : 2 ≤ n) :
    Runs headerWrites (some .nhc) s (nhcShell sport dport k n s) :=
  runs_endHeader fun hs hi => by
    have hpos := ((walkOk_iff hs).1 hi.walk).2 rfl
    simp only [Config.ipv6Hdr, Config.udpHdr]
    omega

/-- An unsupported NHC byte ends the header before it (R207). -/
theorem runs_nhcUnsupported : Runs headerWrites (some .nhc) s (nhcUnsupported s) :=
  runs_endHeader fun hs hi => by
    have hpos := ((walkOk_iff hs).1 hi.walk).2 rfl
    simp only [Config.ipv6Hdr]
    omega

end Wire
end Sys2Proof.Machine

/-! # Every instruction, and every step -/

namespace Sys2Proof.Machine

/-- The place in a header that an encoded instruction fills; a command has none. -/
def codeSlot : Code → Option Slot
  | .command _ => none
  | .wire slot _ _ => some slot

/-- The place in a header that an instruction fills. -/
def rowSlot (i : Instr) : Option Slot := codeSlot (encode i)

/-- Every instruction but CLRFLAGS and RESET ends in a next state, writes what its list has, clears
no flag and, in its place, keeps the invariant. -/
theorem exec_runsTo (i : Instr) (s : State) (h : clearsFlags i = false) :
    RunsTo (writes i) (rowSlot i) s (exec i s) := by
  cases i with
  | setbytes data => exact (runs_setbytes data).next
  | getbyte off => exact (runs_read 1 off).next
  | get16 off => exact (runs_read 2 off).next
  | get24 off => exact (runs_read 3 off).next
  | copyout srcOff dstOff length => exact (runs_copyout srcOff dstOff length).next
  | incpos delta => exact (runs_incpos delta).next
  | payloadlen => exact (runs_finish_noAdv ..).next
  | setattr att valid value addr => exact runs_setattr att valid value addr
  | getattr att => exact runs_getattr att
  | pbLoad data => exact (runs_pbLoad data).next
  | rdbuf space off length => exact runs_rdbuf space off length
  | ctxSet idx pfx => exact runs_ctxSet idx pfx
  | ctxLookup addr => exact runs_ctxLookup addr
  | ctxGet idx => exact runs_ctxGet idx
  | hmWr fld value addr => exact runs_hmWr fld value addr
  | hmRd fld => exact runs_hmRd fld
  | setpayload kind => exact runs_setpayload kind
  | encode => exact runs_encode.next
  | classify => exact (runs_finish ..).next
  | decode => exact runs_decode.next
  | reasm now => exact (runs_reasm _).next
  | sweep now => exact ((runs_sweep _).finish_noAdv ..).next
  | fragStat j => exact (runs_fragStat j).next
  | csumPseudo nh payloadLength addrs => exact runs_csumPseudo nh payloadLength addrs
  | csumFold off length => exact runs_csumFold off length
  | csumFinal => exact (runs_finish_noAdv ..).next
  | udpCsum => exact runs_udpCsum
  | udpVerify => exact runs_udpVerify
  | reset => exact nomatch h
  | clrflags mask => exact nomatch h
  | rdstatus => exact runs_rdstatus
  | uncompIpv6 => exact (runs_onDispatch 1).next
  | iphc tc fl nh hlim => exact (runs_onDispatch 2).next
  | frag1 sizeHi => exact (runs_onDispatch 3).next
  | fragn sizeHi => exact (runs_onDispatch 4).next
  | other b => exact (runs_onDispatch 0).next
  | iphcWord tc fl nh hlim cid sac sam m dac dam =>
    exact runs_iphcWord tc fl nh hlim cid sac sam m dac dam
  | cidByte sci dci => exact runs_cidByte sci dci
  | frag1Hdr size tag => exact runs_frag1Hdr size tag
  | fragnHdr size tag offset => exact runs_fragnHdr size tag offset
  | tfElided | tfTcOnly | tfFlOnly | tfFull | nhInline | nhUdpNhc | hlimInline | hlim1 | hlim64
  | hlim255 => exact (runs_walkOn _ _ (by decide)).next
  | srcFull | srcLl64 | srcLl16 | srcLlMac | srcUnspec | srcCtx64 | srcCtx16 | srcCtxMac =>
    exact (runs_srcStep _ _).next
  | dstReservedDac1Dam00 => exact (runs_refusal _).next
  | dstReservedM1Dac1 dam => exact (runs_refusal _).next
  | dstFull | dstLl64 | dstLl16 | dstLlMac | dstCtx64 | dstCtx16 | dstCtxMac | dstMcFull | dstMc48
  | dstMc32 | dstMc8 => exact (runs_dstStep _ _).next
  | udpNhcFullPorts sport dport csum => exact (runs_nhcShell sport dport csum (by omega)).next
  | udpNhcNibblePorts sp dp csum => exact (runs_nhcShell _ _ csum (by omega)).next
  | udpNhcP01 | udpNhcP10 | nhcOther => exact runs_nhcUnsupported.next

/-! ## The two instructions that clear flags (47_system_ops.md R271, R272) -/

/-- CLRFLAGS writes FLAGS alone. -/
theorem exec_clrflags_keeps (mask : BitVec 32) (s : State) :
    ∃ t, exec (.clrflags mask) s = .next t ∧ keepsBut [.flags] s t ∧ (Inv s → Inv t) := by
  show ∃ t, execClrflags mask s = .next t ∧ _
  unfold execClrflags
  split
  · exact ⟨_, rfl, keepsBut_of_parts,
      fun hi => { hi with status := statusCode_mem .ok, walk := walkOk_idle }⟩
  · have hr : Runs [.flags] s.walk.slot s (hardError badOperand s) := runs_refusal _
    exact ⟨_, rfl, hr.frame, hr.inv rfl⟩

/-- Absent slots in canonical form keep the invariant of the slots. -/
theorem fragOk_of_absent {s : State}
    (h : ∀ j, j < 4 → Memory.wf (slotAt s j).buf ∧ (slotAt s j).valid = false) : FragOk s where
  slots j hj := ⟨(h j hj).1, fun hv => absurd hv (by simp [(h j hj).2])⟩
  keys j _ hj _ hv := absurd hv (by simp [(h j hj).2])

theorem slotAt_powerOn_valid (j : Nat) : (slotAt State.reset j).valid = false := by
  simp only [slotAt, State.reset, Vector.toList_replicate, List.getD_eq_getElem?_getD,
    List.getElem?_replicate]
  split <;> rfl

/-- After power-on the buffers are empty and every slot is absent. -/
theorem inv_powerOn : Inv State.reset :=
  have hfrag : FragOk State.reset := fragOk_of_absent fun j hj => by
    refine ⟨reset_memory_wf.2.2.2 _ ?_, slotAt_powerOn_valid j⟩
    rw [slotAt_eq _ _ hj]
    exact List.getElem_mem _
  { fb := ⟨reset_memory_wf.1, Nat.zero_le _⟩
    pb := ⟨reset_memory_wf.2.1, Nat.zero_le _⟩
    ob := ⟨reset_memory_wf.2.2.1, Nat.zero_le _⟩
    slots := hfrag.slots
    keys := hfrag.keys
    status := statusCode_mem .ok
    walk := walkOk_idle }

/-- A slot after RESET is absent. -/
theorem slotAt_resetState (s : State) (j : Nat) :
    slotAt (resetState s) j = resetSlot (slotAt s j) := by
  by_cases h : j < 4
  · rw [slotAt_eq _ _ h, slotAt_eq _ _ h]
    simp [resetState]
  · rw [slotAt_beyond _ _ (by omega), slotAt_beyond _ _ (by omega)]
    rfl

/-- RESET does not write the draws and the port, and keeps the invariant. -/
theorem exec_reset_keeps (s : State) :
    exec .reset s = .next (done 0 0 [] (resetState s)) ∧
      keepsBut (writes .reset) s (done 0 0 [] (resetState s)) ∧
      (Inv s → Inv (done 0 0 [] (resetState s))) := by
  refine ⟨rfl, keepsBut_of_parts, fun hi => ?_⟩
  have hfrag : FragOk (resetState s) := fragOk_of_absent fun j hj => by
    rw [slotAt_resetState]
    exact ⟨(hi.slots j hj).1, rfl⟩
  exact { inv_powerOn with slots := hfrag.slots, keys := hfrag.keys }

/-- Every instruction ends in a next state, writes what its list has and, in its place, keeps the
invariant. -/
theorem exec_next (i : Instr) (s : State) :
    ∃ t, exec i s = .next t ∧ keepsBut (writes i) s t ∧
      (s.walk.slot = rowSlot i → Inv s → Inv t) := by
  cases h : clearsFlags i with
  | false =>
    obtain ⟨t, he, hr⟩ := exec_runsTo i s h
    exact ⟨t, he, hr.frame, hr.inv⟩
  | true =>
    match i, h with
    | .clrflags mask, _ =>
      obtain ⟨t, he, hframe, hinv⟩ := exec_clrflags_keeps mask s
      exact ⟨t, he, hframe, fun _ => hinv⟩
    | .reset, _ =>
      obtain ⟨he, hframe, hinv⟩ := exec_reset_keeps s
      exact ⟨_, he, hframe, fun _ => hinv⟩

/-! ## One step (47_system_ops.md R270) -/

theorem rowSlot_dispatchRow (d : Byte) : rowSlot (dispatchRow d) = some .dispatch := by
  simp only [dispatchRow, apply_ite rowSlot]
  simp [rowSlot, encode, codeSlot]

theorem rowSlot_tfRow (w : BitVec 16) (l : List Byte) : rowSlot (tfRow w l) = some .tf := by
  unfold tfRow
  dsimp only
  split <;> rfl

theorem rowSlot_nhRow (w : BitVec 16) (l : List Byte) : rowSlot (nhRow w l) = some .nh := by
  unfold nhRow
  split <;> rfl

theorem rowSlot_hlimRow (w : BitVec 16) (l : List Byte) : rowSlot (hlimRow w l) = some .hlim := by
  unfold hlimRow
  split <;> rfl

theorem rowSlot_srcRow (w : BitVec 16) (l : List Byte) : rowSlot (srcRow w l) = some .src := by
  unfold srcRow
  split <;> rfl

theorem rowSlot_dstRow (w : BitVec 16) (l : List Byte) : rowSlot (dstRow w l) = some .dst := by
  unfold dstRow
  split <;> rfl

theorem rowSlot_nhcRow (l : List Byte) : rowSlot (nhcRow l) = some .nhc := by
  unfold nhcRow
  dsimp only
  split
  · split <;> rfl
  · rfl

/-- A tuple of a listed opcode is a command. -/
theorem rowSlot_of_decodeCommand {t : CmdTuple} {i : Instr} (h : decodeCommand t = .ok i) :
    rowSlot i = none := by
  unfold decodeCommand at h
  split at h <;> cases h <;> rfl

/-- The decoder reads a row for the slot it is asked for. -/
theorem rowSlot_of_slotRow {slot : Slot} {w : BitVec 16} {l : List Byte} {i : Instr}
    (h : slotRow slot w l = .ok i) : rowSlot i = some slot := by
  cases slot with
  | dispatch => exact Except.ok.inj h ▸ rowSlot_dispatchRow _
  | word =>
    simp only [slotRow, wordRow] at h
    split at h <;> cases h
    rfl
  | tf => exact Except.ok.inj h ▸ rowSlot_tfRow w l
  | nh => exact Except.ok.inj h ▸ rowSlot_nhRow w l
  | hlim => exact Except.ok.inj h ▸ rowSlot_hlimRow w l
  | src => exact Except.ok.inj h ▸ rowSlot_srcRow w l
  | dst => exact Except.ok.inj h ▸ rowSlot_dstRow w l
  | nhc => exact Except.ok.inj h ▸ rowSlot_nhcRow l
  | cid | frag1Hdr | fragnHdr => exact Except.ok.inj h ▸ rfl

/-- The decoder reads an instruction in the place where the encoder puts it. -/
theorem rowSlot_of_decode {c : Code} {i : Instr} (h : decode c = .ok i) :
    rowSlot i = codeSlot c := by
  cases c with
  | command t => exact rowSlot_of_decodeCommand h
  | wire slot w l =>
    simp only [decode, decodeWire] at h
    split at h
    · next j hj =>
      split at h
      · exact absurd h (by simp)
      · exact Except.ok.inj h ▸ rowSlot_of_slotRow hj
    · exact absurd h (by simp)

/-- What is fetched is at the place in the header where the block stands. -/
theorem codeSlot_of_fetchCode {s : State} {c : Code} (h : fetchCode s = some c) :
    codeSlot c = s.walk.slot := by
  unfold fetchCode at h
  split at h
  · next slot hslot => rw [← Option.some.inj h, hslot]; rfl
  · next hslot =>
    split at h
    · exact absurd h (by simp)
    · rw [← Option.some.inj h, hslot]; rfl

/-- Fetching an instruction leaves the block at its place. -/
theorem afterFetch_slot {s : State} {c : Code} (h : fetchCode s = some c) (i : Instr) :
    (afterFetch c i s).walk.slot = codeSlot c := by
  cases c with
  | command t => rfl
  | wire slot w l => exact (codeSlot_of_fetchCode h).symm

theorem step_idle {s : State} (hf : fetchCode s = none) : step s = .next s := by
  simp only [step, hf]

theorem step_decoded {s : State} {c : Code} {i : Instr} (hf : fetchCode s = some c)
    (hd : decode c = .ok i) : step s = exec i (afterFetch c i s) := by
  simp only [step, hf, hd]

theorem step_rejected {s : State} {c : Code} {e : Reject} (hf : fetchCode s = some c)
    (hd : decode c = .error e) : step s = .next (rejected c s) := by
  simp only [step, hf, hd]

/-- Taking a tuple off the port keeps the invariant. -/
theorem Inv.takeTuple {s : State} (h : Inv s) :
    Inv { s with host := s.host.tail, walk := Walk.idle } :=
  { h with walk := walkOk_idle }

theorem Inv.afterFetch {s : State} (h : Inv s) (c : Code) (i : Instr) : Inv (afterFetch c i s) := by
  cases c with
  | command t => exact h.takeTuple
  | wire slot w l => exact { h with walk := h.walk }

theorem Inv.hardError {s : State} (h : Inv s) (r : Raise) : Inv (hardError r s) :=
  (runs_hardError r).inv rfl h

theorem Inv.rejected {s : State} (h : Inv s) (c : Code) : Inv (rejected c s) := by
  cases c with
  | command t => exact h.takeTuple.hardError _
  | wire slot w l => exact h.hardError _

/-! ## After reset (10_state.md R35) -/

/-- VERSION reads 6 in every state (10_state.md R11). -/
theorem hmReads_version (s : State) : hmReads 0 6 [] s :=
  ⟨_, rfl, answered_done .., keepsBut_done s _ _ _⟩

theorem ctxSlot_powerOn_valid (i : Nat) : (ctxSlot State.reset.ctx i).valid = false := by
  simp only [ctxSlot, State.reset, Vector.toList_replicate, List.getD_eq_getElem?_getD,
    List.getElem?_replicate]
  split <;> rfl

/-- A state that agrees with the one after power-on outside the slots, the draws and the port, with
its results cleared and every slot absent, has the values of R35. -/
theorem resetValues_of {t : State} (frame : keepsBut [.frag, .draws, .host] State.reset t)
    (res0 : t.res0 = 0) (res1 : t.res1 = 0) (status : t.status = 0) (errpos : t.errpos = 0)
    (absent : ∀ j, (slotAt t j).valid = false) : resetValues t := by
  have hctx : t.ctx = State.reset.ctx := frame .ctx (by decide)
  refine ⟨hmReads_version t, frame .hm (by decide), res0, res1, status, errpos,
    frame .flags (by decide), frame .evictCount (by decide), fun i => ?_, frame .sum (by decide),
    congrArg Buf.len (frame .fb (by decide)), frame .cur (by decide),
    congrArg LinkAttr.valid (frame .linkSrc (by decide)),
    congrArg LinkAttr.valid (frame .linkDst (by decide)),
    congrArg PktAttr.valid (frame .pktType (by decide)),
    congrArg Buf.len (frame .pb (by decide)), congrArg Buf.len (frame .ob (by decide)), absent⟩
  rw [hctx]
  exact ctxSlot_powerOn_valid i

end Sys2Proof.Machine

/-! # The obligations -/

namespace Sys2Proof.Proofs

open Sys2Proof Sys2Proof.Machine

/-- Settles O60: an idle block stays as it is, a rejected piece ends in a hard error, and an
instruction runs in its place, where `Runs` keeps the invariant. -/
theorem everyStepKeepsTheInvariant : Obligations.EveryStepKeepsTheInvariant := by
  intro s hs
  cases hfetch : fetchCode s with
  | none => exact ⟨s, step_idle hfetch, hs⟩
  | some c =>
    cases hdec : decode c with
    | error e => exact ⟨_, step_rejected hfetch hdec, hs.rejected c⟩
    | ok i =>
      obtain ⟨t, he, -, hinv⟩ := exec_next i (afterFetch c i s)
      have hplace : (afterFetch c i s).walk.slot = rowSlot i :=
        (afterFetch_slot hfetch i).trans (rowSlot_of_decode hdec).symm
      exact ⟨t, (step_decoded hfetch hdec).trans he, hinv hplace (hs.afterFetch c i)⟩

/-- Settles O4, from what every instruction but CLRFLAGS and RESET does. -/
theorem flagsAreSticky : Obligations.FlagsAreSticky := by
  intro i s t h he
  obtain ⟨u, hu, hr⟩ := exec_runsTo i s h
  obtain rfl := Host.Outcome.next.inj (hu.symm.trans he)
  exact hr.sticky

/-- Settles O5, from what every instruction does. -/
theorem everyInstructionKeepsTheRest : Obligations.EveryInstructionKeepsTheRest := by
  intro i s t he
  obtain ⟨u, hu, hframe, -⟩ := exec_next i s
  obtain rfl := Host.Outcome.next.inj (hu.symm.trans he)
  exact hframe

/-- Settles O52: the block starts idle, and RESET leaves every part but the buffers of the absent
slots, the draws and the port as after power-on. -/
theorem resetStateValues : Obligations.ResetStateValues := by
  refine ⟨?_, step_idle rfl, fun s => ⟨_, (exec_reset_keeps s).1, ?_⟩⟩
  · exact resetValues_of keepsBut_of_parts rfl rfl rfl rfl slotAt_powerOn_valid
  · have hreset : keepsBut [.frag, .draws, .host] State.reset (resetState s) :=
      keepsBut_of_parts
    exact resetValues_of
      (keepsBut_trans hreset (keepsBut_mono (keepsBut_done (resetState s) 0 0 []) (by simp)))
      rfl rfl rfl rfl fun j => congrArg FragSlot.valid (slotAt_resetState s j)

/-- Settles O59. -/
theorem resetSatisfiesTheInvariant : Obligations.ResetSatisfiesTheInvariant := inv_powerOn

end Sys2Proof.Proofs

/-! # The rows of the wire format

The facts that the statements about the encoding ask for: the fields of bytes and words, what the
decoder accepts, what each row does as an instruction, and that the run of the rows reads a header
as `decode_at` does (O27). The statements themselves follow at the end. -/

namespace Sys2Proof.Machine

/-! ## The bits of bytes and words -/

/-- Two neighbouring bits of a vector, the upper one first. -/
theorem extractLsb'_two {n : Nat} (v : BitVec n) (k : Nat) :
    v.extractLsb' k 2 = BitVec.ofBool (v.getLsbD (k + 1)) ++ BitVec.ofBool (v.getLsbD k) := by
  refine BitVec.eq_of_getLsbD_eq fun i hi => ?_
  rw [BitVec.getLsbD_append]
  match i, hi with
  | 0, _ => simp
  | 1, _ => simp

theorem upper_be16 (hi lo : Byte) : (be16 hi lo).extractLsb' 8 8 = hi :=
  BitVec.extractLsb'_append_eq_left

theorem lower_be16 (hi lo : Byte) : (be16 hi lo).extractLsb' 0 8 = lo :=
  BitVec.extractLsb'_append_eq_right

/-- The bits of the upper byte of a word. -/
theorem extractLsb'_be16_upper (hi lo : Byte) (k n : Nat) :
    (be16 hi lo).extractLsb' (k + 8) n = hi.extractLsb' k n := by
  refine BitVec.eq_of_getLsbD_eq fun i hi => ?_
  simp only [BitVec.getLsbD_extractLsb', be16, BitVec.getLsbD_append]
  rw [if_neg (by omega), show k + 8 + i - 8 = k + i by omega]

/-- The bits of the lower byte of a word. -/
theorem extractLsb'_be16_lower (hi lo : Byte) (k n : Nat) (h : k + n ≤ 8) :
    (be16 hi lo).extractLsb' k n = lo.extractLsb' k n := by
  refine BitVec.eq_of_getLsbD_eq fun i hi => ?_
  simp only [BitVec.getLsbD_extractLsb', be16, BitVec.getLsbD_append]
  rw [if_pos (by omega)]

theorem getLsbD_be16_upper (hi lo : Byte) (k : Nat) :
    (be16 hi lo).getLsbD (k + 8) = hi.getLsbD k := by
  rw [be16, BitVec.getLsbD_append, if_neg (by omega), Nat.add_sub_cancel]

theorem getLsbD_be16_lower (hi lo : Byte) (k : Nat) (h : k < 8) :
    (be16 hi lo).getLsbD k = lo.getLsbD k := by
  rw [be16, BitVec.getLsbD_append, if_pos h]

/-- The two lowest bits of a byte, as the decoder masks them (R80, R194). -/
theorem and_three (b : Byte) :
    b &&& 0x03 = 0#6 ++ BitVec.ofBool (b.getLsbD 1) ++ BitVec.ofBool (b.getLsbD 0) := by
  revert b; decide

/-- `model_tc` of a wire byte is its DSCP above its ECN (R64). -/
theorem modelTc_fields (b : Byte) : b.extractLsb' 0 6 ++ b.extractLsb' 6 2 = modelTc b := by
  revert b; decide

/-- The traffic class of a wire byte without a DSCP is its ECN (R64, R191). -/
theorem ecn_fields (b : Byte) : 0#6 ++ b.extractLsb' 6 2 = b >>> 6 &&& 0x03 := by
  revert b; decide

/-! ## The fields of the IPHC word (R62) -/

theorem iphcByte0_bits (tc fl nh : Bool) (hlim : BitVec 2) {b : Byte}
    (h : b = iphcByte0 tc fl nh hlim) :
    b.extractLsb' 5 3 = 0b011 ∧ b.getLsbD 4 = tc ∧ b.getLsbD 3 = fl ∧ b.getLsbD 2 = nh ∧
      b.extractLsb' 0 2 = hlim := by
  subst h
  revert tc fl nh hlim
  decide

theorem iphcByte1_bits (cid sac : Bool) (sam : BitVec 2) (m dac : Bool) (dam : BitVec 2) {b : Byte}
    (h : b = iphcByte1 cid sac sam m dac dam) :
    b.getLsbD 7 = cid ∧ b.getLsbD 6 = sac ∧ b.extractLsb' 4 2 = sam ∧ b.getLsbD 3 = m ∧
      b.getLsbD 2 = dac ∧ b.extractLsb' 0 2 = dam := by
  subst h
  revert cid sac sam m dac dam
  decide

/-- A byte of class IPHC is put together again from its fields. -/
theorem iphcByte0_fields {b : Byte} (h : b &&& 0xE0 = 0x60) :
    iphcByte0 (flagSet Config.tcC b) (flagSet Config.flC b) (flagSet Config.nhC b)
      (b.extractLsb' 0 2) = b := by
  revert b; decide

theorem iphcByte1_fields (b : Byte) :
    iphcByte1 (b.getLsbD 7) (b.getLsbD 6) (b.extractLsb' 4 2) (b.getLsbD 3) (b.getLsbD 2)
      (b.extractLsb' 0 2) = b := by
  revert b; decide

theorem extractLsb'_of_iphc {b : Byte} (h : b &&& 0xE0 = 0x60) : b.extractLsb' 5 3 = 0b011 := by
  revert b; decide

/-- The row of a word whose first byte is of class IPHC has the fields of the word's two bytes. -/
theorem wordRow_be16 {b0 : Byte} (h : b0 &&& 0xE0 = 0x60) (b1 : Byte) :
    wordRow (be16 b0 b1) = .ok (.iphcWord (flagSet Config.tcC b0) (flagSet Config.flC b0)
      (flagSet Config.nhC b0) (b0.extractLsb' 0 2) (b1.getLsbD 7) (b1.getLsbD 6)
      (b1.extractLsb' 4 2) (b1.getLsbD 3) (b1.getLsbD 2) (b1.extractLsb' 0 2)) := by
  have hclass : (be16 b0 b1).extractLsb' 13 3 = 0b011 :=
    (extractLsb'_be16_upper b0 b1 5 3).trans (extractLsb'_of_iphc h)
  have hhlim : (be16 b0 b1).extractLsb' 8 2 = b0.extractLsb' 0 2 :=
    extractLsb'_be16_upper b0 b1 0 2
  simp only [wordRow, hclass, if_true, wordFlag, upper_be16, hhlim, extractLsb'_be16_lower,
    getLsbD_be16_lower, Nat.reduceLT, Nat.reduceAdd, Nat.reduceLeDiff]

/-! ## What the decoder accepts -/

/-- The opcodes of the 31 commands (30_encoding.md R100). -/
def listedOpcodes : List (BitVec 8) :=
  [0x01#8, 0x02#8, 0x03#8, 0x04#8, 0x05#8, 0x06#8, 0x07#8, 0x08#8, 0x09#8, 0x0A#8,
    0x0B#8, 0x10#8, 0x11#8, 0x12#8, 0x18#8, 0x19#8, 0x1A#8, 0x20#8, 0x28#8, 0x29#8, 0x30#8,
    0x31#8, 0x32#8, 0x38#8, 0x39#8, 0x3A#8, 0x3B#8, 0x3C#8, 0x40#8, 0x41#8, 0x42#8]

theorem decodeCommand_of_unlisted {t : CmdTuple} (h : t.op ∉ listedOpcodes) :
    decodeCommand t = .error (.badOpcode t.op) := by
  unfold decodeCommand
  split
  case h_32 => rfl
  all_goals next hop => exact absurd (hop ▸ by decide) h

theorem fetchCode_command {s : State} {t : CmdTuple} {rest : List CmdTuple}
    (hslot : s.walk.slot = none) (hhost : s.host = t :: rest) :
    fetchCode s = some (.command t) := by
  simp only [fetchCode, hslot, hhost]

/-- The decoder takes a piece exactly when it has all of the row's bytes (R61). -/
theorem decodeWire_eq_ok {slot : Slot} {w : BitVec 16} {l : List Byte} {i : Instr} :
    decodeWire slot w l = .ok i ↔ slotRow slot w l = .ok i ∧ i.wireLen ≤ l.length := by
  unfold decodeWire
  cases slotRow slot w l with
  | error e => simp
  | ok j =>
    by_cases h : l.length < j.wireLen
    · simp only [h, if_true, reduceCtorEq, Except.ok.injEq, false_iff]
      rintro ⟨rfl, hle⟩
      omega
    · simp only [h, if_false, Except.ok.injEq]
      exact ⟨fun hj => hj ▸ ⟨rfl, Nat.le_of_not_lt h⟩, And.left⟩

/-- Only two rows are defined as "anything else" (R60, R95). -/
theorem wellFormed_of_rowSlot {i : Instr} (hd : rowSlot i ≠ some .dispatch)
    (hn : rowSlot i ≠ some .nhc) : i.wellFormed = true := by
  cases i with
  | other b => exact absurd rfl hd
  | nhcOther b => exact absurd rfl hn
  | _ => rfl

theorem wellFormed_dispatchRow (d : Byte) : (dispatchRow d).wellFormed = true := by
  unfold dispatchRow
  split
  · rfl
  split
  · rfl
  split
  · rfl
  split
  · rfl
  · simp only [Instr.wellFormed, dispatchClass, *, if_false, beq_self_eq_true]

theorem wellFormed_nhcRow (l : List Byte) : (nhcRow l).wellFormed = true := by
  unfold nhcRow
  dsimp only
  split
  · split <;> rfl
  · next h => simpa [Instr.wellFormed] using h

theorem wellFormed_of_slotRow {slot : Slot} {w : BitVec 16} {l : List Byte} {i : Instr}
    (h : slotRow slot w l = .ok i) : i.wellFormed = true := by
  have hslot := rowSlot_of_slotRow h
  cases slot with
  | dispatch => exact Except.ok.inj h ▸ wellFormed_dispatchRow _
  | nhc => exact Except.ok.inj h ▸ wellFormed_nhcRow l
  | _ => exact wellFormed_of_rowSlot (by simp [hslot]) (by simp [hslot])

/-! ## The dispatch rows (R60) -/

theorem dispatchClass_eq_two {d : Byte} : dispatchClass d = 2 ↔ d &&& 0xE0 = 0x60 := by
  revert d; decide

theorem wireLen_dispatchRow (d : Byte) : (dispatchRow d).wireLen = 1 := by
  unfold dispatchRow
  split
  · rfl
  split
  · rfl
  split
  · rfl
  split <;> rfl

/-- The row of a dispatch byte does what the byte's class asks for. -/
theorem exec_dispatchRow (d : Byte) (s : State) :
    exec (dispatchRow d) s = .next (onDispatch (dispatchClass d) s) := by
  unfold dispatchRow dispatchClass
  split
  · rfl
  split
  · rfl
  split
  · rfl
  split <;> rfl

/-- The commands that read an IPHC header where they stand: DECODE, and the probe of REASM (R190,
R226). -/
def readsHeader (w : Walk) : Prop := w.reader = .decode ∨ (w.reader = .reasm ∧ w.base ≠ 0)

theorem onDispatch_of_readsHeader {s : State} (h : readsHeader s.walk) (code : Nat) :
    onDispatch code s = headerStart code s := by
  rcases h with hr | ⟨hr, hbase⟩
  · simp only [onDispatch, hr]
  · simp only [onDispatch, hr, hbase, if_false]

section Dispatch

variable {s : State}

/-- CLASSIFY ends with the class code and the truncation advisory (R180, R288). -/
theorem endClassify_ends (code : Nat) (trunc : Bool) :
    answered (truncStatus trunc) 0 (BitVec.ofNat 32 code) 0 [] (endClassify code trunc s) ∧
      (endClassify code trunc s).flags = truncFlags trunc s ∧
      keepsBut [.flags] s (endClassify code trunc s) := by
  refine ⟨?_, ?_, keepsBut_finish s (truncAdv trunc) .ok (BitVec.ofNat 32 code) 0 []⟩
  · have h := answered_finish s (truncAdv trunc) .ok (BitVec.ofNat 32 code) 0 []
    rw [advStatus_truncAdv] at h
    exact h
  · rw [endClassify, finish_flags, advFlags_truncAdv]
    cases trunc
    · exact BitVec.or_zero
    · rfl

theorem headerStart_refuses {code : Nat} (h : code ≠ 2) :
    refuses .notIphc s.walk.pos s (headerStart code s) := by
  rw [headerStart, if_neg h]
  exact refuses_hardError ..

theorem fragmentStart_passes {code : Nat} (h3 : code ≠ 3) (h4 : code ≠ 4) :
    answered .pass 0 0 0 [] (fragmentStart code s) ∧ keepsBut [] s (fragmentStart code s) := by
  rw [fragmentStart, if_neg h3, if_neg h4]
  exact ⟨answered_finish_noAdv .., keepsBut_finish_noAdv s .pass 0 0 []⟩

end Dispatch

/-! ## The end of a header (R181, R226) -/

/-- The state in which a header is read with these temporaries. -/
abbrev State.reading (s : State) (w : Walk) : State := { s with walk := w }

/-- The operands of the command that reads a header are the same in both (10_state.md R30). -/
structure SameCommand (w v : Walk) : Prop where
  reader : v.reader = w.reader
  now : v.now = w.now
  size : v.size = w.size
  tag : v.tag = w.tag

/-- The end of a header looks at the command's operands alone of all temporaries. -/
theorem endHeader_congr {w v : Walk} (h : SameCommand w v) (d : Decoded) (s : State) :
    endHeader d (s.reading v) = endHeader d (s.reading w) := by
  simp only [endHeader, h.reader, h.now, h.size, h.tag, storeFirst_walk, commitDecode_walk]

/-- The flags of a commit that may note a truncation and an unsupported NHC byte (R288). -/
theorem flags_or_advFlags (s : State) (trunc unsup : Bool) :
    s.flags ||| advFlags ⟨trunc, unsup, false⟩ =
      truncFlags trunc s ||| (if unsup then 4 else 0) := by
  have hadv : advFlags ⟨trunc, unsup, false⟩ =
      (if trunc then 1 else 0) ||| (if unsup then 4 else 0) := by
    cases trunc <;> cases unsup <;> rfl
  rw [hadv, ← BitVec.or_assoc]
  cases trunc
  · simp [truncFlags]
  · rfl

/-- The commit of DECODE where the cursor can take the header (R181, R211). -/
theorem commitDecode_commits {s : State} {d : Decoded} (htrunc : d.trunc = s.walk.trunc)
    (h : s.cur.toNat + d.chs ≤ 0xFFFF) :
    committed d.hm (BitVec.ofNat 32 d.uhs) d.chs d.unsup s (commitDecode d s) := by
  have hcur : ¬ Config.params.curMax < s.cur.toNat + d.chs := Nat.not_lt.2 h
  rw [commitDecode, if_neg hcur, committed, ← htrunc, ← flags_or_advFlags]
  exact ⟨answered_finish .., rfl, toNat_cur_ofNat h, rfl, keepsBut_of_parts⟩

/-- BAD_OPERAND where the cursor would pass 0xFFFF (R182). -/
theorem commitDecode_refuses {s : State} {d : Decoded} (h : 0xFFFF < s.cur.toNat + d.chs) :
    refuses .badOperand 0 s (commitDecode d s) := by
  have hcur : Config.params.curMax < s.cur.toNat + d.chs := h
  rw [commitDecode, if_pos hcur]
  exact refuses_hardError ..

/-- The last piece of a header ends it for the command that reads it. -/
theorem headerEnds_endHeader {s : State} {d : Decoded} (htrunc : d.trunc = s.walk.trunc) :
    headerEnds d.hm d.uhs d.chs d.unsup s (.next (endHeader d s)) := by
  have hcommit (h : s.walk.reader ≠ .reasm) : endHeader d s = commitDecode d s := by
    unfold endHeader
    split
    · next hr => exact absurd hr h
    · rfl
    · rfl
  refine ⟨fun hr h => ⟨_, rfl, ?_⟩, fun hr h => ⟨_, rfl, ?_⟩, fun hr => ?_⟩
  · rw [hcommit hr]
    exact commitDecode_commits htrunc h
  · rw [hcommit hr]
    exact commitDecode_refuses h
  · simp only [endHeader, hr, ← htrunc]

/-- A supported NHC header of `n` bytes ends the header with its shell and UHS 48 (R200, R210). -/
theorem headerEnds_nhcShell (s : State) (sport dport : BitVec 16) (k : Option (BitVec 16))
    (n : Nat) :
    headerEnds (withShell s.walk.cand sport dport k) 48 (s.walk.pos + n - s.walk.base) false s
      (.next (nhcShell sport dport k n s)) :=
  headerEnds_endHeader (d := ⟨_, _, _, _, _⟩) rfl

/-- An unsupported NHC byte ends the header with no shell and UHS 40 (R207). -/
theorem headerEnds_nhcUnsupported (s : State) :
    headerEnds (noShell s.walk.cand) 40 (s.walk.pos - s.walk.base) true s
      (.next (nhcUnsupported s)) :=
  headerEnds_endHeader (d := ⟨_, _, _, _, _⟩) rfl

/-! ## The address rows (R68, R70) -/

section AddressRows

variable {s : State}

theorem ctxAddr_of_valid {i : BitVec 4} (h : (ctxSlot s.ctx i.toNat).valid = true) (iid : Oct) :
    ctxAddr s i iid = .ok ⟨(ctxSlot s.ctx i.toNat).pfx, iid⟩ := by
  simp only [ctxAddr, ctxPrefix, h, if_true]

theorem ctxAddr_of_missing {i : BitVec 4} (h : (ctxSlot s.ctx i.toNat).valid = false) (iid : Oct) :
    ctxAddr s i iid = .error ⟨.missingContext, s.walk.base + 1⟩ := by
  simp only [ctxAddr, ctxPrefix, h, Bool.false_eq_true, if_false]

theorem llMacAddr_of_valid {la : LinkAttr} (h : la.valid = true) :
    llMacAddr s la = .ok ⟨Config.linkLocal, iidFromLink la.addr⟩ := by
  simp only [llMacAddr, linkIid, h, if_true]

theorem llMacAddr_of_missing {la : LinkAttr} (h : la.valid = false) :
    llMacAddr s la = .error ⟨.missingLinkAddr, s.walk.base + 1⟩ := by
  simp only [llMacAddr, linkIid, h, Bool.false_eq_true, if_false]

theorem ctxMacAddr_of_valid {i : BitVec 4} {la : LinkAttr}
    (h : (ctxSlot s.ctx i.toNat).valid = true) (hl : la.valid = true) :
    ctxMacAddr s i la = .ok ⟨(ctxSlot s.ctx i.toNat).pfx, iidFromLink la.addr⟩ := by
  simp only [ctxMacAddr, ctxPrefix, h, linkIid, hl, if_true]

theorem ctxMacAddr_of_missing {i : BitVec 4} {la : LinkAttr}
    (h : (ctxSlot s.ctx i.toNat).valid = false) :
    ctxMacAddr s i la = .error ⟨.missingContext, s.walk.base + 1⟩ := by
  simp only [ctxMacAddr, ctxPrefix, h, Bool.false_eq_true, if_false]

theorem ctxMacAddr_of_missing_link {i : BitVec 4} {la : LinkAttr}
    (h : (ctxSlot s.ctx i.toNat).valid = true) (hl : la.valid = false) :
    ctxMacAddr s i la = .error ⟨.missingLinkAddr, s.walk.base + 1⟩ := by
  simp only [ctxMacAddr, ctxPrefix, h, linkIid, hl, Bool.false_eq_true, if_true, if_false]

/-- A source row whose address is there passes to the destination (R196). -/
theorem src_taken {r : Except Raise Addr} {a : Addr} (n : Nat) (h : r = .ok a) :
    (.next (srcStep r n s) : Host.Outcome State Fault Refusal) =
      .next (wireTo .dst n { s.walk.cand with src := a } s) := by
  rw [h]
  rfl

/-- A source row whose address is not there refuses (R196). -/
theorem src_refused {r : Except Raise Addr} {e : Raise} (n : Nat) (h : r = .error e) :
    ∃ t, (.next (srcStep r n s) : Host.Outcome State Fault Refusal) = .next t ∧
      refuses e.status e.pos s t := by
  rw [h]
  exact ⟨_, rfl, refuses_hardError_raise s e⟩

/-- A destination row whose address is there passes to the NHC header or ends the header (R181,
R197). -/
theorem dst_taken {r : Except Raise Addr} {a : Addr} (n : Nat) (h : r = .ok a) :
    dstTaken a n s (.next (dstStep r n s)) := by
  have hsame : SameCommand s.walk (walkOn .dst n (fun m => { m with dst := a }) s).walk :=
    ⟨rfl, rfl, rfl, rfl⟩
  rw [h, dstTaken, ← wordFlag_nhC]
  refine ⟨fun hnh => congrArg _ (if_pos hnh), fun hnh => ?_⟩
  have hend : dstStep (.ok a) n s = endHeader ⟨noShell { s.walk.cand with dst := a },
      s.walk.pos + n - s.walk.base, 40, false, s.walk.trunc⟩ s :=
    (if_neg (Bool.eq_false_iff.1 hnh)).trans (endHeader_congr hsame _ s)
  rw [hend]
  exact headerEnds_endHeader (d := ⟨_, _, _, _, _⟩) rfl

/-- A destination row whose address is not there, or whose form is reserved, refuses (R197, R198). -/
theorem dst_refused {r : Except Raise Addr} {e : Raise} (n : Nat) (h : r = .error e) :
    ∃ t, (.next (dstStep r n s) : Host.Outcome State Fault Refusal) = .next t ∧
      refuses e.status e.pos s t := by
  rw [h]
  exact ⟨_, rfl, refuses_hardError_raise s e⟩

end AddressRows

/-! ## The fragment-header rows (R90, R91, R224, R225) -/

section FragmentHeader

variable {s : State}

theorem fragHeaderCheck_cut {n : Int} (h : payloadLen s < n) :
    fragHeaderCheck n s = some ⟨.fragHeaderUndecodable, 0⟩ := if_pos h

theorem fragHeaderCheck_noLink {n : Int} (h : n ≤ payloadLen s) (hl : s.linkSrc.valid = false) :
    fragHeaderCheck n s = some ⟨.missingLinkAddr, 0⟩ := by
  rw [fragHeaderCheck, if_neg (Int.not_lt.2 h), if_pos hl]

theorem fragHeaderCheck_whole {n : Int} (h : n ≤ payloadLen s) (hl : s.linkSrc.valid = true) :
    fragHeaderCheck n s = none := by
  rw [fragHeaderCheck, if_neg (Int.not_lt.2 h), if_neg (by simp [hl])]

theorem frag1Hdr_refused {r : Raise} (size : BitVec 11) (tag : BitVec 16)
    (h : fragHeaderCheck 4 s = some r) :
    ∃ t, exec (.frag1Hdr size tag) s = .next t ∧ refuses r.status r.pos s t := by
  refine ⟨hardError r s, ?_, refuses_hardError_raise s r⟩
  simp only [exec, execFrag1Hdr, h]

theorem fragnHdr_refused {r : Raise} (size : BitVec 11) (tag : BitVec 16) (off : BitVec 8)
    (h : fragHeaderCheck 5 s = some r) :
    ∃ t, exec (.fragnHdr size tag off) s = .next t ∧ refuses r.status r.pos s t := by
  refine ⟨hardError r s, ?_, refuses_hardError_raise s r⟩
  simp only [exec, execFragnHdr, h]

end FragmentHeader

/-! ## Storing a fragment that its context takes (45_fragment_reassembly.md R230 to R236) -/

section Storing

variable {s : State}

/-- The slot that `target` names exists, and its context is valid. -/
theorem target_valid {now : BitVec 32} {size : BitVec 11} {tag : BitVec 16} {j n : Nat}
    {c : FragSlot} (h : target s now size tag = some (j, c, n)) : j < 4 ∧ c.valid = true := by
  unfold target at h
  split at h
  · next i hfind =>
    obtain ⟨hi, ⟨hvalid, -, -⟩, -⟩ := findSlot_some.1 hfind
    split at h
    · simp only [Option.some.injEq, Prod.mk.injEq] at h
      obtain ⟨rfl, rfl, -⟩ := h
      exact ⟨hi, hvalid⟩
    · exact absurd h (by simp)
  · split at h
    · next i hfree =>
      simp only [Option.some.injEq, Prod.mk.injEq] at h
      obtain ⟨rfl, rfl, -⟩ := h
      exact ⟨(freeSlot_some.1 hfree).1, rfl⟩
    · exact absurd h (by simp)

/-- A fragment with a target goes there (R222, R223, R228). -/
theorem storeFragment_of_target {now : BitVec 32} {size : BitVec 11} {tag : BitVec 16} {j n : Nat}
    {c : FragSlot} (h : target s now size tag = some (j, c, n)) (x : Piece) :
    storeFragment now size tag x s = storeInto j c n x s := by
  rcases storeFragment_cases now size tag x s with
    ⟨-, -, hnone, -⟩ | ⟨-, -, -, hnone, -⟩ | ⟨j', c', n', hsome, hstore⟩
  · exact absurd (hnone.symm.trans h) (by simp)
  · exact absurd (hnone.symm.trans h) (by simp)
  · rw [hsome] at h
    cases h
    exact hstore

theorem pieceCheck_of_fits {x : Piece} {c : FragSlot} (h : fits x c) : pieceCheck x c = none := by
  obtain ⟨-, hplace, hend, hcount, hfree⟩ := h
  exact pieceCheck_none.2 ⟨hplace, hend, hcount, Nat.ne_of_lt hfree⟩

/-- The count of a context after a fragment that fits does not wrap (R232). -/
theorem recvd_storePiece {x : Piece} {c : FragSlot} (h : fits x c) :
    (storePiece x c).recvd.toNat = c.recvd.toNat + x.added := by
  obtain ⟨-, -, -, hcount, -⟩ := h
  have htotal : c.total.toNat < 2048 := c.total.isLt
  exact Nat.mod_eq_of_lt (by omega)

theorem slotAt_of_setSlot_same {t : State} {j : Nat} {c : FragSlot} (hj : j < 4)
    (ht : t.frag = setSlot j c s) : slotAt t j = c := by
  rw [slotAt_setSlot s t j j c hj ht, if_pos rfl]

theorem slotAt_of_setSlot_ne {t : State} {j k : Nat} {c : FragSlot} (hj : j < 4)
    (ht : t.frag = setSlot j c s) (hk : k ≠ j) : slotAt t k = slotAt s k := by
  rw [slotAt_setSlot s t j k c hj ht, if_neg hk]

/-- What the slots hold when one has become the context with the fragment in it (R234, R235). -/
theorem storedAt_of_setSlot {x : Piece} {j : Nat} {c : FragSlot} {t : State} (hj : j < 4)
    (hx : fits x c) (ht : t.frag = setSlot j (storePiece x c) s) : storedAt x j c s t := by
  rw [storedAt, slotAt_of_setSlot_same hj ht]
  exact ⟨rfl, rfl, rfl, rfl, recvd_storePiece hx, rfl, rfl, memByte_storePiece x c c.draw,
    fun _ hk => slotAt_of_setSlot_ne hj ht hk⟩

/-- What FB holds of a datagram whose last piece is a continuation (R236). -/
theorem bufOf_assembled_storePiece {x : Piece} {c : FragSlot} (hfirst : x.first = false) :
    (bufOf (assembled (storePiece x c))).len = c.total.toNat - c.adj.toNat ∧
      ∀ a, a < c.total.toNat - c.adj.toNat →
        memByte 0 (bufOf (assembled (storePiece x c))).mem a =
          placedByte c (x.place c).toNat x.payload a := by
  have hlen : assembledLen (storePiece x c) = c.total.toNat - c.adj.toNat := by
    simp only [assembledLen, storePiece, hfirst, Bool.false_eq_true, if_false]
  refine ⟨by rw [bufOf_len, assembled_length, hlen], fun a ha => ?_⟩
  rw [← hlen] at ha
  rw [memByte_bufOf _ _ _ (by rwa [assembled_length]), byteOf_assembled _ _ ha]
  exact memByte_storePiece x c c.draw a

/-- An update that is committed without an advisory keeps what the update keeps. -/
theorem keepsBut_finish_of {l : List StatePart} {t : State} {st : Status} {r0 r1 : BitVec 32}
    {out : List Byte} (h : keepsBut l s t) : keepsBut l s (finish noAdv st r0 r1 out t) :=
  keepsBut_trans h (keepsBut_mono (keepsBut_finish_noAdv t st r0 r1 out) (by simp))

/-- A continuation fragment that its context takes waits or completes its datagram (R235, R236). -/
theorem continued_storeInto {x : Piece} {j n : Nat} {c : FragSlot} (hj : j < 4)
    (hv : c.valid = true) (hfirst : x.first = false) (hx : fits x c) :
    continued x j c s (storeInto j c n x s) := by
  have hcompletes : completes x (storePiece x c) =
      decide (c.recvd.toNat + x.payload.length = c.total.toNat) := by
    rw [completes, recvd_storePiece hx, Piece.added, hfirst]
    rfl
  rcases storeInto_cases j c n x s with
    ⟨hdup, -⟩ | ⟨r, -, hr, -⟩ | ⟨-, -, hdone, h⟩ | ⟨-, -, hwait, h⟩
  · exact absurd hdup hx.1
  · exact absurd (hr.symm.trans (pieceCheck_of_fits hx)) (by simp)
  · have hfull := of_decide_eq_true (hcompletes.symm.trans hdone)
    obtain ⟨hlen, hbytes⟩ := bufOf_assembled_storePiece (c := c) hfirst
    rw [h]
    refine ⟨fun hlt => absurd hfull (Nat.ne_of_lt hlt), fun _ => ⟨answered_finish_noAdv .., ?_,
      fun k hk => slotAt_of_setSlot_ne hj rfl hk, hlen, hbytes, rfl,
      keepsBut_finish_of keepsBut_of_parts⟩⟩
    rw [slotAt_of_setSlot_same hj rfl]
  · have hopen := of_decide_eq_false (hcompletes.symm.trans hwait)
    rw [h]
    refine ⟨fun _ => ⟨answered_finish_noAdv .., storedAt_of_setSlot hj hx rfl, ?_,
      keepsBut_finish_of keepsBut_of_parts⟩, fun hfull => absurd hfull hopen⟩
    rw [slotAt_of_setSlot_same hj rfl]
    exact hv

end Storing

/-! ## One step of a header's reading -/

theorem csumLen_le (k : Option (BitVec 16)) : csumLen k ≤ 2 := by
  unfold csumLen
  split <;> omega

/-- The window is longer than every piece. -/
theorem wireLen_le_wireWindow (i : Instr) : i.wireLen ≤ wireWindow := by
  cases i with
  | udpNhcFullPorts sport dport k =>
    have := csumLen_le k
    simp only [Instr.wireLen, wireWindow]
    omega
  | udpNhcNibblePorts s d k =>
    have := csumLen_le k
    simp only [Instr.wireLen, wireWindow]
    omega
  | _ => simp [Instr.wireLen, wireWindow]

/-- The temporaries once the `n` bytes of a piece have been read (20_memory.md R45). -/
def Walk.read (s : State) (n : Nat) (w : Walk) : Walk :=
  { w with trunc := w.trunc || past s w.pos n }

/-- The temporaries when a piece of `n` bytes is taken: the next one is in `slot`, and the candidate
model is `m`. -/
def Walk.took (s : State) (slot : Slot) (n : Nat) (m : HM) (w : Walk) : Walk :=
  { w.read s n with slot := some slot, pos := w.pos + n, cand := m }

/-- The temporaries when the IPHC word `v` and the CID byte, if there is one, are taken, `n` bytes in
all. -/
def Walk.tookWord (s : State) (slot : Slot) (n : Nat) (v : BitVec 16) (sci dci : BitVec 4)
    (w : Walk) : Walk :=
  { w.took s slot n w.cand with w := v, sci := sci, dci := dci }

/-- Two pieces that are taken one after the other are taken as one. -/
theorem Walk.took_took (s : State) (a b : Slot) (n k : Nat) (m m' : HM) (w : Walk) :
    (w.took s a n m).took s b k m' = w.took s b (n + k) m' := by
  simp [Walk.took, Walk.read, Bool.or_assoc, past_append, Nat.add_assoc]

/-- A step inside a header runs the row of the piece at hand (47_system_ops.md R270). -/
theorem step_wire {s : State} {w : Walk} {slot : Slot} {i : Instr} (hslot : w.slot = some slot)
    (hrow : slotRow slot w.w (rdb s w.pos wireWindow) = .ok i) :
    step (s.reading w) = exec i (s.reading (w.read s i.wireLen)) := by
  have hfetch : fetchCode (s.reading w) =
      some (.wire slot w.w (rdb s w.pos wireWindow)) := by
    simp only [fetchCode, hslot]
    rfl
  refine step_decoded hfetch (decodeWire_eq_ok.2 ⟨hrow, ?_⟩)
  rw [rdb_length]
  exact wireLen_le_wireWindow i

/-- A row that passes on takes its piece. -/
theorem step_walkOn {s : State} {w : Walk} {a b : Slot} {i : Instr} {n : Nat} {f : HM → HM}
    (hslot : w.slot = some a) (hrow : slotRow a w.w (rdb s w.pos wireWindow) = .ok i)
    (hexec : ∀ t, exec i t = .next (walkOn b n f t)) (hlen : i.wireLen = n) :
    step (s.reading w) = .next (s.reading (w.took s b n (f w.cand))) := by
  rw [step_wire hslot hrow, hexec, hlen]
  rfl

/-! ## The rows read what the decoder's field functions read -/

section Fields

variable {s : State} {w : Walk} {b0 : Byte} (hb : b0 = w.w.extractLsb' 8 8)

include hb

/-- R191: a row of the traffic class and flow label is `dec_tf`. -/
theorem step_tf (hslot : w.slot = some .tf) {r : BitVec 8 × BitVec 20 × Nat}
    (hr : r = decTf s b0 w.pos) :
    step (s.reading w) =
      .next (s.reading (w.took s .nh r.2.2 { w.cand with tc := r.1, fl := r.2.1 })) := by
  subst hr
  have hrow : slotRow .tf w.w (rdb s w.pos wireWindow) = .ok (tfRow w.w _) := rfl
  unfold decTf
  rw [← modelTc_fields, ← ecn_fields]
  cases htc : flagSet Config.tcC b0 <;> cases hfl : flagSet Config.flC b0 <;>
    simp only [tfRow, wordFlag, ← hb, htc, hfl] at hrow
  · exact step_walkOn hslot hrow (fun _ => rfl) rfl
  · exact step_walkOn hslot hrow (fun _ => rfl) rfl
  · exact step_walkOn hslot hrow (fun _ => rfl) rfl
  · exact step_walkOn hslot hrow (fun _ => rfl) rfl

/-- R192: a next-header row is `dec_nh`. -/
theorem step_nh (hslot : w.slot = some .nh) {r : BitVec 8 × Nat} (hr : r = decNh s b0 w.pos) :
    step (s.reading w) = .next (s.reading (w.took s .hlim r.2 { w.cand with nh := r.1 })) := by
  subst hr
  have hrow : slotRow .nh w.w (rdb s w.pos wireWindow) = .ok (nhRow w.w _) := rfl
  unfold decNh
  cases hnh : flagSet Config.nhC b0 <;> simp only [nhRow, wordFlag, ← hb, hnh] at hrow
  · exact step_walkOn hslot hrow (fun _ => rfl) rfl
  · exact step_walkOn hslot hrow (fun _ => rfl) rfl

/-- R194: a hop-limit row is `dec_hlim`. -/
theorem step_hlim (hslot : w.slot = some .hlim) {r : BitVec 8 × Nat}
    (hr : r = decHlim s b0 w.pos) :
    step (s.reading w) = .next (s.reading (w.took s .src r.2 { w.cand with hlim := r.1 })) := by
  subst hr
  have hrow : slotRow .hlim w.w (rdb s w.pos wireWindow) = .ok (hlimRow w.w _) := rfl
  have hmode : b0 &&& 0x03 =
      0#6 ++ BitVec.ofBool (w.w.getLsbD 9) ++ BitVec.ofBool (w.w.getLsbD 8) := by
    rw [and_three]
    simp [hb]
  unfold decHlim
  rw [hmode]
  cases h9 : w.w.getLsbD 9 <;> cases h8 : w.w.getLsbD 8 <;> simp only [hlimRow, h9, h8] at hrow
  · exact step_walkOn hslot hrow (fun _ => rfl) rfl
  · exact step_walkOn hslot hrow (fun _ => rfl) rfl
  · exact step_walkOn hslot hrow (fun _ => rfl) rfl
  · exact step_walkOn hslot hrow (fun _ => rfl) rfl

end Fields

section Prefixed

variable (s : State) (i : BitVec 4) (la : LinkAttr) (p : Nat)

theorem decPrefixed_llMac : decPrefixed s false i 0b11 la s.walk.base p =
    Except.map (·, 0) (llMacAddr s la) := by
  simp only [decPrefixed, addrPrefix, decIid, llMacAddr]
  cases linkIid la (s.walk.base + 1) <;> rfl

theorem decPrefixed_ctx64 : decPrefixed s true i 0b01 la s.walk.base p =
    Except.map (·, 8) (ctxAddr s i (rdOct s p)) := by
  simp only [decPrefixed, addrPrefix, if_true, ctxAddr]
  cases ctxPrefix s i (s.walk.base + 1) <;> rfl

theorem decPrefixed_ctx16 : decPrefixed s true i 0b10 la s.walk.base p =
    Except.map (·, 2) (ctxAddr s i (iidOf16 (rdByte s p) (rdByte s (p + 1)))) := by
  simp only [decPrefixed, addrPrefix, if_true, ctxAddr]
  cases ctxPrefix s i (s.walk.base + 1) <;> rfl

theorem decPrefixed_ctxMac : decPrefixed s true i 0b11 la s.walk.base p =
    Except.map (·, 0) (ctxMacAddr s i la) := by
  simp only [decPrefixed, addrPrefix, if_true, ctxMacAddr]
  cases ctxPrefix s i (s.walk.base + 1) with
  | error e => rfl
  | ok pfx =>
    simp only [decIid]
    cases linkIid la (s.walk.base + 1) <;> rfl

end Prefixed

/-- R196: a source row is `dec_src`: the address, or the raise, and the length of its form. -/
theorem exec_srcRow (s : State) (w : Walk) {b1 : Byte} (hb : b1 = w.w.extractLsb' 0 8) :
    ∃ r n, decSrc s b1 w.sci w.base w.pos = Except.map (·, n) r ∧
      (srcRow w.w (rdb s w.pos wireWindow)).wireLen = n ∧
      ∀ b, exec (srcRow w.w (rdb s w.pos wireWindow)) (s.reading { w with trunc := b }) =
        .next (srcStep r n (s.reading { w with trunc := b })) := by
  have hmode : b1.extractLsb' 4 2 =
      BitVec.ofBool (w.w.getLsbD 5) ++ BitVec.ofBool (w.w.getLsbD 4) := by
    simp [extractLsb'_two, hb]
  have hsac : b1.getLsbD 6 = w.w.getLsbD 6 := by simp [hb]
  unfold decSrc srcRow
  rw [hmode, hsac]
  cases w.w.getLsbD 6 <;> cases w.w.getLsbD 5 <;> cases w.w.getLsbD 4
  · exact ⟨_, _, rfl, rfl, fun _ => rfl⟩
  · exact ⟨_, _, rfl, rfl, fun _ => rfl⟩
  · exact ⟨_, _, rfl, rfl, fun _ => rfl⟩
  · exact ⟨_, _, decPrefixed_llMac (s.reading w) w.sci _ w.pos, rfl, fun _ => rfl⟩
  · exact ⟨_, _, rfl, rfl, fun _ => rfl⟩
  · exact ⟨_, _, decPrefixed_ctx64 (s.reading w) .., rfl, fun _ => rfl⟩
  · exact ⟨_, _, decPrefixed_ctx16 (s.reading w) .., rfl, fun _ => rfl⟩
  · exact ⟨_, _, decPrefixed_ctxMac (s.reading w) .., rfl, fun _ => rfl⟩

/-- R197, R198: a destination row is `dec_dst`. -/
theorem exec_dstRow (s : State) (w : Walk) {b1 : Byte} (hb : b1 = w.w.extractLsb' 0 8) :
    ∃ r n, decDst s b1 w.dci w.base w.pos = Except.map (·, n) r ∧
      (dstRow w.w (rdb s w.pos wireWindow)).wireLen = n ∧
      ∀ b, exec (dstRow w.w (rdb s w.pos wireWindow)) (s.reading { w with trunc := b }) =
        .next (dstStep r n (s.reading { w with trunc := b })) := by
  have hmode : b1.extractLsb' 0 2 =
      BitVec.ofBool (w.w.getLsbD 1) ++ BitVec.ofBool (w.w.getLsbD 0) := by
    simp [extractLsb'_two, hb]
  have hm : b1.getLsbD 3 = w.w.getLsbD 3 := by simp [hb]
  have hdac : b1.getLsbD 2 = w.w.getLsbD 2 := by simp [hb]
  unfold decDst dstRow decMcast
  rw [hmode, hm, hdac]
  cases w.w.getLsbD 3 <;> cases w.w.getLsbD 2
  · cases w.w.getLsbD 1 <;> cases w.w.getLsbD 0
    · exact ⟨_, _, rfl, rfl, fun _ => rfl⟩
    · exact ⟨_, _, rfl, rfl, fun _ => rfl⟩
    · exact ⟨_, _, rfl, rfl, fun _ => rfl⟩
    · exact ⟨_, _, decPrefixed_llMac (s.reading w) w.dci _ w.pos, rfl, fun _ => rfl⟩
  · cases w.w.getLsbD 1 <;> cases w.w.getLsbD 0
    · exact ⟨reservedDst (s.reading w), _, rfl, rfl, fun _ => rfl⟩
    · exact ⟨_, _, decPrefixed_ctx64 (s.reading w) .., rfl, fun _ => rfl⟩
    · exact ⟨_, _, decPrefixed_ctx16 (s.reading w) .., rfl, fun _ => rfl⟩
    · exact ⟨_, _, decPrefixed_ctxMac (s.reading w) .., rfl, fun _ => rfl⟩
  · cases w.w.getLsbD 1 <;> cases w.w.getLsbD 0 <;> exact ⟨_, _, rfl, rfl, fun _ => rfl⟩
  · exact ⟨reservedDst (s.reading w), _, rfl, rfl, fun _ => rfl⟩

/-- R200, R207: an NHC row is `dec_nhc`: it ends the header with the shell it reads, or with none. -/
theorem exec_nhcRow (s : State) (p : Nat) :
    (∃ u, decNhc s p = some u ∧ (nhcRow (rdb s p wireWindow)).wireLen = u.n ∧
        ∀ t, exec (nhcRow (rdb s p wireWindow)) t =
          .next (nhcShell u.sport u.dport u.csum u.n t)) ∨
      (decNhc s p = none ∧ (nhcRow (rdb s p wireWindow)).wireLen = 1 ∧
        ∀ t, exec (nhcRow (rdb s p wireWindow)) t = .next (nhcUnsupported t)) := by
  have hn : byteOf (rdb s p wireWindow) 0 = rdByte s p := rfl
  have hcsum : (rdByte s p &&& 0x04 ≠ 0) ↔ (rdByte s p).getLsbD 2 = true := by
    rw [← flagSet_nhC]
    simp [flagSet, Config.nhC]
  unfold decNhc nhcRow nhcCsum decCsum
  simp only [hn, and_three, hcsum, ne_eq, ite_not]
  by_cases hudp : rdByte s p &&& 0xF8 = 0xF0
  · simp only [hudp, if_true]
    cases (rdByte s p).getLsbD 1 <;> cases (rdByte s p).getLsbD 0
    · cases (rdByte s p).getLsbD 2 <;> exact .inl ⟨_, rfl, rfl, fun _ => rfl⟩
    · exact .inr ⟨rfl, rfl, fun _ => rfl⟩
    · exact .inr ⟨rfl, rfl, fun _ => rfl⟩
    · cases (rdByte s p).getLsbD 2 <;> exact .inl ⟨_, rfl, rfl, fun _ => rfl⟩
  · simp only [hudp, if_false]
    exact .inr ⟨trivial, rfl, fun _ => rfl⟩

/-! ## Runs -/

/-- The outcome `o` is reached in at most `n` steps. -/
def Within (n : Nat) (s : State) (o : Host.Outcome State Fault Refusal) : Prop :=
  ∃ k, k ≤ n ∧ Host.Core.run Sys2Proof.core k s = o

theorem run_step {s t : State} (h : step s = .next t) (k : Nat) :
    Host.Core.run Sys2Proof.core (k + 1) s = Host.Core.run Sys2Proof.core k t := by
  have hcore : Sys2Proof.core.step s = .next t := h
  simp only [Host.Core.run, hcore]

theorem Within.last {n : Nat} {s t : State} (h : step s = .next t) : Within (n + 1) s (.next t) :=
  ⟨1, Nat.le_add_left 1 n, run_step h 0⟩

theorem Within.step {n : Nat} {s t : State} {o : Host.Outcome State Fault Refusal}
    (h : step s = .next t) (ht : Within n t o) : Within (n + 1) s o := by
  obtain ⟨k, hk, hrun⟩ := ht
  exact ⟨k + 1, Nat.succ_le_succ hk, (run_step h k).trans hrun⟩

theorem Within.mono {n m : Nat} {s : State} {o : Host.Outcome State Fault Refusal}
    (h : Within n s o) (hnm : n ≤ m) : Within m s o := by
  obtain ⟨k, hk, hrun⟩ := h
  exact ⟨k, Nat.le_trans hk hnm, hrun⟩

/-- How the command with the temporaries `w` ends a header that has been read (R181, R182, R226). -/
def headerOutcome (s : State) (w : Walk) (r : Except Raise Decoded) : State :=
  match r with
  | .ok d => endHeader d (s.reading w)
  | .error e => hardError e s

theorem headerOutcome_congr {w v : Walk} (h : SameCommand w v) (s : State)
    (r : Except Raise Decoded) : headerOutcome s v r = headerOutcome s w r := by
  cases r with
  | ok d => exact endHeader_congr h d s
  | error e => rfl

/-! ## The reading of a header, from its last piece to its first -/

section Reading

variable {s : State} {w : Walk} {b0 b1 : Byte}

/-- The NHC header ends the header (R200, R207). -/
theorem step_nhc (hslot : w.slot = some .nhc) (hnh : flagSet Config.nhC b0 = true) :
    step (s.reading w) =
      .next (endHeader (decTail s w.base b0 w.cand w.pos w.trunc) (s.reading w)) := by
  have hsame (n : Nat) : SameCommand w (w.read s n) := ⟨rfl, rfl, rfl, rfl⟩
  rw [step_wire hslot rfl]
  unfold decTail
  rw [if_pos hnh]
  rcases exec_nhcRow s w.pos with ⟨u, hdec, hlen, hexec⟩ | ⟨hdec, hlen, hexec⟩
  · rw [hexec, hlen, hdec, ← endHeader_congr (hsame u.n)]
    rfl
  · rw [hexec, hlen, hdec, ← endHeader_congr (hsame 1)]
    rfl

/-- A destination row refuses as `dec_dst` does. -/
theorem step_dst_error (hb1 : b1 = w.w.extractLsb' 0 8) (hslot : w.slot = some .dst) {e : Raise}
    (hdst : decDst s b1 w.dci w.base w.pos = .error e) :
    step (s.reading w) = .next (hardError e s) := by
  obtain ⟨r, n, hr, -, hexec⟩ := exec_dstRow s w hb1
  rw [hdst] at hr
  cases r with
  | ok a => cases hr
  | error e' =>
    cases hr
    rw [step_wire hslot rfl]
    exact hexec _

/-- The destination address, and the NHC header if there is one, end the header. -/
theorem within_dst_ok (hb0 : b0 = w.w.extractLsb' 8 8) (hb1 : b1 = w.w.extractLsb' 0 8)
    (hslot : w.slot = some .dst) {a : Addr} {n : Nat}
    (hdst : decDst s b1 w.dci w.base w.pos = .ok (a, n)) :
    Within 2 (s.reading w) (.next (endHeader (decTail s w.base b0 { w.cand with dst := a }
      (w.pos + n) (w.trunc || past s w.pos n)) (s.reading w))) := by
  subst hb0
  obtain ⟨r, n', hr, hlen, hexec⟩ := exec_dstRow s w hb1
  rw [hdst] at hr
  cases r with
  | error e => cases hr
  | ok a' =>
    cases hr
    have hsame (slot : Slot) : SameCommand w (w.took s slot n { w.cand with dst := a }) :=
      ⟨rfl, rfl, rfl, rfl⟩
    have hstep : step (s.reading w) =
        .next (afterDst (s.reading (w.took s .dst n { w.cand with dst := a }))) := by
      rw [step_wire hslot rfl, ← hlen]
      exact hlen ▸ hexec _
    by_cases hnh : flagSet Config.nhC (w.w.extractLsb' 8 8) = true
    · have hnext : step (s.reading w) =
          .next (s.reading (w.took s .nhc n { w.cand with dst := a })) :=
        hstep.trans (congrArg _ (if_pos hnh))
      rw [← endHeader_congr (hsame .nhc)]
      exact .step hnext (.last (step_nhc rfl hnh))
    · have hend := hstep.trans (congrArg _ (if_neg hnh))
      rw [← endHeader_congr (hsame .dst), decTail, if_neg hnh]
      exact .last hend

/-- A source row refuses as `dec_src` does. -/
theorem step_src_error (hb1 : b1 = w.w.extractLsb' 0 8) (hslot : w.slot = some .src) {e : Raise}
    (hsrc : decSrc s b1 w.sci w.base w.pos = .error e) :
    step (s.reading w) = .next (hardError e s) := by
  obtain ⟨r, n, hr, -, hexec⟩ := exec_srcRow s w hb1
  rw [hsrc] at hr
  cases r with
  | ok a => cases hr
  | error e' =>
    cases hr
    rw [step_wire hslot rfl]
    exact hexec _

/-- A source row takes the address that `dec_src` takes. -/
theorem step_src_ok (hb1 : b1 = w.w.extractLsb' 0 8) (hslot : w.slot = some .src) {a : Addr}
    {n : Nat} (hsrc : decSrc s b1 w.sci w.base w.pos = .ok (a, n)) :
    step (s.reading w) = .next (s.reading (w.took s .dst n { w.cand with src := a })) := by
  obtain ⟨r, n', hr, hlen, hexec⟩ := exec_srcRow s w hb1
  rw [hsrc] at hr
  cases r with
  | error e => cases hr
  | ok a' =>
    cases hr
    rw [step_wire hslot rfl, ← hlen]
    exact hlen ▸ hexec _

/-- From the source address on (R181). -/
theorem within_addrs (hb0 : b0 = w.w.extractLsb' 8 8) (hb1 : b1 = w.w.extractLsb' 0 8)
    (hslot : w.slot = some .src) :
    Within 3 (s.reading w) (.next (headerOutcome s w
      (decAddrs s w.base b0 b1 w.sci w.dci w.cand w.pos w.trunc))) := by
  unfold decAddrs
  split
  · next e hsrc => exact .last (step_src_error hb1 hslot hsrc)
  · next a n hsrc =>
    have hsame : SameCommand w (w.took s .dst n { w.cand with src := a }) := ⟨rfl, rfl, rfl, rfl⟩
    refine .step (step_src_ok hb1 hslot hsrc) ?_
    rw [← headerOutcome_congr hsame]
    split
    · next e hdst =>
      exact .last (step_dst_error (w := w.took s .dst n { w.cand with src := a }) hb1 rfl hdst)
    · next d k hdst =>
      exact within_dst_ok (w := w.took s .dst n { w.cand with src := a }) hb0 hb1 rfl hdst

/-- From the traffic class on (R181), its three fields being `n` bytes long. -/
theorem within_fields (hb0 : b0 = w.w.extractLsb' 8 8) (hb1 : b1 = w.w.extractLsb' 0 8)
    (hslot : w.slot = some .tf) {tf : BitVec 8 × BitVec 20 × Nat} {nh hl : BitVec 8 × Nat}
    {n : Nat} (htf : tf = decTf s b0 w.pos) (hnh : nh = decNh s b0 (w.pos + tf.2.2))
    (hhl : hl = decHlim s b0 (w.pos + (tf.2.2 + nh.2))) (hn : n = tf.2.2 + nh.2 + hl.2) :
    Within 6 (s.reading w) (.next (headerOutcome s w
      (decAddrs s w.base b0 b1 w.sci w.dci
        { w.cand with tc := tf.1, fl := tf.2.1, nh := nh.1, hlim := hl.1 }
        (w.pos + n) (w.trunc || past s w.pos n)))) := by
  have hstep1 := step_tf hb0 hslot htf
  have hstep2 := step_nh (w := w.took s .nh tf.2.2 { w.cand with tc := tf.1, fl := tf.2.1 })
    hb0 rfl hnh
  rw [Walk.took_took] at hstep2
  have hstep3 := step_hlim (w := w.took s .hlim (tf.2.2 + nh.2)
    { w.cand with tc := tf.1, fl := tf.2.1, nh := nh.1 }) hb0 rfl hhl
  rw [Walk.took_took, ← hn] at hstep3
  have hsame (m : HM) : SameCommand w (w.took s .src n m) := ⟨rfl, rfl, rfl, rfl⟩
  refine .step hstep1 (.step hstep2 (.step hstep3 ?_))
  rw [← headerOutcome_congr (hsame _)]
  exact within_addrs (w := w.took s .src n _) hb0 hb1 rfl

/-- R62, R190: the IPHC word is kept as it was read; the context indices are the default ones. -/
theorem step_word {c : Bool} (hslot : w.slot = some .word) (hb0 : b0 = rdByte s w.pos)
    (hb1 : b1 = rdByte s (w.pos + 1)) (hiphc : b0 &&& 0xE0 = 0x60) (hc : b1.getLsbD 7 = c) :
    step (s.reading w) = .next (s.reading (w.tookWord s (if c then .cid else .tf) 2 (be16 b0 b1)
      Config.noCidIndex Config.noCidIndex)) := by
  subst hc
  have hrow : slotRow .word w.w (rdb s w.pos wireWindow) = wordRow (be16 b0 b1) := by
    rw [hb0, hb1]; rfl
  rw [step_wire hslot (hrow.trans (wordRow_be16 hiphc b1))]
  simp only [exec, execIphcWord, iphcByte0_fields hiphc, iphcByte1_fields]
  rfl

/-- R67: the CID byte gives the two context indices. -/
theorem step_cid (n : Nat) (v : BitVec 16) (i j : BitVec 4) :
    step (s.reading (w.tookWord s .cid n v i j)) =
      .next (s.reading (w.tookWord s .tf (n + 1) v ((rdByte s (w.pos + n)).extractLsb' 4 4)
        ((rdByte s (w.pos + n)).extractLsb' 0 4))) := by
  have htrunc : (w.trunc || past s w.pos (n + 1)) =
      (w.trunc || past s w.pos n || past s (w.pos + n) 1) := by
    rw [Bool.or_assoc, past_append]
  simp only [Walk.tookWord, Walk.took, Walk.read, htrunc]
  exact step_wire (w := w.tookWord s .cid n v i j) (slot := .cid) rfl rfl

/-- From behind the IPHC word and the CID byte if there is one, `n` bytes in all, the rows read
what `decode_at` reads from its start (R181). -/
theorem within_behindWord {c : Bool} {n : Nat} (hslot : w.slot = some .tf)
    (hb0 : b0 = rdByte s w.base) (hb1 : b1 = rdByte s (w.base + 1)) (hiphc : b0 &&& 0xE0 = 0x60)
    (hc : b1.getLsbD 7 = c) (hw : w.w = be16 b0 b1) (hn : n = 2 + if c then 1 else 0)
    (hpos : w.pos = w.base + n)
    (hsci : w.sci = if c then (rdByte s (w.base + 2)).extractLsb' 4 4 else Config.noCidIndex)
    (hdci : w.dci = if c then (rdByte s (w.base + 2)).extractLsb' 0 4 else Config.noCidIndex)
    (hcand : w.cand = HM.reset) (htrunc : w.trunc = past s w.base n) :
    Within 6 (s.reading w) (.next (headerOutcome s w (decodeAt s w.base))) := by
  have hb0' : b0 = w.w.extractLsb' 8 8 := by rw [hw, upper_be16]
  have hb1' : b1 = w.w.extractLsb' 0 8 := by rw [hw, lower_be16]
  have hfields := within_fields (s := s) hb0' hb1' hslot rfl rfl rfl rfl
  rw [htrunc, hpos, past_append, hcand] at hfields
  unfold decodeAt
  simp only [← hb0, ← hb1, if_neg (not_not.2 hiphc), hc, ← hsci, ← hdci, Nat.add_assoc, ← hn]
  simp only [Nat.add_assoc] at hfields
  convert hfields using 5
  omega

/-- R62, R67: from the IPHC word on, whose first byte has been read as the dispatch byte. -/
theorem within_word (hslot : w.slot = some .word) (hiphc : rdByte s w.base &&& 0xE0 = 0x60)
    (hpos : w.pos = w.base) (hcand : w.cand = HM.reset) (htrunc : w.trunc = past s w.base 1) :
    Within 8 (s.reading w) (.next (headerOutcome s w (decodeAt s w.base))) := by
  have hread (n : Nat) : (w.trunc || past s w.pos (n + 1)) = past s w.base (n + 1) := by
    rw [htrunc, hpos, past_eq, past_eq, ← Bool.decide_or, decide_eq_decide]
    omega
  have hsame (n : Nat) (v : BitVec 16) (i j : BitVec 4) :
      SameCommand w (w.tookWord s .tf n v i j) := ⟨rfl, rfl, rfl, rfl⟩
  have hb0 : rdByte s w.base = rdByte s w.pos := by rw [hpos]
  have hb1 : rdByte s (w.base + 1) = rdByte s (w.pos + 1) := by rw [hpos]
  generalize hv : be16 (rdByte s w.base) (rdByte s (w.base + 1)) = v
  cases hc : (rdByte s (w.base + 1)).getLsbD 7
  · have hstep := step_word hslot hb0 hb1 hiphc hc
    rw [hv] at hstep
    have hrest := within_behindWord (s := s)
      (w := w.tookWord s .tf 2 v Config.noCidIndex Config.noCidIndex)
      rfl rfl rfl hiphc hc hv.symm rfl (congrArg (· + 2) hpos) rfl rfl hcand (hread 1)
    rw [headerOutcome_congr (hsame ..)] at hrest
    exact .step hstep (hrest.mono (by decide))
  · have hstep := step_word hslot hb0 hb1 hiphc hc
    have hcid := step_cid (s := s) (w := w) 2 v Config.noCidIndex Config.noCidIndex
    rw [hv] at hstep
    rw [hpos] at hcid
    have hrest := within_behindWord (s := s)
      (w := w.tookWord s .tf 3 v ((rdByte s (w.base + 2)).extractLsb' 4 4)
        ((rdByte s (w.base + 2)).extractLsb' 0 4))
      rfl rfl rfl hiphc hc hv.symm rfl (congrArg (· + 3) hpos) rfl rfl hcand (hread 2)
    rw [headerOutcome_congr (hsame ..)] at hrest
    exact .step hstep (.step hcid hrest)

theorem step_dispatch (hslot : w.slot = some .dispatch) :
    step (s.reading w) =
      .next (onDispatch (dispatchClass (rdByte s w.pos)) (s.reading (w.read s 1))) := by
  have hrow : slotRow .dispatch w.w (rdb s w.pos wireWindow) =
      .ok (dispatchRow (rdByte s w.pos)) := rfl
  rw [step_wire hslot hrow, exec_dispatchRow, wireLen_dispatchRow]

theorem decodeAt_of_not_iphc {base : Nat} (h : ¬ rdByte s base &&& 0xE0 = 0x60) :
    decodeAt s base = .error ⟨.notIphc, base⟩ := by
  simp only [decodeAt, ne_eq, h, not_false_eq_true, if_true]

/-- From the dispatch byte on, the rows read a header as `decode_at` does (R61, R181). -/
theorem within_header (hslot : w.slot = some .dispatch) (hreader : readsHeader w)
    (hpos : w.pos = w.base) (hcand : w.cand = HM.reset) (htrunc : w.trunc = false) :
    Within 9 (s.reading w) (.next (headerOutcome s w (decodeAt s w.base))) := by
  have hstep := step_dispatch (s := s) hslot
  rw [onDispatch_of_readsHeader hreader] at hstep
  simp only [headerStart, dispatchClass_eq_two, hpos] at hstep
  by_cases hiphc : rdByte s w.base &&& 0xE0 = 0x60
  · rw [if_pos hiphc] at hstep
    have hread : (w.trunc || past s w.pos 1) = past s w.base 1 := by
      rw [htrunc, hpos, Bool.false_or]
    have hsame : SameCommand w { w.read s 1 with slot := some .word } := ⟨rfl, rfl, rfl, rfl⟩
    have hword := within_word (s := s) (w := { w.read s 1 with slot := some .word })
      rfl hiphc hpos hcand hread
    rw [headerOutcome_congr hsame] at hword
    exact .step hstep hword
  · rw [if_neg hiphc] at hstep
    rw [decodeAt_of_not_iphc hiphc]
    exact .last (hpos ▸ hstep)

end Reading

/-- The command DECODE is the outcome of the header at the cursor (R181, R182). -/
theorem headerOutcome_decode (s : State) :
    headerOutcome s (startWalk .decode 0 s).walk (decodeAt s 0) = decodeState Config.params s := by
  unfold decodeState headerOutcome
  cases decodeAt s 0 with
  | ok d => exact commitDecode_walk ..
  | error e => rfl

end Sys2Proof.Machine

/-! # The obligations about the encoding -/

namespace Sys2Proof.Proofs

open Sys2Proof Sys2Proof.Machine

/-- Settles O2: the decoder rejects the tuple by its opcode, and the rejection is a hard error. -/
theorem unknownOpcodeIsBadCommand : Obligations.UnknownOpcodeIsBadCommand := by
  intro s t rest hslot hhost hop
  refine ⟨_, step_rejected (fetchCode_command hslot hhost) (decodeCommand_of_unlisted hop), ?_⟩
  have htail : s.host.tail = rest := by rw [hhost]; rfl
  simp only [rejected, htail]
  exact refuses_hardError ..

/-- Settles O27: the rows from the dispatch byte on are what `decode_at` reads, and their last ends
the header as DECODE does. -/
theorem decodeIsItsWireSteps : Obligations.DecodeIsItsWireSteps := by
  intro s
  refine ⟨step_dispatch rfl, ?_⟩
  have hrun : Within 9 (startWalk .decode 0 s)
      (.next (headerOutcome s (startWalk .decode 0 s).walk (decodeAt s 0))) :=
    within_header (w := (startWalk .decode 0 s).walk) rfl (.inl rfl) rfl rfl rfl
  rw [headerOutcome_decode] at hrun
  exact hrun

/-- Settles O29, from what `onDispatch` does for each command that reads a dispatch byte. -/
theorem dispatchRowsByReader : Obligations.DispatchRowsByReader := by
  intro s tc fl nh hlim size b i code hmem
  have hexec : exec i s = .next (onDispatch code s) := by
    simp only [List.mem_cons, Prod.mk.injEq, List.not_mem_nil, or_false] at hmem
    rcases hmem with ⟨rfl, rfl⟩ | ⟨rfl, rfl⟩ | ⟨rfl, rfl⟩ | ⟨rfl, rfl⟩ | ⟨rfl, rfl⟩ <;> rfl
  rw [hexec]
  refine ⟨fun hr => ?_, fun hr => ?_, fun hr hbase => ?_⟩
  · have hend : onDispatch code s = endClassify code s.walk.trunc s := by simp only [onDispatch, hr]
    rw [hend]
    exact ⟨_, rfl, endClassify_ends code s.walk.trunc⟩
  · rw [onDispatch_of_readsHeader hr]
    exact ⟨fun h => h ▸ rfl, fun h => ⟨_, rfl, headerStart_refuses h⟩⟩
  · have hstart : onDispatch code s = fragmentStart code s := by
      simp only [onDispatch, hr, hbase, if_true]
    rw [hstart]
    exact ⟨fun h => h ▸ rfl, fun h => h ▸ rfl, fun h3 h4 => ⟨_, rfl, fragmentStart_passes h3 h4⟩⟩

/-- Settles O30: each field of the word is a field of one of its two bytes. -/
theorem iphcWordAndCidRows : Obligations.IphcWordAndCidRows := by
  intro s tc fl nh cid sac m dac hlim sam dam sci dci
  refine ⟨⟨_, rfl, rfl, ?_⟩, _, rfl, rfl, rfl⟩
  dsimp only
  generalize h0 : iphcByte0 tc fl nh hlim = b0
  generalize h1 : iphcByte1 cid sac sam m dac dam = b1
  obtain ⟨hclass, htc, hfl, hnh, hhlim⟩ := iphcByte0_bits tc fl nh hlim h0.symm
  obtain ⟨hcid, hsac, hsam, hm, hdac, hdam⟩ := iphcByte1_bits cid sac sam m dac dam h1.symm
  exact ⟨rfl, rfl, (extractLsb'_be16_upper b0 b1 5 3).trans hclass,
    (getLsbD_be16_upper b0 b1 4).trans htc, (getLsbD_be16_upper b0 b1 3).trans hfl,
    (getLsbD_be16_upper b0 b1 2).trans hnh, (extractLsb'_be16_upper b0 b1 0 2).trans hhlim,
    (getLsbD_be16_lower b0 b1 7 (by decide)).trans hcid,
    (getLsbD_be16_lower b0 b1 6 (by decide)).trans hsac,
    (extractLsb'_be16_lower b0 b1 4 2 (by decide)).trans hsam,
    (getLsbD_be16_lower b0 b1 3 (by decide)).trans hm,
    (getLsbD_be16_lower b0 b1 2 (by decide)).trans hdac,
    (extractLsb'_be16_lower b0 b1 0 2 (by decide)).trans hdam, rfl, rfl, rfl, rfl, rfl⟩

/-- Settles O31: the rows put DSCP and ECN where `model_tc` puts them. -/
theorem trafficClassRows : Obligations.TrafficClassRows := by
  intro s ecn pad dscp nib fl
  have hecn : ecn.zeroExtend 8 = (0 : BitVec 6) ++ ecn := by
    revert ecn; decide
  rw [modelTc_append, hecn]
  exact ⟨rfl, rfl, rfl, rfl⟩

/-- Settles O32: each row is one passing on. -/
theorem nextHeaderAndHopLimitRows : Obligations.NextHeaderAndHopLimitRows :=
  fun _ _ => ⟨rfl, rfl, rfl, rfl, rfl, rfl⟩

/-- Settles O33, from what each form of address answers. -/
theorem sourceAddressRows : Obligations.SourceAddressRows := by
  intro s a iid x y ll m c hll hc hm
  obtain rfl : ll = Config.linkLocal := hll
  obtain rfl : m = iidFromLink s.linkSrc.addr := hm
  subst hc
  refine ⟨src_taken 16 rfl, src_taken 8 rfl, src_taken 2 rfl, src_taken 0 rfl,
    fun hl => src_taken 0 (llMacAddr_of_valid hl),
    fun hl => src_refused 0 (llMacAddr_of_missing hl),
    fun hv => ⟨src_taken 8 (ctxAddr_of_valid hv iid), src_taken 2 (ctxAddr_of_valid hv _),
      fun hl => src_taken 0 (ctxMacAddr_of_valid hv hl),
      fun hl => src_refused 0 (ctxMacAddr_of_missing_link hv hl)⟩,
    fun hv => ?_⟩
  simp only [List.forall_mem_cons, List.not_mem_nil, false_imp_iff, implies_true, and_true]
  exact ⟨src_refused 8 (ctxAddr_of_missing hv iid), src_refused 2 (ctxAddr_of_missing hv _),
    src_refused 0 (ctxMacAddr_of_missing hv)⟩

/-- Settles O34, from what each form of address answers and what follows a destination. -/
theorem destinationAddressRows : Obligations.DestinationAddressRows := by
  intro s a iid x0 x1 x2 x3 x4 x5 dam ll m c hll hc hm
  obtain rfl : ll = Config.linkLocal := hll
  obtain rfl : m = iidFromLink s.linkDst.addr := hm
  subst hc
  refine ⟨dst_taken 16 rfl, dst_taken 8 rfl, dst_taken 2 rfl,
    fun hl => dst_taken 0 (llMacAddr_of_valid hl),
    fun hl => dst_refused 0 (llMacAddr_of_missing hl),
    fun hv => ⟨dst_taken 8 (ctxAddr_of_valid hv iid), dst_taken 2 (ctxAddr_of_valid hv _),
      fun hl => dst_taken 0 (ctxMacAddr_of_valid hv hl),
      fun hl => dst_refused 0 (ctxMacAddr_of_missing_link hv hl)⟩,
    fun hv => ?_, dst_taken 16 rfl, dst_taken 6 rfl, dst_taken 4 rfl, dst_taken 1 rfl, ?_⟩
  · simp only [List.forall_mem_cons, List.not_mem_nil, false_imp_iff, implies_true, and_true]
    exact ⟨dst_refused 8 (ctxAddr_of_missing hv iid), dst_refused 2 (ctxAddr_of_missing hv _),
      dst_refused 0 (ctxMacAddr_of_missing hv)⟩
  · simp only [List.forall_mem_cons, List.not_mem_nil, false_imp_iff, implies_true, and_true]
    exact ⟨dst_refused 0 rfl, dst_refused 0 rfl⟩

/-- Settles O35, from the two ends that an NHC row can give a header. -/
theorem nhcRows : Obligations.NhcRows := by
  intro s sport dport k sn dn c b
  refine ⟨headerEnds_nhcShell s sport dport (some k) 7, headerEnds_nhcShell s sport dport none 5,
    headerEnds_nhcShell s (nibblePort sn) (nibblePort dn) (some k) 4,
    headerEnds_nhcShell s (nibblePort sn) (nibblePort dn) none 2, ?_⟩
  simp only [List.forall_mem_cons, List.not_mem_nil, false_imp_iff, implies_true, and_true]
  exact ⟨headerEnds_nhcUnsupported s, headerEnds_nhcUnsupported s, headerEnds_nhcUnsupported s⟩

/-- Settles O36: the checks on a fragment header, and what a whole one leads to. -/
theorem fragmentHeaderRows : Obligations.FragmentHeaderRows := by
  intro s size tag off
  refine ⟨fun hl hlen => ?_, fun j n f x hl hlen htarget hx hfits => ?_,
    fun h => frag1Hdr_refused size tag (fragHeaderCheck_cut h),
    fun h => fragnHdr_refused size tag off (fragHeaderCheck_cut h),
    fun hl => ⟨fun h => frag1Hdr_refused size tag (fragHeaderCheck_noLink h hl),
      fun h => fragnHdr_refused size tag off (fragHeaderCheck_noLink h hl)⟩⟩
  · refine ⟨{ s with walk := { s.walk with
      slot := some .dispatch, base := s.walk.pos + 4, pos := s.walk.pos + 4
      size := size, tag := tag } }, ?_, rfl, rfl⟩
    simp only [exec, execFrag1Hdr, fragHeaderCheck_whole hlen hl]
  · obtain ⟨hj, hv⟩ := target_valid htarget
    refine ⟨storeInto j f n x s, ?_, continued_storeInto hj hv (hx ▸ rfl) hfits⟩
    simp only [exec, execFragnHdr, fragHeaderCheck_whole hlen hl]
    subst hx
    exact congrArg _ (storeFragment_of_target htarget _)

/-- Settles O56: the decoder evaluates on each word. -/
theorem wordsOfTheTablesDecode : Obligations.WordsOfTheTablesDecode :=
  ⟨rfl, rfl, rfl, rfl, rfl, rfl, rfl, rfl, rfl, rfl, rfl, rfl⟩

/-- Settles O58: the decoder's rows for a slot are well-formed, and it looks at their length. -/
theorem decodedInstructionsAreWellFormed : Obligations.DecodedInstructionsAreWellFormed := by
  intro c i h
  cases c with
  | command t =>
    have hslot : rowSlot i = none := rowSlot_of_decodeCommand h
    exact ⟨wellFormed_of_rowSlot (by simp [hslot]) (by simp [hslot]), fun _ _ _ hc => nomatch hc⟩
  | wire slot w l =>
    obtain ⟨hrow, hlen⟩ := decodeWire_eq_ok.1 h
    exact ⟨wellFormed_of_slotRow hrow, fun _ _ _ hc => by cases hc; exact hlen⟩

end Sys2Proof.Proofs

/-! # The byte-cursor buffer commands (40_buffer_ops.md)

What each command answers in the range of its operands, and that it refuses outside; the statements
follow at the end. -/

namespace Sys2Proof.Machine

/-! ## The refusal of an operand (R101) -/

/-- BAD_OPERAND ends a command and changes nothing (R290). -/
theorem refused_of_badOperand {s : State} {o : Host.Outcome State Fault Refusal}
    (h : o = .next (hardError badOperand s)) :
    ∃ t, o = .next t ∧ refuses .badOperand 0 s t :=
  ⟨_, h, refuses_hardError ..⟩

/-- A cursor offset operand is refused above 0xFFFF (R112 to R115). -/
theorem offOk_eq_false {off : BitVec 32} : offOk off = false ↔ 0xFFFF < off.toNat := by
  simp [offOk, inRange]

/-! ## SETBYTES and PB_LOAD (R111, R120) -/

section Loads

variable {s : State} {data : List Byte}

theorem exec_setbytes_fits (h : data.length ≤ 2048) :
    exec (.setbytes data) s = .next (done 0 0 [] { s with fb := bufOf data, cur := 0 }) :=
  congrArg _ (if_neg (Nat.not_lt.2 h))

theorem exec_setbytes_tooLong (h : 2048 < data.length) :
    exec (.setbytes data) s = .next (hardError badOperand s) :=
  congrArg _ (if_pos h)

theorem exec_pbLoad_fits (h : data.length ≤ 2048) :
    exec (.pbLoad data) s = .next (done 0 0 [] { s with pb := bufOf data }) :=
  congrArg _ (if_neg (Nat.not_lt.2 h))

theorem exec_pbLoad_tooLong (h : 2048 < data.length) :
    exec (.pbLoad data) s = .next (hardError badOperand s) :=
  congrArg _ (if_pos h)

end Loads

/-! ## GETBYTE, GET16 and GET24 (R112 to R114) -/

section Reads

variable {s : State} {off : BitVec 32}

/-- The number of a tolerant read with one more byte at its end (R41, R44). -/
theorem toNat_append_byteAt {w i n : Nat} {v : BitVec w} (h : v.toNat = rd s i n) :
    (v ++ byteAt s (s.cur.toNat + i + n)).toNat = rd s i (n + 1) := by
  have hrdb : rdb s i (n + 1) = rdb s i n ++ [byteAt s (s.cur.toNat + i + n)] := by
    simp [rdb, rdByte, List.range_succ, Nat.add_assoc]
  rw [toNat_append_byte, h, rd, rd, hrdb, beNat_concat]

/-- A read in range answers the number of its bytes and notes a truncation exactly when its last
byte lies at or beyond FB.LEN; its commit is that of CLASSIFY, which is such a read too (R180). -/
theorem readCommand_answers {n : Nat} {v : BitVec 32} (hn : 0 < n) (hoff : off.toNat ≤ 0xFFFF)
    (hv : v.toNat = rd s off.toNat n) : readAnswer n off v s (readCommand n off s) := by
  have hpast : past s off.toNat n = decide (s.fb.len < s.cur.toNat + off.toNat + n) := by
    simp [past, hn]
  have hread : readCommand n off s = endClassify v.toNat (past s off.toNat n) s := by
    rw [hv]
    exact if_pos (decide_eq_true hoff)
  have hends := endClassify_ends (s := s) v.toNat (past s off.toNat n)
  rw [BitVec.ofNat_toNat, BitVec.setWidth_eq] at hends
  rw [readAnswer, hread, ← hpast]
  exact hends

theorem readCommand_refuses (n : Nat) (hoff : 0xFFFF < off.toNat) :
    readCommand n off s = hardError badOperand s :=
  if_neg (Bool.eq_false_iff.1 (offOk_eq_false.2 hoff))

end Reads

/-! ## COPYOUT (R115) -/

section Copyout

variable {s : State} {srcOff dstOff length : BitVec 32}

theorem exec_copyout_inRange (hsrc : srcOff.toNat ≤ 0xFFFF) (hdst : dstOff.toNat ≤ s.pb.len)
    (hcap : dstOff.toNat + length.toNat ≤ 2048) :
    exec (.copyout srcOff dstOff length) s =
      .next (finish (truncAdv (past s srcOff.toNat length.toNat)) .ok 0 0 []
        { s with pb := bufSplice s.pb dstOff.toNat (rdb s srcOff.toNat length.toNat) }) := by
  refine congrArg _ (if_neg ?_)
  rw [offOk_eq_false, params_pbCap]
  omega

theorem exec_copyout_outOfRange
    (h : 0xFFFF < srcOff.toNat ∨ s.pb.len < dstOff.toNat ∨
      2048 < dstOff.toNat + length.toNat) :
    exec (.copyout srcOff dstOff length) s = .next (hardError badOperand s) := by
  refine congrArg _ (if_pos ?_)
  rwa [offOk_eq_false, params_pbCap]

/-- A copied byte is the tolerant read's byte of the same index. -/
theorem memByte_copied {s : State} {b : Buf} {d src n k : Nat} (h : k < n) :
    memByte 0 (bufSplice b d (rdb s src n)).mem (d + k) = byteAt s (s.cur.toNat + src + k) := by
  rw [memByte_bufSplice, rdb_length, if_pos (by omega), Nat.add_sub_cancel_left,
    byteOf_rdb _ _ _ _ h, rdByte, Nat.add_assoc]

/-- A byte of PB outside the named ones stays. -/
theorem memByte_notCopied {s : State} {b : Buf} {d src n a : Nat} (h : a < d ∨ d + n ≤ a) :
    memByte 0 (bufSplice b d (rdb s src n)).mem a = memByte 0 b.mem a := by
  rw [memByte_bufSplice, rdb_length, if_neg (by omega)]

end Copyout

/-! ## INCPOS and PAYLOADLEN (R116, R117) -/

section Cursor

variable {s : State} {delta : BitVec 32}

theorem exec_incpos_inRange (h0 : 0 ≤ (s.cur.toNat : Int) + delta.toInt)
    (h1 : (s.cur.toNat : Int) + delta.toInt ≤ 0xFFFF) :
    exec (.incpos delta) s =
      .next (done (BitVec.ofInt 32 (s.cur.toNat + delta.toInt)) 0 []
        { s with cur := BitVec.ofInt Config.curW (s.cur.toNat + delta.toInt) }) := by
  refine congrArg _ (if_neg ?_)
  rw [params_curMax, signedDelta]
  omega

theorem exec_incpos_outOfRange
    (h : (s.cur.toNat : Int) + delta.toInt < 0 ∨ 0xFFFF < (s.cur.toNat : Int) + delta.toInt) :
    exec (.incpos delta) s = .next (hardError badOperand s) := by
  refine congrArg _ (if_pos ?_)
  rwa [params_curMax, signedDelta]

/-- A number that the cursor can hold is the same in a result register. -/
theorem ofInt_eq_zeroExtend_cur {t : Int} (h0 : 0 ≤ t) (h1 : t ≤ 0xFFFF) :
    BitVec.ofInt 32 t = (BitVec.ofInt Config.curW t).zeroExtend 32 := by
  apply BitVec.eq_of_toNat_eq
  have hcur := toNat_cur_ofInt h0 h1
  rw [BitVec.zeroExtend, BitVec.toNat_setWidth, BitVec.toNat_ofInt]
  omega

/-- The difference of a buffer length within FB_CAP and a cursor is a signed 32-bit number. -/
theorem toInt_ofInt_payloadLen (h : s.fb.len ≤ 2048) :
    (BitVec.ofInt 32 (payloadLen s)).toInt = payloadLen s := by
  have hcur := cur_lt s
  have hlo : -2 ^ 31 ≤ payloadLen s := by simp only [payloadLen]; omega
  have hhi : payloadLen s < 2 ^ 31 := by simp only [payloadLen]; omega
  exact BitVec.toInt_ofInt_eq_self (by decide) hlo hhi

end Cursor

/-! ## SETATTR and GETATTR (R118, R119) -/

section LinkAndPktType

variable {s : State} {addr : List Byte} (value : BitVec 32)

theorem exec_setattr_linkSrc (h : addr.length = 8) :
    exec (.setattr 0 1 value addr) s =
      .next (done 0 0 [] { s with linkSrc := ⟨true, octAt addr 0⟩ }) := by
  have ha : linkOperand addr = some (octAt addr 0) := if_pos h
  simp [exec, execSetattr, inRange, ha]

theorem exec_setattr_linkDst (h : addr.length = 8) :
    exec (.setattr 1 1 value addr) s =
      .next (done 0 0 [] { s with linkDst := ⟨true, octAt addr 0⟩ }) := by
  have ha : linkOperand addr = some (octAt addr 0) := if_pos h
  simp [exec, execSetattr, inRange, ha]

/-- SETATTR refuses a number out of range, and else a link address of another length. -/
theorem exec_setattr_badOperand {att valid : BitVec 32}
    (h : 2 < att.toNat ∨ 1 < valid.toNat ∨ (att.toNat ≤ 1 ∧ valid = 1 ∧ addr.length ≠ 8)) :
    exec (.setattr att valid value addr) s = .next (hardError badOperand s) := by
  by_cases hrange : 2 < att.toNat ∨ 1 < valid.toNat
  · exact if_pos (by simpa [inRange] using hrange)
  · obtain ⟨hatt, hvalid⟩ := not_or.1 hrange
    obtain ⟨hlink, rfl, hlen⟩ := (h.resolve_left hatt).resolve_left hvalid
    have ha : linkOperand addr = none := if_neg hlen
    simp [exec, execSetattr, inRange, ha, Nat.le_of_not_lt hatt, show att.toNat ≠ 2 by omega]

/-- A link address that is valid is answered as it stands (R119). -/
theorem linkAnswer_valid {a : LinkAttr} (h : a.valid = true) :
    answered .ok 0 1 0 (octBytes a.addr) (linkAnswer a s) := by
  simp only [linkAnswer, h]
  exact answered_done ..

/-- A link address that is not valid is answered as eight zeros (R119). -/
theorem linkAnswer_invalid {a : LinkAttr} (h : a.valid = false) :
    answered .ok 0 0 0 (List.replicate 8 0) (linkAnswer a s) := by
  simp only [linkAnswer, h]
  exact answered_done ..

theorem exec_getattr_badOperand {att : BitVec 32} (h : 2 < att.toNat) :
    exec (.getattr att) s = .next (hardError badOperand s) := by
  simp only [exec, execGetattr]
  split
  case h_4 => rfl
  all_goals omega

end LinkAndPktType

/-! ## RDBUF (R121) -/

section Rdbuf

variable {s : State} {space off length : BitVec 32} {b : Buf}

/-- The three spaces and their buffers. -/
theorem spaceOperand_of_listed
    (h : (space = 0 ∧ b = s.fb) ∨ (space = 1 ∧ b = s.pb) ∨ (space = 2 ∧ b = s.ob)) :
    spaceOperand s space = some b := by
  obtain ⟨rfl, rfl⟩ | ⟨rfl, rfl⟩ | ⟨rfl, rfl⟩ := h
  · rfl
  · rfl
  · rfl

theorem spaceOperand_of_other (h : 2 < space.toNat) : spaceOperand s space = none := by
  unfold spaceOperand
  split
  case h_4 => rfl
  all_goals omega

theorem exec_rdbuf_within (hb : spaceOperand s space = some b)
    (h : off.toNat + length.toNat ≤ b.len) :
    exec (.rdbuf space off length) s =
      .next (done 0 0 (bufRange b off.toNat length.toNat) s) := by
  simp only [exec, execRdbuf, hb, if_neg (Nat.not_lt.2 h)]

theorem exec_rdbuf_beyond (hb : spaceOperand s space = some b)
    (h : b.len < off.toNat + length.toNat) :
    exec (.rdbuf space off length) s = .next (hardError badOperand s) := by
  simp only [exec, execRdbuf, hb, if_pos h]

theorem exec_rdbuf_otherSpace (h : 2 < space.toNat) :
    exec (.rdbuf space off length) s = .next (hardError badOperand s) := by
  simp only [exec, execRdbuf, spaceOperand_of_other h]

end Rdbuf

end Sys2Proof.Machine

namespace Sys2Proof.Proofs

open Sys2Proof Sys2Proof.Machine

/-- Settles O6: the bytes are put into the buffer as they are, or do not fit. -/
theorem loadsReplaceTheBuffer : Obligations.LoadsReplaceTheBuffer := by
  intro data s
  refine ⟨fun h => ?_, fun h => ⟨refused_of_badOperand (exec_setbytes_tooLong h),
    refused_of_badOperand (exec_pbLoad_tooLong h)⟩⟩
  have hfb := exec_setbytes_fits (s := s) h
  have hpb := exec_pbLoad_fits (s := s) h
  exact ⟨⟨_, hfb, answered_done .., rfl, bufBytes_bufOf data, rfl,
      everyInstructionKeepsTheRest _ _ _ hfb⟩,
    ⟨_, hpb, answered_done .., rfl, bufBytes_bufOf data, everyInstructionKeepsTheRest _ _ _ hpb⟩⟩

/-- Settles O7: the three reads are one read of 1, 2 or 3 bytes, whose number grows byte by byte. -/
theorem frameReadsAreTolerant : Obligations.FrameReadsAreTolerant := by
  intro off s
  have hzero {w : Nat} : (0 : BitVec w).toNat = rd s off.toNat 0 := BitVec.toNat_zero
  have hone {w : Nat} := toNat_append_byteAt (n := 0) (hzero (w := w))
  have htwo {w : Nat} := toNat_append_byteAt (hone (w := w))
  have hthree {w : Nat} := toNat_append_byteAt (htwo (w := w))
  refine ⟨fun h => ⟨⟨_, rfl, readCommand_answers (by decide) h hone⟩,
    ⟨_, rfl, readCommand_answers (by decide) h htwo⟩,
    ⟨_, rfl, readCommand_answers (by decide) h hthree⟩⟩, fun h => ?_⟩
  simp only [List.forall_mem_cons, List.not_mem_nil, false_imp_iff, implies_true, and_true]
  exact ⟨refused_of_badOperand (congrArg _ (readCommand_refuses 1 h)),
    refused_of_badOperand (congrArg _ (readCommand_refuses 2 h)),
    refused_of_badOperand (congrArg _ (readCommand_refuses 3 h))⟩

/-- Settles O8: PB is spliced with a tolerant read, so its bytes are told by their index. -/
theorem copyoutFillsPayloadBytes : Obligations.CopyoutFillsPayloadBytes := by
  intro srcOff dstOff length s
  refine ⟨fun hsrc hdst hcap trunc htrunc => ?_,
    fun h => refused_of_badOperand (exec_copyout_outOfRange h)⟩
  have hexec := exec_copyout_inRange hsrc hdst hcap
  rw [past_eq, ← htrunc] at hexec
  obtain ⟨hanswer, hflags, -⟩ := endClassify_ends (s := { s with
    pb := bufSplice s.pb dstOff.toNat (rdb s srcOff.toNat length.toNat) }) 0 trunc
  refine ⟨_, hexec, hanswer, hflags, ?_, fun k hk => memByte_copied hk,
    fun a ha => memByte_notCopied ha, everyInstructionKeepsTheRest _ _ _ hexec⟩
  rw [finish_pb, bufSplice_len, rdb_length]

/-- Settles O9: a sum that the cursor can hold is the same in FB.CUR and in RES0. -/
theorem incposMovesTheCursor : Obligations.IncposMovesTheCursor := by
  intro delta s
  refine ⟨fun h0 h1 => ?_, fun h => refused_of_badOperand (exec_incpos_outOfRange h)⟩
  have hexec := exec_incpos_inRange h0 h1
  refine ⟨_, hexec, toNat_cur_ofInt h0 h1, ?_, everyInstructionKeepsTheRest _ _ _ hexec⟩
  rw [ofInt_eq_zeroExtend_cur h0 h1]
  exact answered_done ..

/-- Settles O13: the space names the buffer, and the length decides. -/
theorem rdbufReturnsTheBytes : Obligations.RdbufReturnsTheBytes := by
  intro space off length s b
  refine ⟨fun hspace => ?_, fun h => refused_of_badOperand (exec_rdbuf_otherSpace h)⟩
  have hb := spaceOperand_of_listed hspace
  refine ⟨fun h => ?_, fun h => refused_of_badOperand (exec_rdbuf_beyond hb h)⟩
  have hexec := exec_rdbuf_within hb h
  exact ⟨_, _, hexec, answered_done .., bufRange_length .., fun k => byteOf_memRange _ _ _ _ k,
    everyInstructionKeepsTheRest _ _ _ hexec⟩

/-- Settles O10: FB_CAP and CUR_W bound the difference far inside 32 bits. -/
theorem payloadLengthIsSigned : Obligations.PayloadLengthIsSigned := fun s h =>
  ⟨_, rfl, toInt_ofInt_payloadLen h, answered_done .., keepsBut_done s _ _ _⟩

/-- Settles O11: with VALID = 1 the content is written too, else it stays; a link address comes with a
length to check. -/
theorem setattrWritesOneAttribute : Obligations.SetattrWritesOneAttribute := by
  intro att valid value addr s
  refine ⟨fun h => ?_, ⟨_, rfl, answered_done .., rfl, ?_⟩, ⟨_, rfl, answered_done .., rfl, ?_⟩,
    ⟨_, rfl, answered_done .., rfl, ?_⟩, ⟨_, rfl, answered_done .., rfl, ?_⟩,
    fun h => refused_of_badOperand (exec_setattr_badOperand value h)⟩
  · have ha : octBytes (octAt addr 0) = addr := octBytes_octAt h
    exact ⟨⟨_, exec_setattr_linkSrc value h, answered_done .., rfl, ha,
        keepsBut_finish_of keepsBut_of_parts⟩,
      ⟨_, exec_setattr_linkDst value h, answered_done .., rfl, ha,
        keepsBut_finish_of keepsBut_of_parts⟩⟩
  all_goals exact keepsBut_finish_of keepsBut_of_parts

/-- Settles O12: GETATTR looks at VALID, and answers the content or zeros. -/
theorem getattrReadsOneAttribute : Obligations.GetattrReadsOneAttribute := by
  intro att s
  refine ⟨⟨_, rfl, keepsBut_done s _ _ _, linkAnswer_valid, linkAnswer_invalid⟩,
    ⟨_, rfl, keepsBut_done s _ _ _, linkAnswer_valid, linkAnswer_invalid⟩,
    ⟨_, rfl, keepsBut_done s _ _ _, fun h => ?_, fun h => ?_⟩,
    fun h => refused_of_badOperand (exec_getattr_badOperand h)⟩
  · rw [h]
    exact answered_done ..
  · rw [h]
    exact answered_done ..

end Sys2Proof.Proofs

/-! # The address-context table (41_context_table.md)

What each command answers for an operand of the right length, written as the bytes of an `Oct` or an
`Addr`, and that it refuses the others; the statements follow at the end. -/

namespace Sys2Proof.Machine

section ContextTable

variable {s : State} {idx : BitVec 32}

/-- BAD_INDEX ends a command and changes nothing (R290). -/
theorem refused_of_badIndex {o : Host.Outcome State Fault Refusal}
    (h : o = .next (hardError badIndex s)) : ∃ t, o = .next t ∧ refuses .badIndex 0 s t :=
  ⟨_, h, refuses_hardError ..⟩

/-! ## CTX_SET (R132) -/

theorem exec_ctxSet_inTable (p : Oct) (h : idx.toNat < Config.nCtx) :
    exec (.ctxSet idx (octBytes p)) s =
      .next (done 0 0 [] { s with ctx := s.ctx.set idx.toNat ⟨true, p⟩ h }) := by
  simp only [exec, execCtxSet, octOperand_octBytes, dif_pos h]

/-- Every slot of the table after an index within it was set. -/
theorem ctxSet_slots (p : Oct) (h : idx.toNat < Config.nCtx) :
    ∃ t, exec (.ctxSet idx (octBytes p)) s = .next t ∧ answered .ok 0 0 0 [] t ∧
      ∀ k, ctxSlot t.ctx k = if k = idx.toNat then ⟨true, p⟩ else ctxSlot s.ctx k :=
  ⟨_, exec_ctxSet_inTable p h, answered_done .., fun k => ctxSlot_set s.ctx _ k h _⟩

theorem exec_ctxSet_beyondTable (p : Oct) (h : 15 < idx.toNat) :
    exec (.ctxSet idx (octBytes p)) s = .next (hardError badIndex s) := by
  simp only [exec, execCtxSet, octOperand_octBytes, dif_neg (Nat.not_lt.2 h)]

/-- The length is looked at first, whatever the index. -/
theorem exec_ctxSet_otherLength {pfx : List Byte} (h : pfx.length ≠ 8) :
    exec (.ctxSet idx pfx) s = .next (hardError badOperand s) := by
  have hp : octOperand pfx = none := if_neg h
  simp only [exec, execCtxSet, hp]

/-! ## CTX_LOOKUP (R131, R133) -/

/-- A slot matches an address when it is valid and holds the first half of the address. -/
theorem ctxMatches_addrBytes {a : Addr} {i : Nat} :
    ctxMatches s (addrBytes a) i ↔
      (ctxSlot s.ctx i).valid = true ∧ (ctxSlot s.ctx i).pfx = a.pfx := by
  rw [ctxMatches, addrBytes_take, octBytes_inj]

/-- The lookup finds the lowest slot that matches. -/
theorem ctxFind_eq_some_iff_ctxMatches {a : Addr} {i : Nat} :
    ctxFind s.ctx a.pfx = some i ↔
      i < 16 ∧ ctxMatches s (addrBytes a) i ∧ ∀ j, j < i → ¬ ctxMatches s (addrBytes a) j := by
  simp only [ctxFind_some, ctxMatches_addrBytes]

/-- The lookup finds nothing when no slot matches. -/
theorem ctxFind_eq_none_iff_ctxMatches {a : Addr} :
    ctxFind s.ctx a.pfx = none ↔ ∀ i, i < 16 → ¬ ctxMatches s (addrBytes a) i := by
  simp only [ctxFind_none, ctxMatches_addrBytes]

theorem exec_ctxLookup_found {a : Addr} {i : Nat} (h : ctxFind s.ctx a.pfx = some i) :
    exec (.ctxLookup (addrBytes a)) s = .next (done 1 (BitVec.ofNat 32 i) [] s) := by
  simp only [exec, execCtxLookup, addrOperand_addrBytes, h]

theorem exec_ctxLookup_notFound {a : Addr} (h : ctxFind s.ctx a.pfx = none) :
    exec (.ctxLookup (addrBytes a)) s = .next (done 0 0 [] s) := by
  simp only [exec, execCtxLookup, addrOperand_addrBytes, h]

theorem exec_ctxLookup_otherLength {addr : List Byte} (h : addr.length ≠ 16) :
    exec (.ctxLookup addr) s = .next (hardError badOperand s) := by
  have ha : addrOperand addr = none := if_neg h
  simp only [exec, execCtxLookup, ha]

/-! ## CTX_GET (R134) -/

/-- CTX_GET answers a slot as GETATTR answers a link address (R119). -/
theorem exec_ctxGet_inTable (h : idx.toNat ≤ 15) :
    exec (.ctxGet idx) s = .next
      (linkAnswer ⟨(ctxSlot s.ctx idx.toNat).valid, (ctxSlot s.ctx idx.toNat).pfx⟩ s) :=
  if_pos (Nat.lt_succ_of_le h)

theorem exec_ctxGet_beyondTable (h : 15 < idx.toNat) :
    exec (.ctxGet idx) s = .next (hardError badIndex s) :=
  if_neg (Nat.not_lt.2 h)

end ContextTable

end Sys2Proof.Machine

namespace Sys2Proof.Proofs

open Sys2Proof Sys2Proof.Machine

/-- Settles O14: the slot that was set reads as the new one, every other slot as before. -/
theorem ctxSetInstallsOneSlot : Obligations.CtxSetInstallsOneSlot := by
  intro idx pfx s
  refine ⟨fun hlen hidx => ?_, fun hlen => refused_of_badOperand (exec_ctxSet_otherLength hlen),
    fun hlen hidx => ?_⟩
  · have hp : octBytes (octAt pfx 0) = pfx := octBytes_octAt hlen
    obtain ⟨t, hexec, hanswer, hslots⟩ :=
      ctxSet_slots (s := s) (octAt pfx 0) (Nat.lt_succ_of_le hidx)
    rw [hp] at hexec
    have hset : ctxSlot t.ctx idx.toNat = ⟨true, octAt pfx 0⟩ := (hslots _).trans (if_pos rfl)
    exact ⟨t, hexec, hanswer, congrArg CtxSlot.valid hset, by rw [hset, hp],
      fun k hk => (hslots k).trans (if_neg hk), everyInstructionKeepsTheRest _ _ _ hexec⟩
  · rw [← octBytes_octAt hlen]
    exact refused_of_badIndex (exec_ctxSet_beyondTable _ hidx)

/-- Settles O15: what `ctxFind` answers is told by the slots that match. -/
theorem ctxLookupFindsTheFirstMatch : Obligations.CtxLookupFindsTheFirstMatch := by
  intro addr s
  refine ⟨fun hlen => ?_, fun hlen => refused_of_badOperand (exec_ctxLookup_otherLength hlen)⟩
  rw [← addrBytes_addrAt hlen]
  refine ⟨fun i hi hmatch hfirst => ?_, fun hnone => ?_⟩
  · have hfind := ctxFind_eq_some_iff_ctxMatches.2 ⟨hi, hmatch, hfirst⟩
    exact ⟨_, exec_ctxLookup_found hfind, answered_done .., keepsBut_done s _ _ _⟩
  · have hfind := ctxFind_eq_none_iff_ctxMatches.2 hnone
    exact ⟨_, exec_ctxLookup_notFound hfind, answered_done .., keepsBut_done s _ _ _⟩

/-- Settles O16: the answer depends on VALID as that of GETATTR does. -/
theorem ctxGetReadsOneSlot : Obligations.CtxGetReadsOneSlot := fun _ s =>
  ⟨fun h => ⟨_, exec_ctxGet_inTable h, keepsBut_done s _ _ _, fun hv => linkAnswer_valid hv,
      fun hv => linkAnswer_invalid hv⟩,
    fun h => refused_of_badIndex (exec_ctxGet_beyondTable h)⟩

end Sys2Proof.Proofs

/-! # The header-model register commands (42_header_model.md)

What a write of a field does to HM, apart from the state, and what the three commands answer; the
statements follow at the end. -/

namespace Sys2Proof.Machine

section HeaderModel

variable {s : State} {m m' : HM} {fld value : BitVec 32} {addr : List Byte} {n k : Nat}

/-! ## A write of a field (R140) -/

/-- A value that fits in fewer bits is kept by them. -/
theorem zeroExtend_truncate {w : Nat} (h : value.toNat < 2 ^ w) :
    (value.truncate w).zeroExtend 32 = value := by
  apply BitVec.eq_of_toNat_eq
  rw [BitVec.zeroExtend, BitVec.truncate, BitVec.toNat_setWidth, BitVec.toNat_setWidth,
    Nat.mod_eq_of_lt h, Nat.mod_eq_of_lt value.isLt]

/-- The field of one bit reads as the value that was written to it. -/
theorem zeroExtend_ofBool_getLsbD (h : value.toNat ≤ 1) :
    (BitVec.ofBool (value.getLsbD 0)).zeroExtend 32 = value := by
  obtain h0 | h1 : value.toNat = 0 ∨ value.toNat = 1 := by omega
  · obtain rfl : value = 0 := BitVec.eq_of_toNat_eq h0
    rfl
  · obtain rfl : value = 1 := BitVec.eq_of_toNat_eq h1
    rfl

/-- A scalar that its field can hold is stored, and reads back. -/
theorem hmStore_scalar (m : HM) (addr : List Byte) (hlimit : hmLimit fld.toNat = some n)
    (hvalue : value.toNat ≤ n) :
    ∃ m', hmStore m fld value addr = some m' ∧ hmScalar m' fld.toNat = value ∧
      (fld = 10 → m'.csumInline = true) := by
  unfold hmLimit at hlimit
  split at hlimit
  case h_9 => cases hlimit
  case h_8 hfld =>
    cases hlimit
    obtain rfl := (BitVec.toNat_eq_nat.1 hfld).2
    exact ⟨_, if_pos (decide_eq_true hvalue), zeroExtend_ofBool_getLsbD hvalue, by simp⟩
  all_goals
    next hfld =>
    cases hlimit
    obtain rfl := (BitVec.toNat_eq_nat.1 hfld).2
    exact ⟨_, if_pos (decide_eq_true hvalue), zeroExtend_truncate (Nat.lt_succ_of_le hvalue),
      by simp⟩

/-- Sixteen bytes are stored as an address, and read back. -/
theorem hmStore_address (m : HM) (value : BitVec 32) (hfld : fld = 5 ∨ fld = 6)
    (haddr : addr.length = 16) :
    ∃ m', hmStore m fld value addr = some m' ∧ hmOut m' fld.toNat = addr := by
  have ha : addrOperand addr = some (addrAt addr 0) := if_pos haddr
  obtain rfl | rfl := hfld <;> exact ⟨_, congrArg (Option.map _) ha, addrBytes_addrAt haddr⟩

/-- A scalar above the limit of its field is refused. -/
theorem hmStore_aboveLimit (hlimit : hmLimit fld.toNat = some n) (hvalue : n < value.toNat) :
    hmStore m fld value addr = none := by
  unfold hmLimit at hlimit
  split at hlimit
  case h_9 => cases hlimit
  all_goals
    next hfld =>
    cases hlimit
    rw [hmStore, hfld]
    exact if_neg (by simpa [inRange] using hvalue)

/-- An address of another length is refused. -/
theorem hmStore_otherLength (hfld : fld = 5 ∨ fld = 6) (haddr : addr.length ≠ 16) :
    hmStore m fld value addr = none := by
  have ha : addrOperand addr = none := if_neg haddr
  obtain rfl | rfl := hfld <;> exact congrArg (Option.map _) ha

/-- A field that is no scalar of the host's and no address is refused. -/
theorem hmStore_otherField (hlimit : hmLimit fld.toNat = none) (h5 : fld ≠ 5) (h6 : fld ≠ 6) :
    hmStore m fld value addr = none := by
  unfold hmStore
  split
  case h_5 hfld => exact absurd (BitVec.eq_of_toNat_eq hfld) h5
  case h_6 hfld => exact absurd (BitVec.eq_of_toNat_eq hfld) h6
  case h_11 => rfl
  all_goals
    next hfld =>
    rw [hfld] at hlimit
    cases hlimit

/-- The reading of a field looks at that field alone. -/
theorem hmReading_congr (tc : k = 1 → m'.tc = m.tc) (fl : k = 2 → m'.fl = m.fl)
    (nh : k = 3 → m'.nh = m.nh) (hlim : k = 4 → m'.hlim = m.hlim) (src : k = 5 → m'.src = m.src)
    (dst : k = 6 → m'.dst = m.dst) (pkind : k = 7 → m'.pkind = m.pkind)
    (sport : k = 8 → m'.sport = m.sport) (dport : k = 9 → m'.dport = m.dport)
    (csum : k = 10 → m'.csum = m.csum) (csumInline : k = 11 → m'.csumInline = m.csumInline) :
    hmScalar m' k = hmScalar m k ∧ hmOut m' k = hmOut m k := by
  constructor
  · unfold hmScalar
    split <;> simp_all only [forall_const]
  · unfold hmOut
    split <;> simp_all only [forall_const]

/-- A write leaves the other fields as they read, but that of the checksum sets UDP_CSUM_INLINE. -/
theorem hmStore_otherFields (h : hmStore m fld value addr = some m') (hk : k ≠ fld.toNat)
    (hinline : ¬(fld = 10 ∧ k = 11)) :
    hmScalar m' k = hmScalar m k ∧ hmOut m' k = hmOut m k := by
  unfold hmStore at h
  split at h
  case h_11 => cases h
  case h_5 | h_6 =>
    next hfld =>
    obtain ⟨a, -, rfl⟩ := Option.map_eq_some_iff.1 h
    rw [hfld] at hk
    apply hmReading_congr <;> simp [hk]
  case h_9 =>
    next hfld =>
    obtain ⟨-, h⟩ := Option.ite_none_right_eq_some.1 h
    cases h
    obtain rfl := (BitVec.toNat_eq_nat.1 hfld).2
    have h11 : k ≠ 11 := fun hk => hinline ⟨rfl, hk⟩
    rw [hfld] at hk
    apply hmReading_congr <;> simp [hk, h11]
  all_goals
    next hfld =>
    obtain ⟨-, h⟩ := Option.ite_none_right_eq_some.1 h
    cases h
    rw [hfld] at hk
    apply hmReading_congr <;> simp [hk]

/-! ## HM_WR (R140) -/

/-- HM_WR commits the written model. -/
theorem exec_hmWr_stored (h : hmStore s.hm fld value addr = some m) :
    exec (.hmWr fld value addr) s = .next (done 0 0 [] { s with hm := m }) := by
  simp only [exec, execHmWr, h]

/-- HM_WR refuses when the write is refused. -/
theorem exec_hmWr_refused (h : hmStore s.hm fld value addr = none) :
    exec (.hmWr fld value addr) s = .next (hardError badOperand s) := by
  simp only [exec, execHmWr, h]

/-! ## HM_RD (R141) -/

/-- A field of R11 is answered as it reads. -/
theorem hmReads_listed (s : State) (fld : BitVec 32) (h : fld.toNat ≤ 11) :
    hmReads fld (hmScalar s.hm fld.toNat) (hmOut s.hm fld.toNat) s :=
  ⟨_, if_pos (decide_eq_true h), answered_done .., keepsBut_done s _ _ _⟩

theorem zeroExtend_ofBool (b : Bool) : (BitVec.ofBool b).zeroExtend 32 = if b then 1 else 0 := by
  cases b <;> rfl

theorem exec_hmRd_beyond (h : 11 < fld.toNat) :
    exec (.hmRd fld) s = .next (hardError badOperand s) :=
  if_neg (by simpa [inRange] using h)

/-! ## SETPAYLOAD (R142) -/

/-- A kind that the operand names is set, with the next header that it fixes, if any. -/
theorem setpayload_named (s : State) {kind : BitVec 32} {p : PKind}
    (h : kindOperand kind = some p) :
    ∃ t, exec (.setpayload kind) s = .next t ∧ answered .ok 0 0 0 [] t ∧
      t.hm = { s.hm with pkind := p, nh := (dispatchCode p).getD s.hm.nh } ∧
      keepsBut [.hm] s t := by
  have hexec : exec (.setpayload kind) s = .next (done 0 0 []
      { s with hm := { s.hm with pkind := p, nh := (dispatchCode p).getD s.hm.nh } }) := by
    simp only [exec, execSetpayload, h]
  exact ⟨_, hexec, answered_done .., rfl, keepsBut_finish_of keepsBut_of_parts⟩

/-- An operand outside 1 to 4 names no kind. -/
theorem kindOperand_of_other {kind : BitVec 32} (h : kind.toNat < 1 ∨ 4 < kind.toNat) :
    kindOperand kind = none := by
  unfold kindOperand
  split
  case h_5 => rfl
  all_goals omega

theorem exec_setpayload_unnamed {kind : BitVec 32} (h : kindOperand kind = none) :
    exec (.setpayload kind) s = .next (hardError badOperand s) := by
  simp only [exec, execSetpayload, h]

end HeaderModel

end Sys2Proof.Machine

namespace Sys2Proof.Proofs

open Sys2Proof Sys2Proof.Machine

/-- Settles O17: what the write does to HM is what the command does to the state. -/
theorem hmWriteChangesOneField : Obligations.HmWriteChangesOneField := by
  intro fld value addr s
  refine ⟨fun n hlimit hvalue => ?_, fun hfld haddr => ?_, fun h => ?_⟩
  · obtain ⟨m, hstore, hread, hinline⟩ := hmStore_scalar s.hm addr hlimit hvalue
    have hexec := exec_hmWr_stored hstore
    exact ⟨_, hexec, answered_done .., hread, hinline,
      fun _ => hmStore_otherFields hstore,
      everyInstructionKeepsTheRest _ _ _ hexec⟩
  · obtain ⟨m, hstore, hread⟩ := hmStore_address s.hm value hfld haddr
    have hexec := exec_hmWr_stored hstore
    have hcsum : fld ≠ 10 := by rintro rfl; simp at hfld
    exact ⟨_, hexec, answered_done .., hread,
      fun k hk => hmStore_otherFields hstore hk fun h => hcsum h.1,
      everyInstructionKeepsTheRest _ _ _ hexec⟩
  · apply refused_of_badOperand
    apply exec_hmWr_refused
    obtain ⟨n, hlimit, hvalue⟩ | ⟨hfld, haddr⟩ | ⟨hlimit, h5, h6⟩ := h
    · exact hmStore_aboveLimit hlimit hvalue
    · exact hmStore_otherLength hfld haddr
    · exact hmStore_otherField hlimit h5 h6

/-- Settles O18: each field reads as `hmScalar` and `hmOut` have it; UDP_CSUM_INLINE is one bit. -/
theorem hmReadAnswersTheField : Obligations.HmReadAnswersTheField := by
  intro fld s
  have hinline := hmReads_listed s 11 (by decide)
  rw [show hmScalar s.hm (11 : BitVec 32).toNat = _ from zeroExtend_ofBool s.hm.csumInline]
    at hinline
  exact ⟨hmReads_version s, hmReads_listed s 1 (by decide), hmReads_listed s 2 (by decide),
    hmReads_listed s 3 (by decide), hmReads_listed s 4 (by decide), hmReads_listed s 5 (by decide),
    hmReads_listed s 6 (by decide), hmReads_listed s 7 (by decide), hmReads_listed s 8 (by decide),
    hmReads_listed s 9 (by decide), hmReads_listed s 10 (by decide), hinline,
    fun h => refused_of_badOperand (exec_hmRd_beyond h)⟩

/-- Settles O19: each kind is named by its number, and OPAQUE fixes no next header. -/
theorem setpayloadFixesNextHeader : Obligations.SetpayloadFixesNextHeader := fun _ s =>
  ⟨setpayload_named s (p := .udp) rfl, setpayload_named s (p := .icmpv6) rfl,
    setpayload_named s (p := .hbh) rfl, setpayload_named s (p := .opaqueBytes) rfl,
    fun h => refused_of_badOperand (exec_setpayload_unnamed (kindOperand_of_other h))⟩

end Sys2Proof.Proofs

/-! # The encoder (43_iphc_encoder.md)

What ENCODE answers, and the compressed header of a model: each step of the encoder as the bits that
it sets in the IPHC word (30_encoding.md R62) and the inline bytes that those bits announce (R73).
The statements follow at the end. -/

namespace Sys2Proof.Machine

section Encode

variable {s : State}

/-! ## ENCODE (R150, R151, R170, R172) -/

/-- The models that the check lets through (R151). -/
theorem modelOk_iff_accepted {m : HM} : modelOk m = true ↔ accepted m := by
  unfold modelOk accepted
  cases hk : m.pkind <;> simp [Config.nhUdp, Config.nhIcmpv6, Config.nhHbh]

theorem exec_encode_badModel (h : ¬ accepted s.hm) :
    exec .encode s = .next (hardError badModel s) :=
  congrArg _ (if_pos (Bool.eq_false_iff.2 (mt modelOk_iff_accepted.1 h)))

/-- An accepted model passes the check of R151. -/
theorem modelOk_ne_false {m : HM} (h : accepted m) : ¬ modelOk m = false :=
  Bool.not_eq_false _ ▸ modelOk_iff_accepted.2 h

theorem exec_encode_overflow (hm : accepted s.hm)
    (h : 2096 < (encodedHeader s).length + s.pb.len) :
    exec .encode s = .next (hardError ⟨.outputOverflow, 0⟩ s) :=
  congrArg _ ((if_neg (modelOk_ne_false hm)).trans (if_pos h))

theorem exec_encode_fits (hm : accepted s.hm) (h : (encodedHeader s).length + s.pb.len ≤ 2096) :
    exec .encode s = .next (finish (csumAdv (csumMismatch s)) .ok
      (BitVec.ofNat 32 (encodedHeader s).length)
      (BitVec.ofNat 32 ((encodedHeader s).length + s.pb.len)) []
      { s with
        ob := bufOf (encodedHeader s ++ bufBytes s.pb)
        sum := if s.hm.pkind = .udp then udpSumOf s.hm (bufBytes s.pb) else s.sum }) :=
  congrArg _ ((if_neg (modelOk_ne_false hm)).trans (if_neg (Nat.not_lt.2 h)))

/-- The checksum check of R170 fails only for a UDP model. -/
theorem csumMismatch_eq (s : State) : csumMismatch s =
    decide (s.hm.pkind = .udp ∧ udpChecksum s.hm (bufBytes s.pb) ≠ s.hm.csum) := by
  rw [csumMismatch, Bool.decide_and, decide_not, bne, beq_eq_decide]

end Encode

/-! ## The fields of the IPHC word as masks (R62) -/

theorem iphcByte0_masks (tc fl nh : Bool) (hlim : BitVec 2) {b : Byte}
    (h : b = iphcByte0 tc fl nh hlim) : b &&& 0xE0 = 0x60 ∧ b &&& 0x03 = hlim.zeroExtend 8 := by
  subst h
  revert tc fl nh hlim
  decide

/-- The second byte is put together from the CID flag and the bits of the two sides. -/
theorem iphcByte1_eq_or (cid sac : Bool) (sam : BitVec 2) (m dac : Bool) (dam : BitVec 2) :
    iphcByte1 cid sac sam m dac dam = maskIf 0x80 cid ||| iphcByte1 false sac sam false false 0 |||
      iphcByte1 false false 0 m dac dam := by
  revert cid sac sam m dac dam
  decide

/-- The bits of each side are a mask of the second byte. -/
theorem iphcByte1_masks (cid sac : Bool) (sam : BitVec 2) (m dac : Bool) (dam : BitVec 2) {b : Byte}
    (h : b = iphcByte1 cid sac sam m dac dam) :
    b &&& 0x70 = iphcByte1 false sac sam false false 0 ∧
      b &&& 0x0F = iphcByte1 false false 0 m dac dam ∧ (b &&& 0x03 = 0 → dam = 0) := by
  subst h
  revert cid sac sam m dac dam
  decide

/-- The bits of a source are those of a destination of the same form, four places up. -/
theorem iphcByte1_shiftLeft (c : Bool) (mode : BitVec 2) :
    iphcByte1 false false 0 false c mode <<< (4 : Nat) = iphcByte1 false c mode false false 0 := by
  revert c mode
  decide

/-! Each address step's bits, as fields of the second byte. -/

theorem srcBits (c : Bool) (mode : BitVec 2) :
    (0 : BitVec 1) ++ BitVec.ofBool c ++ mode ++ (0 : BitVec 4) =
      iphcByte1 false c mode false false 0 := by
  revert c mode
  decide

theorem unicastBits (c : Bool) (mode : BitVec 2) :
    (0 : BitVec 5) ++ BitVec.ofBool c ++ mode = iphcByte1 false false 0 false c mode := by
  revert c mode
  decide

theorem multicastBits (mode : BitVec 2) :
    (0b000010 : BitVec 6) ++ mode = iphcByte1 false false 0 true false mode := by
  revert mode
  decide

/-! ## The steps before the addresses (R152 to R155) -/

/-- Two nibbles as the number of a byte. -/
theorem nibbles_eq_ofNat (x y : BitVec 4) : x ++ y = BitVec.ofNat 8 (x.toNat * 16 + y.toNat) := by
  revert x y
  decide

/-- The CID byte has the index of each side as its nibble (R152). -/
theorem stepCid_form {sc dc : Option Nat} (hsc : sc.getD 0 < 16) (hdc : dc.getD 0 < 16) :
    stepCid sc dc = (maskIf 0x80 (sc.isSome || dc.isSome),
      if sc.isSome || dc.isSome then [BitVec.ofNat 8 (sc.getD 0 * 16 + dc.getD 0)] else []) := by
  have hbyte : ctxNibble sc ++ ctxNibble dc = BitVec.ofNat 8 (sc.getD 0 * 16 + dc.getD 0) := by
    rw [nibbles_eq_ofNat, ctxNibble, ctxNibble, BitVec.toNat_ofNat, BitVec.toNat_ofNat,
      Nat.mod_eq_of_lt hsc, Nat.mod_eq_of_lt hdc]
  rw [stepCid, hbyte]
  cases sc.isSome || dc.isSome <;> rfl

/-- ECN is above DSCP on the wire (R64). -/
theorem wireTc_eq (tc : Byte) : wireTc tc = tc.extractLsb' 0 2 ++ tc.extractLsb' 2 6 := by
  revert tc
  decide

/-- The flow label in three bytes, by its number (R64, R153). -/
theorem flBytes_eq (fl : BitVec 20) :
    flBytes fl = [BitVec.ofNat 8 (fl.toNat / 2 ^ 16), BitVec.ofNat 8 (fl.toNat / 2 ^ 8),
      BitVec.ofNat 8 fl.toNat] := by
  have hfl : fl.toNat < 2 ^ 20 := fl.isLt
  have htop : (0 : BitVec 4) ++ fl.extractLsb' 16 4 = BitVec.ofNat 8 (fl.toNat / 2 ^ 16) := by
    rw [nibbles_eq_ofNat, BitVec.extractLsb'_toNat, Nat.shiftRight_eq_div_pow]
    have hzero : (0 : BitVec 4).toNat = 0 := rfl
    congr 1
    omega
  rw [flBytes, htop, BitVec.extractLsb', BitVec.extractLsb', Nat.shiftRight_eq_div_pow]
  rfl

theorem stepTf_form (tc : BitVec 8) (fl : BitVec 20) :
    stepTf tc fl = (maskIf Config.tcC (decide (tc = 0)) ||| maskIf Config.flC (decide (fl = 0)),
      trafficInline tc fl) := by
  rw [trafficInline, ← wireTc_eq, ← flBytes_eq]
  obtain ⟨hf, ht, h⟩ | ⟨hf, ht, h⟩ | ⟨hf, ht, h⟩ | ⟨hf, ht, h⟩ := stepTf_cases tc fl
  all_goals
    rw [h]
    simp only [hf, ht, if_true, if_false, decide_true, decide_false]
    rfl

theorem stepNh_form (m : HM) :
    stepNh m = (maskIf Config.nhC (decide (m.pkind = .udp)),
      if m.pkind = .udp then [] else [m.nh]) := by
  by_cases h : m.pkind = .udp <;> simp [stepNh, h, maskIf]

/-- The two bits of the hop limit: its code, or 0 and the byte itself (R155). -/
theorem stepHlim_form (h : BitVec 8) :
    ∃ k : BitVec 2, stepHlim h = (k.zeroExtend 8, if k.zeroExtend 8 = (0 : Byte) then [h] else []) ∧
      k.zeroExtend 8 =
        (if h = 1 then 1 else if h = 64 then 2 else if h = 255 then 3 else 0 : Byte) := by
  obtain ⟨rfl, he⟩ | ⟨rfl, he⟩ | ⟨rfl, he⟩ | ⟨h1, h64, h255, he⟩ := stepHlim_cases h
  · exact ⟨1, he, rfl⟩
  · exact ⟨2, he, rfl⟩
  · exact ⟨3, he, rfl⟩
  · exact ⟨0, he, by rw [if_neg h1, if_neg h64, if_neg h255]; rfl⟩

/-! ## The address steps (R156 to R162) -/

section Addresses

variable (a : Addr) (c : Option Nat) (la : LinkAttr)

theorem linkDerived_addrBytes : linkDerived (addrBytes a) la = macDerived a la := by
  rw [Bool.eq_iff_iff]
  simp [linkDerived, macDerived, ← octBytes_inj, iidFromLink, addrBytes, octBytes, byteOf,
    and_assoc]

theorem shortIid_addrBytes : shortIid (addrBytes a) = iid16 a := by
  rw [Bool.eq_iff_iff]
  simp [shortIid, iid16, addrBytes, octBytes, byteOf, List.replicate, and_assoc]

theorem take_addrBytes_eq_linkLocal :
    (addrBytes a).take 8 = [0xFE, 0x80, 0, 0, 0, 0, 0, 0] ↔ a.pfx = Config.linkLocal :=
  octBytes_inj (y := Config.linkLocal)

/-- Addresses are told apart by their bytes. -/
theorem addrBytes_inj {x y : Addr} : addrBytes x = addrBytes y ↔ x = y :=
  ⟨fun h => congrArg (addrAt · 0) h, fun h => h ▸ rfl⟩

theorem addrBytes_eq_zeros : addrBytes a = List.replicate 16 0 ↔ a = Addr.zero :=
  addrBytes_inj (y := Addr.zero)

/-- The mode of an IID: from the link address, in 16 bits, or in 64 bits (R160). -/
def iidMode : BitVec 2 := if macDerived a la then 0b11 else if iid16 a then 0b10 else 0b01

theorem iidMode_ne_zero : iidMode a la ≠ 0 := by
  unfold iidMode
  split
  · decide
  split <;> decide

variable {a c la}

/-- An address whose first half is elided: the inline bytes are those of its IID's mode. -/
theorem uni_elided (h : (c.isSome || a.pfx == Config.linkLocal) = true) :
    uni a c la = (c.isSome, iidMode a la,
      (addrBytes a).drop (16 - addrLen c.isSome (iidMode a la))) := by
  rw [uni, if_pos h, iidMode]
  cases macDerived a la
  · cases iid16 a <;> cases c.isSome <;> rfl
  · cases c.isSome <;> rfl

theorem uni_full (h : ¬ (c.isSome || a.pfx == Config.linkLocal) = true) :
    uni a c la = (false, 0b00, addrBytes a) :=
  if_neg h

theorem unicastForm_elided (h : (c.isSome || a.pfx == Config.linkLocal) = true) :
    unicastForm c (addrBytes a) la = iphcByte1 false false 0 false c.isSome (iidMode a la) := by
  simp only [unicastForm, linkDerived_addrBytes, shortIid_addrBytes, take_addrBytes_eq_linkLocal,
    iidMode]
  cases hc : c.isSome with
  | true => cases macDerived a la <;> cases iid16 a <;> rfl
  | false =>
    have hp : a.pfx = Config.linkLocal := by simpa [hc] using h
    rw [if_neg Bool.false_ne_true, if_pos hp]
    cases macDerived a la <;> cases iid16 a <;> rfl

theorem unicastForm_full (h : ¬ (c.isSome || a.pfx == Config.linkLocal) = true) :
    unicastForm c (addrBytes a) la = 0 := by
  obtain ⟨hc, hp⟩ : ¬ c.isSome = true ∧ a.pfx ≠ Config.linkLocal := by simpa using h
  rw [unicastForm, if_neg hc, if_neg (mt (take_addrBytes_eq_linkLocal a).1 hp)]

variable (a c la)

/-- A unicast address as its context bit, its mode and the inline bytes of that mode; no mode is
reserved (R156, R160, R68, R70). -/
theorem uni_form : ∃ (bit : Bool) (mode : BitVec 2),
    uni a c la = (bit, mode, (addrBytes a).drop (16 - addrLen bit mode)) ∧
      iphcByte1 false false 0 false bit mode = unicastForm c (addrBytes a) la ∧
      (bit = true → mode ≠ 0) := by
  by_cases h : (c.isSome || a.pfx == Config.linkLocal) = true
  · exact ⟨c.isSome, iidMode a la, uni_elided h, (unicastForm_elided h).symm,
      fun _ => iidMode_ne_zero a la⟩
  · exact ⟨false, 0, uni_full h, (unicastForm_full h).symm, nofun⟩

/-- Step 5: the bits of the source and its inline bytes (R156). -/
theorem stepSrc_form : ∃ (sac : Bool) (sam : BitVec 2),
    stepSrc a c la = (iphcByte1 false sac sam false false 0,
      (addrBytes a).drop (16 - addrLen sac sam)) ∧
      iphcByte1 false sac sam false false 0 = (if addrBytes a = List.replicate 16 0 then 0x40
        else unicastForm c (addrBytes a) la <<< (4 : Nat)) := by
  by_cases h : a = Addr.zero
  · exact ⟨true, 0, if_pos h, (if_pos ((addrBytes_eq_zeros a).2 h)).symm⟩
  · obtain ⟨bit, mode, huni, hform, -⟩ := uni_form a c la
    refine ⟨bit, mode, ?_, ?_⟩
    · rw [stepSrc, if_neg h, huni, ← srcBits]
    · rw [if_neg (mt (addrBytes_eq_zeros a).1 h), ← hform, iphcByte1_shiftLeft]

/-- A multicast destination as its mode and the inline bytes of that mode (R162, R70). -/
theorem mcast_form (h : a.pfx.b0 = 0xFF) : ∃ mode : BitVec 2,
    mcast a = (mode, multicastInline mode (addrBytes a)) ∧
      iphcByte1 false false 0 true false mode = 0x08 ||| multicastForm (addrBytes a) := by
  have h8 : byteOf (addrBytes a) 1 = 0x02 ∧
      ((addrBytes a).drop 2).take 13 = List.replicate 13 0 ↔ a = mc8 a.iid.b7 := by
    simp [← addrBytes_inj, mc8, addrBytes, octBytes, byteOf, h, List.replicate]
  have h32 : ((addrBytes a).drop 2).take 11 = List.replicate 11 0 ↔
      a = mc32 a.pfx.b1 a.iid.b5 a.iid.b6 a.iid.b7 := by
    simp [← addrBytes_inj, mc32, addrBytes, octBytes, h, List.replicate]
  have h48 : ((addrBytes a).drop 2).take 9 = List.replicate 9 0 ↔
      a = mc48 a.pfx.b1 a.iid.b3 a.iid.b4 a.iid.b5 a.iid.b6 a.iid.b7 := by
    simp [← addrBytes_inj, mc48, addrBytes, octBytes, h, List.replicate]
  simp only [multicastForm, h8, h32, h48, mcast]
  split
  · exact ⟨3, rfl, rfl⟩
  split
  · exact ⟨2, rfl, rfl⟩
  split
  · exact ⟨1, rfl, rfl⟩
  · exact ⟨0, rfl, rfl⟩

/-- Step 6: the bits of the destination and its inline bytes; no form is reserved (R161, R70). -/
theorem stepDst_form : ∃ (m dac : Bool) (dam : BitVec 2),
    stepDst a c la = (iphcByte1 false false 0 m dac dam,
      if m then multicastInline dam (addrBytes a)
      else (addrBytes a).drop (16 - addrLen dac dam)) ∧
      iphcByte1 false false 0 m dac dam = (if byteOf (addrBytes a) 0 = 0xFF then
        0x08 ||| multicastForm (addrBytes a) else unicastForm c (addrBytes a) la) ∧
      m = decide (byteOf (addrBytes a) 0 = 0xFF) ∧
      (m = true → dac = false) ∧ (dac = true → dam ≠ 0) := by
  have hfirst : byteOf (addrBytes a) 0 = a.pfx.b0 := rfl
  rw [hfirst]
  by_cases h : a.pfx.b0 = 0xFF
  · obtain ⟨mode, hmcast, hform⟩ := mcast_form a h
    refine ⟨true, false, mode, ?_, hform.trans (if_pos h).symm, (decide_eq_true h).symm,
      fun _ => rfl, nofun⟩
    rw [stepDst, if_pos h, hmcast, ← multicastBits]
    rfl
  · obtain ⟨bit, mode, huni, hform, hmode⟩ := uni_form a c la
    refine ⟨false, bit, mode, ?_, hform.trans (if_neg h).symm, (decide_eq_false h).symm,
      nofun, hmode⟩
    rw [stepDst, if_neg h, huni, ← unicastBits]
    rfl

end Addresses

/-! ## The UDP NHC header (R165) -/

theorem portInRange_iff (p : BitVec 16) :
    portInRange p = true ↔ 0xF0B0 ≤ p.toNat ∧ p.toNat ≤ 0xF0BF := by
  simp [portInRange, Config.portBase]

/-- The nibble of a port in range. -/
theorem portNibble_toNat {p : BitVec 16} (h : portInRange p = true) :
    ((p - Config.portBase).extractLsb' 0 4).toNat = p.toNat - 0xF0B0 := by
  obtain ⟨hlo, hhi⟩ := (portInRange_iff p).1 h
  rw [BitVec.extractLsb'_toNat, BitVec.toNat_sub, Nat.shiftRight_zero]
  have hbase : Config.portBase.toNat = 0xF0B0 := rfl
  omega

theorem stepUdp_eq (m : HM) : stepUdp m = udpHeaderBytes m := by
  by_cases h : (portInRange m.sport && portInRange m.dport) = true
  · obtain ⟨hs, hd⟩ := Bool.and_eq_true_iff.1 h
    obtain ⟨hs0, hs1⟩ := (portInRange_iff _).1 hs
    obtain ⟨hd0, hd1⟩ := (portInRange_iff _).1 hd
    rw [stepUdp, udpHeaderBytes, if_pos h, if_pos ⟨hs0, hs1, hd0, hd1⟩, nibbles_eq_ofNat,
      portNibble_toNat hs, portNibble_toNat hd]
    rfl
  · have hrange : ¬ (0xF0B0 ≤ m.sport.toNat ∧ m.sport.toNat ≤ 0xF0BF ∧
        0xF0B0 ≤ m.dport.toNat ∧ m.dport.toNat ≤ 0xF0BF) := by
      simpa [portInRange_iff, and_assoc] using h
    rw [stepUdp, udpHeaderBytes, if_neg h, if_neg hrange]
    rfl

/-- The NHC header has the length that its first byte announces (R73). -/
theorem udpHeaderBytes_length (m : HM) :
    (udpHeaderBytes m).length = nhcLen (byteOf (udpHeaderBytes m) 0) ∧
      (udpHeaderBytes m).length ≤ 7 := by
  unfold udpHeaderBytes
  split
  · exact ⟨show 4 = nhcLen 0xF3 by decide, show 4 ≤ 7 by decide⟩
  · exact ⟨show 7 = nhcLen 0xF0 by decide, show 7 ≤ 7 by decide⟩

/-! ## The whole header (R150, R73) -/

/-- The bytes of an encoded header before its NHC header: the two bytes of the IPHC word, and the
pieces that these announce, in the order of R61. -/
def iphcBytes (b0 b1 cid : Byte) (m : HM) : List Byte :=
  b0 :: b1 ::
    ((if b1.getLsbD 7 then [cid] else []) ++
      trafficInline m.tc m.fl ++
      (if b0.getLsbD 2 then [] else [m.nh]) ++
      (if b0 &&& 0x03 = 0 then [m.hlim] else []) ++
      (addrBytes m.src).drop (16 - addrLen (b1.getLsbD 6) (b1.extractLsb' 4 2)) ++
      (if b1.getLsbD 3 then multicastInline (b1.extractLsb' 0 2) (addrBytes m.dst)
        else (addrBytes m.dst).drop (16 - addrLen (b1.getLsbD 2) (b1.extractLsb' 0 2))))

theorem addrLen_le (c : Bool) (mode : BitVec 2) : addrLen c mode ≤ 16 := by
  revert c mode; decide

theorem addrInline_length (a : Addr) (c : Bool) (mode : BitVec 2) :
    ((addrBytes a).drop (16 - addrLen c mode)).length = addrLen c mode := by
  rw [List.length_drop, addrBytes_length, Nat.sub_sub_self (addrLen_le c mode)]

theorem multicastInline_length (a : Addr) (mode : BitVec 2) :
    (multicastInline mode (addrBytes a)).length = mcastLen mode := by
  obtain rfl | rfl | rfl | rfl : mode = 0 ∨ mode = 1 ∨ mode = 2 ∨ mode = 3 := by
    revert mode; decide
  all_goals rfl

theorem trafficInline_length {b0 : Byte} {tc : BitVec 8} {fl : BitVec 20}
    (htc : b0.getLsbD 4 = decide (tc = 0)) (hfl : b0.getLsbD 3 = decide (fl = 0)) :
    (trafficInline tc fl).length = tfLen b0 := by
  rw [tfLen, htc, hfl, trafficInline]
  by_cases ht : tc = 0 <;> by_cases hf : fl = 0 <;>
    simp only [ht, hf, decide_true, decide_false, if_true, if_false] <;> rfl

theorem iphcBytes_length {b0 b1 : Byte} (cid : Byte) {m : HM}
    (htc : b0.getLsbD 4 = decide (m.tc = 0)) (hfl : b0.getLsbD 3 = decide (m.fl = 0)) :
    (iphcBytes b0 b1 cid m).length = iphcLen b0 b1 := by
  have hdst : (if b1.getLsbD 3 then multicastInline (b1.extractLsb' 0 2) (addrBytes m.dst)
      else (addrBytes m.dst).drop (16 - addrLen (b1.getLsbD 2) (b1.extractLsb' 0 2))).length =
      if b1.getLsbD 3 then mcastLen (b1.extractLsb' 0 2)
      else addrLen (b1.getLsbD 2) (b1.extractLsb' 0 2) := by
    rw [apply_ite List.length, multicastInline_length, addrInline_length]
  simp only [iphcBytes, List.length_cons, List.length_append, hdst, addrInline_length,
    trafficInline_length htc hfl, apply_ite List.length, List.length_nil, Nat.zero_add, iphcLen]
  omega

/-- Before the NHC header stand at most 41 bytes, since the next header is elided or one byte. -/
theorem iphcLen_le (b0 b1 : Byte) : iphcLen b0 b1 ≤ 41 := by
  have htf : tfLen b0 ≤ 4 := by revert b0; decide
  have hmcast : ∀ mode : BitVec 2, mcastLen mode ≤ 16 := by decide
  have hsrc := addrLen_le (b1.getLsbD 6) (b1.extractLsb' 4 2)
  have hdst := addrLen_le (b1.getLsbD 2) (b1.extractLsb' 0 2)
  have hmc := hmcast (b1.extractLsb' 0 2)
  unfold iphcLen
  split_ifs <;> omega

/-- The compressed header from the bits of its parts (R150). -/
theorem compressHeader_eq {m : HM} {sc dc : Option Nat} {ls ld : LinkAttr} {b0 b1 : Byte}
    {hlim sam dam : BitVec 2} {sac mc dac : Bool} (hsc : sc.getD 0 < 16) (hdc : dc.getD 0 < 16)
    (hb0 : b0 = iphcByte0 (decide (m.tc = 0)) (decide (m.fl = 0)) (decide (m.pkind = .udp)) hlim)
    (hb1 : b1 = iphcByte1 (sc.isSome || dc.isSome) sac sam mc dac dam)
    (hhlim : stepHlim m.hlim =
      (hlim.zeroExtend 8, if hlim.zeroExtend 8 = (0 : Byte) then [m.hlim] else []))
    (hsrc : stepSrc m.src sc ls = (iphcByte1 false sac sam false false 0,
      (addrBytes m.src).drop (16 - addrLen sac sam)))
    (hdst : stepDst m.dst dc ld = (iphcByte1 false false 0 mc dac dam,
      if mc then multicastInline dam (addrBytes m.dst)
      else (addrBytes m.dst).drop (16 - addrLen dac dam))) :
    compressHeader m sc dc ls ld =
      iphcBytes b0 b1 (BitVec.ofNat 8 (sc.getD 0 * 16 + dc.getD 0)) m ++
        (if b0.getLsbD 2 then udpHeaderBytes m else []) := by
  obtain ⟨-, -, -, hnhBit, -⟩ := iphcByte0_bits _ _ _ _ hb0
  obtain ⟨-, hhlimMask⟩ := iphcByte0_masks _ _ _ _ hb0
  obtain ⟨hcidBit, hsacBit, hsamBits, hmBit, hdacBit, hdamBits⟩ := iphcByte1_bits _ _ _ _ _ _ hb1
  have hword0 : 0x60 ||| (maskIf Config.tcC (decide (m.tc = 0)) |||
      maskIf Config.flC (decide (m.fl = 0))) ||| maskIf Config.nhC (decide (m.pkind = .udp)) |||
      hlim.zeroExtend 8 = b0 := by
    rw [hb0, iphcByte0, BitVec.or_assoc 0x60 (maskIf _ _)]
  have hword1 : maskIf 0x80 (sc.isSome || dc.isSome) ||| iphcByte1 false sac sam false false 0 |||
      iphcByte1 false false 0 mc dac dam = b1 := by
    rw [hb1, ← iphcByte1_eq_or]
  simp only [compressHeader, stepCid_form hsc hdc, stepTf_form, stepNh_form, hhlim, hsrc, hdst,
    stepUdp_eq, hword0, hword1, iphcBytes, hnhBit, hhlimMask, hcidBit, hsacBit, hsamBits, hmBit,
    hdacBit, hdamBits, decide_eq_true_eq, List.cons_append]

/-- A header of such bytes is as long as its own bits announce, and at most 48 bytes (R73). -/
theorem header_length {b0 b1 cid : Byte} {m : HM} {h : List Byte}
    (hh : h = iphcBytes b0 b1 cid m ++ (if b0.getLsbD 2 then udpHeaderBytes m else []))
    (htc : b0.getLsbD 4 = decide (m.tc = 0)) (hfl : b0.getLsbD 3 = decide (m.fl = 0))
    (hnh : b0.getLsbD 2 = decide (m.pkind = .udp)) :
    h.length = iphcLen b0 b1 +
        (if m.pkind = .udp then nhcLen (byteOf h (iphcLen b0 b1)) else 0) ∧ h.length ≤ 48 := by
  have hbody : (iphcBytes b0 b1 cid m).length = iphcLen b0 b1 := iphcBytes_length cid htc hfl
  have hle := iphcLen_le b0 b1
  by_cases hk : m.pkind = .udp
  · obtain ⟨hudp, hudpLe⟩ := udpHeaderBytes_length m
    rw [hnh, decide_eq_true hk, if_pos rfl] at hh
    have hbyte : byteOf h (iphcLen b0 b1) = byteOf (udpHeaderBytes m) 0 := by
      rw [hh, byteOf_append_right (Nat.le_of_eq hbody), hbody, Nat.sub_self]
    have hlen : h.length = iphcLen b0 b1 + (udpHeaderBytes m).length := by
      rw [hh, List.length_append, hbody]
    rw [if_pos hk, hbyte, ← hudp]
    omega
  · rw [hnh, decide_eq_false hk, if_neg Bool.false_ne_true, List.append_nil] at hh
    rw [if_neg hk, hh, hbody]
    omega

/-- A slot that matches an address is what the lookup of R131 finds. -/
theorem ctxFind_of_firstMatch {s : State} {a : Addr} {c : Option Nat}
    (h : firstMatch s (addrBytes a) c) : ctxFind s.ctx a.pfx = c ∧ c.getD 0 < 16 := by
  cases c with
  | none => exact ⟨ctxFind_eq_none_iff_ctxMatches.2 h, by decide⟩
  | some i => exact ⟨ctxFind_eq_some_iff_ctxMatches.2 h, h.1⟩

end Sys2Proof.Machine

namespace Sys2Proof.Proofs

open Sys2Proof Sys2Proof.Machine

/-- Settles O20: the two refusals are checked first, and the commit notes the checksum advisory
alone. -/
theorem encodeWritesHeaderThenPayload : Obligations.EncodeWritesHeaderThenPayload := by
  intro s
  refine ⟨fun hm hfits bad hbad => ?_,
    fun hm => ⟨_, exec_encode_badModel hm, refuses_hardError ..⟩,
    fun hm hover => ⟨_, exec_encode_overflow hm hover, refuses_hardError ..⟩⟩
  have hexec := exec_encode_fits hm hfits
  rw [csumMismatch_eq, ← hbad] at hexec
  refine ⟨_, hexec, ?_, ?_, ?_, bufBytes_bufOf _, rfl, everyInstructionKeepsTheRest _ _ _ hexec⟩
  · rw [← advStatus_csumAdv]
    exact answered_finish ..
  · cases bad <;> simp
  · simp

/-- Settles O21: each step of the encoder in its form, put together to the header, whose first two
bytes have the bits that the steps set. -/
theorem encodedHeaderSaysWhatItCarries : Obligations.EncodedHeaderSaysWhatItCarries := by
  rintro s h src dst b0 b1 sc dc hh hb0 hb1 rfl rfl hsc hdc
  obtain ⟨rfl, hsc16⟩ := ctxFind_of_firstMatch hsc
  obtain ⟨rfl, hdc16⟩ := ctxFind_of_firstMatch hdc
  obtain ⟨hlim, hhlim, hhlimForm⟩ := stepHlim_form s.hm.hlim
  obtain ⟨sac, sam, hsrc, hsrcForm⟩ :=
    stepSrc_form s.hm.src (ctxFind s.ctx s.hm.src.pfx) s.linkSrc
  obtain ⟨mc, dac, dam, hdst, hdstForm, hmc, hmcDac, hdacDam⟩ :=
    stepDst_form s.hm.dst (ctxFind s.ctx s.hm.dst.pfx) s.linkDst
  have hheader := hh.trans (compressHeader_eq hsc16 hdc16 rfl rfl hhlim hsrc hdst)
  replace hb0 := hb0.trans (congrArg (byteOf · 0) hheader)
  replace hb1 := hb1.trans (congrArg (byteOf · 1) hheader)
  change b0 = iphcByte0 _ _ _ _ at hb0
  change b1 = iphcByte1 _ _ _ _ _ _ at hb1
  rw [← hb0, ← hb1] at hheader
  obtain ⟨-, htcBit, hflBit, hnhBit, -⟩ := iphcByte0_bits _ _ _ _ hb0
  obtain ⟨hclass, hhlimMask⟩ := iphcByte0_masks _ _ _ _ hb0
  obtain ⟨hcidBit, -, -, hmBit, hdacBit, -⟩ := iphcByte1_bits _ _ _ _ _ _ hb1
  obtain ⟨hsrcMask, hdstMask, hdamZero⟩ := iphcByte1_masks _ _ _ _ _ _ hb1
  obtain ⟨hlen, hmax⟩ := header_length hheader htcBit hflBit hnhBit
  refine ⟨hclass, htcBit, hflBit, hnhBit, hhlimMask.trans hhlimForm, hcidBit,
    hsrcMask.trans hsrcForm, hdstMask.trans hdstForm, hmBit.trans hmc, ?_, ?_, hlen, hmax, hheader⟩
  · rw [hmBit, hdacBit]
    exact hmcDac
  · rw [hdacBit]
    exact fun hdac hzero => hdacDam hdac (hdamZero hzero)

end Sys2Proof.Proofs

/-! # CLASSIFY and DECODE (44_iphc_decoder.md)

What the decoder's field functions answer, in the words of R73 and R212: how long each piece of a
header is, where it stands, and when it refuses. DECODE is put together from these, and a header that
the encoder wrote is read back piece by piece. The statements follow at the end. -/

namespace Sys2Proof.Machine

/-! ## CLASSIFY (R180) -/

theorem ofNat_dispatchClass (d : Byte) : BitVec.ofNat 32 (dispatchClass d) =
    (if d = 0x41 then 1 else if d &&& 0xE0 = 0x60 then 2 else if d &&& 0xF8 = 0xC0 then 3
      else if d &&& 0xF8 = 0xE0 then 4 else 0) := by
  simp only [dispatchClass, apply_ite (BitVec.ofNat 32)]
  rfl

/-! ## The places of a header's pieces (R61, R73) -/

section Places

/-- Inline bytes of the source address (R73, R68). -/
def srcLen (b1 : Byte) : Nat := addrLen (b1.getLsbD 6) (b1.extractLsb' 4 2)

/-- Inline bytes of the destination address (R73, R70). -/
def dstLen (b1 : Byte) : Nat :=
  if b1.getLsbD 3 then mcastLen (b1.extractLsb' 0 2)
  else addrLen (b1.getLsbD 2) (b1.extractLsb' 0 2)

variable (s : State) (base : Nat)

/-- Where the traffic class and flow label stand: behind the CID byte. -/
def tfAt : Nat := base + 2 + if (rdByte s (base + 1)).getLsbD 7 then 1 else 0

/-- Where the next header stands. -/
def nhAt : Nat := tfAt s base + tfLen (rdByte s base)

/-- Where the hop limit stands. -/
def hlimAt : Nat := nhAt s base + if (rdByte s base).getLsbD 2 then 0 else 1

/-- Where the source address stands. -/
def srcAt : Nat := hlimAt s base + if rdByte s base &&& 0x03 = 0 then 1 else 0

/-- Where the destination address stands. -/
def dstAt : Nat := srcAt s base + srcLen (rdByte s (base + 1))

/-- Where the NHC header stands, if there is one. -/
def nhcAt : Nat := base + iphcLen (rdByte s base) (rdByte s (base + 1))

theorem dstAt_add_dstLen : dstAt s base + dstLen (rdByte s (base + 1)) = nhcAt s base := by
  simp only [dstAt, srcAt, hlimAt, nhAt, tfAt, nhcAt, iphcLen, srcLen, dstLen]
  omega

theorem base_le_srcAt : base ≤ srcAt s base := by
  simp only [srcAt, hlimAt, nhAt, tfAt]
  omega

/-- The context index of the source side, as the decoder takes it (R67, R190). -/
def srcSel : BitVec 4 :=
  if (rdByte s (base + 1)).getLsbD 7 then (rdByte s (base + 2)).extractLsb' 4 4
  else Config.noCidIndex

/-- The context index of the destination side, as the decoder takes it (R67, R190). -/
def dstSel : BitVec 4 :=
  if (rdByte s (base + 1)).getLsbD 7 then (rdByte s (base + 2)).extractLsb' 0 4
  else Config.noCidIndex

theorem toNat_upperNibble (b : Byte) : (b.extractLsb' 4 4).toNat = b.toNat / 16 := by
  have := b.isLt
  rw [BitVec.extractLsb'_toNat, Nat.shiftRight_eq_div_pow]
  omega

theorem toNat_lowerNibble (b : Byte) : (b.extractLsb' 0 4).toNat = b.toNat % 16 :=
  BitVec.extractLsb'_toNat ..

theorem srcSel_toNat : (srcSel s base).toNat = srcIndex s base := by
  rw [srcSel, srcIndex, apply_ite BitVec.toNat, toNat_upperNibble]
  rfl

theorem dstSel_toNat : (dstSel s base).toNat = dstIndex s base := by
  rw [dstSel, dstIndex, apply_ite BitVec.toNat, toNat_lowerNibble]
  rfl

end Places

/-! ## The fields before the addresses (R191, R192, R194) -/

section FixedFields

variable (s : State) (b0 : Byte) (p : Nat)

theorem decTf_length : (decTf s b0 p).2.2 = tfLen b0 := by
  rw [decTf, tfLen, flagSet_tcC, flagSet_flC]
  cases b0.getLsbD 4 <;> cases b0.getLsbD 3 <;> rfl

/-- The traffic class: without a DSCP only the two bits of the ECN (R64, R191). -/
theorem decTf_tc : (decTf s b0 p).1 =
    (if b0.getLsbD 4 then (if b0.getLsbD 3 then (0 : BitVec 8) else rdByte s p >>> (6 : Nat))
      else modelTc (rdByte s p)) := by
  have hecn : ∀ b : Byte, b >>> 6 &&& 0x03 = b >>> (6 : Nat) := by decide
  rw [decTf, flagSet_tcC, flagSet_flC]
  cases b0.getLsbD 4 <;> cases b0.getLsbD 3
  · rfl
  · rfl
  · exact hecn _
  · rfl

/-- The flow label is the low 20 bits of its three bytes (R64). -/
theorem flOf_toNat (x y z : Byte) : (flOf x y z).toNat = beNat [x, y, z] % 2 ^ 20 := by
  have hx : (x.extractLsb' 0 4).toNat = x.toNat % 16 := toNat_lowerNibble x
  have hy := y.isLt
  have hz := z.isLt
  rw [flOf, toNat_append_byte, toNat_append_byte, hx, beNat_three]
  omega

theorem decTf_fl : (decTf s b0 p).2.1.toNat =
    (if b0.getLsbD 3 then 0 else if b0.getLsbD 4 then beNat (rdb s p 3) % 2 ^ 20
      else beNat (rdb s (p + 1) 3) % 2 ^ 20) := by
  rw [decTf, flagSet_tcC, flagSet_flC]
  cases b0.getLsbD 4 <;> cases b0.getLsbD 3
  · exact flOf_toNat ..
  · rfl
  · exact flOf_toNat ..
  · rfl

theorem decNh_eq : decNh s b0 p =
    (if b0.getLsbD 2 then 17 else rdByte s p, if b0.getLsbD 2 then 0 else 1) := by
  rw [decNh, flagSet_nhC]
  cases b0.getLsbD 2 <;> rfl

theorem decHlim_eq : decHlim s b0 p =
    (if b0 &&& 0x03 = 0 then rdByte s p else if b0 &&& 0x03 = 1 then 1
      else if b0 &&& 0x03 = 2 then 64 else 255, if b0 &&& 0x03 = 0 then 1 else 0) := by
  unfold decHlim
  split_ifs <;> rfl

/-- The candidate model of the header at `base` before its addresses are read (R181). -/
def fixedFields (s : State) (base : Nat) : HM :=
  { HM.reset with
    tc := (decTf s (rdByte s base) (tfAt s base)).1
    fl := (decTf s (rdByte s base) (tfAt s base)).2.1
    nh := (decNh s (rdByte s base) (nhAt s base)).1
    hlim := (decHlim s (rdByte s base) (hlimAt s base)).1 }

/-- A header of class IPHC is read up to its addresses (R181). -/
theorem decodeAt_of_iphc {base : Nat} (h : rdByte s base &&& 0xE0 = 0x60) :
    decodeAt s base = decAddrs s base (rdByte s base) (rdByte s (base + 1)) (srcSel s base)
      (dstSel s base) (fixedFields s base) (srcAt s base) (past s base (srcAt s base - base)) := by
  simp only [decodeAt, ne_eq, h, not_true_eq_false, if_false, decTf_length, decNh_eq, decHlim_eq]
  simp only [fixedFields, srcAt, hlimAt, nhAt, tfAt, srcSel, dstSel, decNh_eq, decHlim_eq]

end FixedFields

/-! ## The addresses (R196 to R198, R212) -/

section Addresses

variable (s : State) {base p : Nat} {b1 : Byte} {mode : BitVec 2}

/-- A step of the decoder answers the refusal `e`, or else takes a piece of `n` bytes. -/
def refusesOrTakes {α : Type} (e : Option (Status × Nat)) (n : Nat)
    (r : Except Raise (α × Nat)) : Prop :=
  match e with
  | some (st, pos) => r = .error ⟨st, pos⟩
  | none => ∃ a, r = .ok (a, n)

theorem decIid_answers (pfx : Oct) (la : LinkAttr) (c : Bool) (hmode : mode ≠ 0) :
    refusesOrTakes
      (if mode = 0b11 && !la.valid then some (Status.missingLinkAddr, base + 1) else none)
      (addrLen c mode) (decIid s pfx mode la base p) := by
  obtain rfl | rfl | rfl : mode = 1 ∨ mode = 2 ∨ mode = 3 := by revert mode; decide
  · cases c <;> exact ⟨_, rfl⟩
  · cases c <;> exact ⟨_, rfl⟩
  · obtain ⟨hv, hl⟩ | ⟨hv, hl⟩ := linkIid_eq la (base + 1)
    · simp only [decIid, hl, hv]
      cases c <;> exact ⟨_, rfl⟩
    · simp only [decIid, hl, hv]
      rfl

/-- An address whose first half is elided: the context is asked for before the link address. -/
theorem decPrefixed_answers (c : Bool) (i : BitVec 4) (la : LinkAttr) (hmode : mode ≠ 0) :
    refusesOrTakes (addrRefusal s c mode i.toNat la (base + 1)) (addrLen c mode)
      (decPrefixed s c i mode la base p) := by
  rw [addrRefusal, if_neg hmode, decPrefixed]
  cases c with
  | false => exact decIid_answers s _ la false hmode
  | true =>
    obtain ⟨hv, hp⟩ | ⟨hv, hp⟩ := ctxPrefix_eq s i (base + 1)
    · simp only [addrPrefix, if_true, hp, hv]
      exact decIid_answers s _ la true hmode
    · simp only [addrPrefix, if_true, hp, hv]
      rfl

theorem decSrc_answers (i : BitVec 4) :
    refusesOrTakes
      (addrRefusal s (b1.getLsbD 6) (b1.extractLsb' 4 2) i.toNat s.linkSrc (base + 1))
      (srcLen b1) (decSrc s b1 i base p) := by
  unfold decSrc srcLen
  dsimp only
  by_cases hmode : b1.extractLsb' 4 2 = 0
  · rw [hmode, if_pos rfl]
    cases b1.getLsbD 6 <;> exact ⟨_, rfl⟩
  · rw [if_neg hmode]
    exact decPrefixed_answers s _ i _ hmode

/-- The refusal of a destination address: a reserved form comes first (R197, R198, R212). -/
def dstRefusal (b1 : Byte) (i pos : Nat) : Option (Status × Nat) :=
  if b1.getLsbD 2 && (b1.getLsbD 3 || b1 &&& 0x03 == 0x00) then some (.reservedEncoding, pos)
  else if b1.getLsbD 3 then none
  else addrRefusal s (b1.getLsbD 2) (b1.extractLsb' 0 2) i s.linkDst pos

theorem and_three_eq_zero (b : Byte) : (b &&& 0x03 == 0x00) = decide (b.extractLsb' 0 2 = 0) := by
  revert b; decide

theorem decMcast_takes (mode : BitVec 2) :
    ∃ a, decMcast s false mode base p = .ok (a, mcastLen mode) := by
  obtain rfl | rfl | rfl | rfl : mode = 0 ∨ mode = 1 ∨ mode = 2 ∨ mode = 3 := by
    revert mode; decide
  all_goals exact ⟨_, rfl⟩

theorem decDst_answers (i : BitVec 4) :
    refusesOrTakes (dstRefusal s b1 i.toNat (base + 1)) (dstLen b1) (decDst s b1 i base p) := by
  unfold decDst dstRefusal dstLen
  rw [and_three_eq_zero]
  dsimp only
  cases b1.getLsbD 3 with
  | true =>
    cases b1.getLsbD 2 with
    | true => rfl
    | false => exact decMcast_takes s (base := base) _
  | false =>
    by_cases hmode : b1.extractLsb' 0 2 = 0
    · rw [hmode]
      cases b1.getLsbD 2 with
      | true => rfl
      | false => exact ⟨_, rfl⟩
    · simp only [hmode, decide_false, Bool.or_false, Bool.and_false, Bool.false_eq_true, if_false]
      exact decPrefixed_answers s _ i _ hmode

/-- The refusals of a header of class IPHC: those of the source, then of the destination (R212). -/
theorem headerRefusal_of_iphc (h : rdByte s base &&& 0xE0 = 0x60) :
    headerRefusal s base =
      (addrRefusal s ((rdByte s (base + 1)).getLsbD 6) ((rdByte s (base + 1)).extractLsb' 4 2)
        (srcSel s base).toNat s.linkSrc (base + 1)).or
      (dstRefusal s (rdByte s (base + 1)) (dstSel s base).toNat (base + 1)) := by
  rw [srcSel_toNat, dstSel_toNat, headerRefusal, if_neg (not_not_intro h)]
  cases addrRefusal s _ _ (srcIndex s base) s.linkSrc (base + 1) <;> rfl

end Addresses

/-! ## The NHC header (R200, R207, R210) -/

section Nhc

variable (s : State) (p : Nat)

theorem decCsum_n (n : Byte) (sport dport : BitVec 16) (q : Nat) :
    (decCsum s n sport dport p q).n = q + if n.getLsbD 2 then 0 else 2 := by
  have hbit : n &&& 0x04 ≠ 0 ↔ n.getLsbD 2 = true := by revert n; decide
  simp only [decCsum, hbit]
  cases n.getLsbD 2 <;> rfl

theorem decNhc_unsupported (h : nhcSupported (rdByte s p) = false) : decNhc s p = none := by
  unfold decNhc
  unfold nhcSupported at h
  by_cases hudp : rdByte s p &&& 0xF8 = 0xF0
  · simp only [hudp, beq_self_eq_true, Bool.true_and, Bool.or_eq_false_iff, beq_eq_false_iff_ne]
      at h
    simp only [hudp, ne_eq, not_true_eq_false, if_false, h.1, h.2]
  · exact if_pos hudp

/-- A supported NHC byte announces the length of its header (R73). -/
theorem decNhc_supported (h : nhcSupported (rdByte s p) = true) :
    ∃ u, decNhc s p = some u ∧ u.n = nhcLen (rdByte s p) := by
  unfold decNhc nhcLen
  simp only [nhcSupported, Bool.and_eq_true, Bool.or_eq_true, beq_iff_eq] at h
  obtain ⟨hudp, hports | hports⟩ := h
  · simp only [hudp, hports, ne_eq, not_true_eq_false, if_false, if_true]
    exact ⟨_, rfl, decCsum_n ..⟩
  · have h3 : ¬ (0x03 : Byte) = 0x00 := by decide
    simp only [hudp, hports, ne_eq, not_true_eq_false, if_false, if_true, h3]
    exact ⟨_, rfl, decCsum_n ..⟩

theorem nhcSupported_of_decNhc {u : UdpShell} (h : decNhc s p = some u) :
    nhcSupported (rdByte s p) = true ∧ u.n = nhcLen (rdByte s p) := by
  cases hn : nhcSupported (rdByte s p) with
  | false => rw [decNhc_unsupported s p hn] at h; cases h
  | true =>
    obtain ⟨u', hu', hlen⟩ := decNhc_supported s p hn
    cases h.symm.trans hu'
    exact ⟨rfl, hlen⟩

/-- What a decode of the header at `base` has read, `m` being its model before the NHC header. -/
structure HeaderRead (s : State) (base : Nat) (m : HM) (d : Decoded) : Prop where
  chs : d.chs = headerLen s base
  uhs : d.uhs = if hasShell s base then 48 else 40
  unsup : d.unsup = nhcMissing s base
  trunc : d.trunc = past s base (bytesRead s base)
  shell : hasShell s base = true →
    ∃ u, decNhc s (nhcAt s base) = some u ∧ d.hm = withShell m u.sport u.dport u.csum
  noShell : hasShell s base = false → d.hm = Machine.noShell m

variable (base : Nat)

theorem hasShell_eq : hasShell s base =
    ((rdByte s base).getLsbD 2 && nhcSupported (rdByte s (nhcAt s base))) := rfl

/-- CHS counts up to the NHC header, and the NHC header of a shell (R73, R210). -/
theorem headerLen_eq : headerLen s base = nhcAt s base +
    (if hasShell s base then nhcLen (rdByte s (nhcAt s base)) else 0) - base := by
  rw [nhcAt, Nat.add_assoc, Nat.add_sub_cancel_left, headerLen]
  cases hasShell s base <;> rfl

/-- The truncation mark of all the bytes that the decoder reads (R44, R207). -/
theorem past_bytesRead : past s base (bytesRead s base) =
    decide (s.fb.len < s.cur.toNat + base + bytesRead s base) := by
  have hpos : 0 < bytesRead s base := by
    simp only [bytesRead, headerLen_eq, nhcAt, iphcLen]
    omega
  simp only [past_eq, hpos, true_and]

/-- Reading on behind the IPHC header. -/
theorem past_nhcAt (n : Nat) :
    (past s base (nhcAt s base - base) || past s (nhcAt s base) n) =
      past s base (nhcAt s base + n - base) := by
  rw [nhcAt, Nat.add_sub_cancel_left, past_append, Nat.add_assoc, Nat.add_sub_cancel_left]

/-- The NHC header, if NH_C says that one follows, ends the header. -/
theorem decTail_headerRead (m : HM) :
    HeaderRead s base m (decTail s base (rdByte s base) m (nhcAt s base)
      (past s base (nhcAt s base - base))) := by
  have hlen := headerLen_eq s base
  have hshell := hasShell_eq s base
  have hmissing : nhcMissing s base = ((rdByte s base).getLsbD 2 && !hasShell s base) := rfl
  have hread : bytesRead s base = headerLen s base + if nhcMissing s base then 1 else 0 := rfl
  rw [decTail, flagSet_nhC]
  cases hnh : (rdByte s base).getLsbD 2 with
  | false =>
    rw [hnh, Bool.false_and] at hshell hmissing
    rw [hshell] at hlen
    rw [hmissing, hlen] at hread
    exact ⟨hlen.symm, by rw [hshell]; rfl, hmissing.symm, by rw [hread]; rfl,
      fun h => absurd (hshell.symm.trans h) (by decide), fun _ => rfl⟩
  | true =>
    rw [hnh, Bool.true_and] at hshell hmissing
    cases hn : nhcSupported (rdByte s (nhcAt s base)) with
    | false =>
      rw [hn] at hshell
      rw [hshell] at hlen hmissing
      have hread : bytesRead s base = nhcAt s base + 1 - base := by
        rw [hread, hmissing, hlen, nhcAt]
        simp only [Bool.not_false, Bool.false_eq_true, if_true, if_false]
        omega
      rw [decNhc_unsupported s _ hn]
      exact ⟨hlen.symm, by rw [hshell]; rfl, hmissing.symm, by rw [hread, ← past_nhcAt]; rfl,
        fun h => absurd (hshell.symm.trans h) (by decide), fun _ => rfl⟩
    | true =>
      obtain ⟨u, hu, hun⟩ := decNhc_supported s _ hn
      rw [hn] at hshell
      rw [hshell, if_pos rfl, ← hun] at hlen
      rw [hshell] at hmissing
      rw [hmissing, hlen] at hread
      rw [hu]
      exact ⟨hlen.symm, by rw [hshell]; rfl, hmissing.symm,
        (past_nhcAt ..).trans (congrArg _ hread.symm),
        fun _ => ⟨u, hu, rfl⟩, fun h => absurd (hshell.symm.trans h) (by decide)⟩

end Nhc

/-! ## The whole header (R181, R212) -/

section Header

variable {s : State} {base : Nat}

/-- A header of class IPHC whose addresses are taken is read to its end. -/
theorem decodeAt_of_addrs (h : rdByte s base &&& 0xE0 = 0x60) {src dst : Addr}
    (hsrc : decSrc s (rdByte s (base + 1)) (srcSel s base) base (srcAt s base) =
      .ok (src, srcLen (rdByte s (base + 1))))
    (hdst : decDst s (rdByte s (base + 1)) (dstSel s base) base (dstAt s base) =
      .ok (dst, dstLen (rdByte s (base + 1)))) :
    ∃ d, decodeAt s base = .ok d ∧
      HeaderRead s base { fixedFields s base with src := src, dst := dst } d := by
  have hend := dstAt_add_dstLen s base
  have hbase := base_le_srcAt s base
  have hpast : (past s base (srcAt s base - base) ||
      past s (srcAt s base) (srcLen (rdByte s (base + 1))) ||
      past s (dstAt s base) (dstLen (rdByte s (base + 1)))) =
      past s base (nhcAt s base - base) := by
    simp only [past_eq, ← Bool.decide_or, decide_eq_decide, ← hend, dstAt]
    omega
  refine ⟨_, ?_, decTail_headerRead s base _⟩
  rw [decodeAt_of_iphc s h, decAddrs, hsrc]
  simp only
  rw [← dstAt, hdst, ← hpast, ← hend]

/-- A header is refused as its bits, the table and the link addresses say. -/
theorem decodeAt_refuses {st : Status} {pos : Nat} (h : headerRefusal s base = some (st, pos)) :
    decodeAt s base = .error ⟨st, pos⟩ := by
  by_cases hiphc : rdByte s base &&& 0xE0 = 0x60
  · rw [headerRefusal_of_iphc s hiphc] at h
    rw [decodeAt_of_iphc s hiphc, decAddrs]
    have hsrc := decSrc_answers s (b1 := rdByte s (base + 1)) (base := base) (p := srcAt s base)
      (srcSel s base)
    cases hr : addrRefusal s _ _ (srcSel s base).toNat s.linkSrc (base + 1) with
    | some r =>
      rw [hr] at hsrc h
      cases h
      rw [show decSrc .. = _ from hsrc]
    | none =>
      rw [hr] at hsrc h
      obtain ⟨src, hsrc⟩ := hsrc
      have hdst := decDst_answers s (b1 := rdByte s (base + 1)) (base := base) (p := dstAt s base)
        (dstSel s base)
      rw [show dstRefusal .. = _ from h] at hdst
      rw [hsrc]
      simp only
      rw [← dstAt, show decDst .. = _ from hdst]
  · rw [decodeAt_of_not_iphc hiphc]
    cases (if_pos hiphc).symm.trans h
    rfl

/-- A header that is not refused is read to its end. -/
theorem decodeAt_reads (h : headerRefusal s base = none) :
    ∃ src dst d, decodeAt s base = .ok d ∧
      HeaderRead s base { fixedFields s base with src := src, dst := dst } d := by
  have hiphc : rdByte s base &&& 0xE0 = 0x60 :=
    not_not.1 fun hn => nomatch (if_pos hn).symm.trans h
  rw [headerRefusal_of_iphc s hiphc, Option.or_eq_none_iff] at h
  have hsrc := decSrc_answers s (b1 := rdByte s (base + 1)) (base := base) (p := srcAt s base)
    (srcSel s base)
  have hdst := decDst_answers s (b1 := rdByte s (base + 1)) (base := base) (p := dstAt s base)
    (dstSel s base)
  rw [h.1] at hsrc
  rw [h.2] at hdst
  obtain ⟨src, hsrc⟩ := hsrc
  obtain ⟨dst, hdst⟩ := hdst
  exact ⟨src, dst, decodeAt_of_addrs hiphc hsrc hdst⟩

/-! ## DECODE (R181, R182, R211) -/

theorem exec_decode_refused {r : Raise} (h : decodeAt s 0 = .error r) :
    exec .decode s = .next (hardError r s) := by
  simp only [exec, execDecode, decodeState, h]

theorem exec_decode_read {d : Decoded} (h : decodeAt s 0 = .ok d) :
    exec .decode s = .next (commitDecode d s) := by
  simp only [exec, execDecode, decodeState, h]

/-- A header that has been read is committed where the cursor can take it (R211, R288). -/
theorem exec_decode_commits {d : Decoded} (h : decodeAt s 0 = .ok d)
    (hcur : s.cur.toNat + d.chs ≤ 0xFFFF) :
    ∃ t, exec .decode s = .next t ∧
      committed d.hm (BitVec.ofNat 32 d.uhs) d.chs d.unsup
        (s.reading { s.walk with trunc := d.trunc }) t := by
  refine ⟨_, exec_decode_read h, ?_⟩
  rw [← commitDecode_walk d s { s.walk with trunc := d.trunc }]
  exact commitDecode_commits rfl hcur

/-- What an NHC header, or none, leaves of the model before it (R181, R200, R207). -/
theorem HeaderRead.fields {m : HM} {d : Decoded} (h : HeaderRead s base m d) :
    d.hm.tc = m.tc ∧ d.hm.fl = m.fl ∧ d.hm.nh = m.nh ∧ d.hm.hlim = m.hlim := by
  cases hs : hasShell s base with
  | true =>
    obtain ⟨u, -, hhm⟩ := h.shell hs
    rw [hhm]
    exact ⟨rfl, rfl, rfl, rfl⟩
  | false =>
    rw [h.noShell hs]
    exact ⟨rfl, rfl, rfl, rfl⟩

/-- The payload kind of a header that has been read (R181, R200, R207). -/
theorem HeaderRead.pkind {m : HM} {d : Decoded} (h : HeaderRead s base m d) :
    d.hm.pkind = if hasShell s base then .udp else .none := by
  cases hs : hasShell s base with
  | true =>
    obtain ⟨u, -, hhm⟩ := h.shell hs
    rw [hhm]
    rfl
  | false =>
    rw [h.noShell hs]
    rfl

end Header

/-! ## A byte sequence that stands in the frame -/

section Holds

/-- The bytes from the offset `p` on are those of `l`. -/
def holdsAt (s : State) (p : Nat) (l : List Byte) : Prop := rdb s p l.length = l

variable {s : State} {p : Nat}

theorem rdb_add (s : State) (p n k : Nat) : rdb s p (n + k) = rdb s p n ++ rdb s (p + n) k := by
  simp only [rdb, List.range_add, List.map_append, List.map_map, Function.comp_def, Nat.add_assoc]

theorem holdsAt_append {l m : List Byte} :
    holdsAt s p (l ++ m) ↔ holdsAt s p l ∧ holdsAt s (p + l.length) m := by
  rw [holdsAt, List.length_append, rdb_add]
  exact ⟨fun h => List.append_inj h (rdb_length ..), fun h => congrArg₂ _ h.1 h.2⟩

theorem holdsAt_cons {x : Byte} {l : List Byte} :
    holdsAt s p (x :: l) ↔ rdByte s p = x ∧ holdsAt s (p + 1) l := by
  rw [← List.singleton_append, holdsAt_append]
  exact and_congr_left' List.singleton_inj

theorem rdByte_of_holdsAt {x : Byte} (h : holdsAt s p [x]) : rdByte s p = x := (holdsAt_cons.1 h).1

theorem rdOct_of_holdsAt {o : Oct} (h : holdsAt s p (octBytes o)) : rdOct s p = o :=
  octBytes_inj.1 h

theorem rdAddr_of_holdsAt {a : Addr} (h : holdsAt s p (addrBytes a)) : rdAddr s p = a :=
  addrBytes_inj.1 h

/-- The frame that SETBYTES leaves holds its bytes at the cursor. -/
theorem holdsAt_bufOf {l m : List Byte} (hfb : s.fb = bufOf (l ++ m)) (hcur : s.cur = 0) :
    holdsAt s 0 l := by
  refine list_ext_byteOf (rdb_length ..) fun k hk => ?_
  rw [rdb_length] at hk
  have hlen : k < (l ++ m).length := by rw [List.length_append]; omega
  have hzero : s.cur.toNat + (0 + k) = k := by rw [hcur, Nat.zero_add]; exact Nat.zero_add k
  rw [byteOf_rdb _ _ _ _ hk, rdByte, hzero, byteAt_below _ _ (hfb ▸ hlen), hfb,
    memByte_bufOf _ _ _ hlen, byteOf_append_left hk]

end Holds

/-! ## Reading back the pieces that the encoder wrote (R213) -/

section ReadBack

variable {s : State} {base p : Nat} {b0 b1 : Byte}

/-- The three bytes of a flow label give it back (R64). -/
theorem flOf_flBytes (fl : BitVec 20) :
    flOf ((0 : BitVec 4) ++ fl.extractLsb' 16 4) (fl.extractLsb' 8 8) (fl.extractLsb' 0 8) = fl := by
  have hfl : fl.toNat < 2 ^ 20 := fl.isLt
  rw [flOf, BitVec.extractLsb'_append_eq_right]
  apply BitVec.eq_of_toNat_eq
  simp only [toNat_append_byte, BitVec.extractLsb'_toNat, Nat.shiftRight_eq_div_pow]
  omega

/-- The inline bytes of traffic class and flow label, in the encoder's words (R153). -/
theorem trafficInline_eq (tc : BitVec 8) (fl : BitVec 20) : trafficInline tc fl =
    (if tc = 0 then [] else [wireTc tc]) ++ (if fl = 0 then [] else flBytes fl) := by
  rw [trafficInline, ← wireTc_eq, ← flBytes_eq]

/-- Traffic class and flow label (R63, R64, R153, R191). -/
theorem decTf_trafficInline {tc : BitVec 8} {fl : BitVec 20}
    (htc : b0.getLsbD 4 = decide (tc = 0)) (hfl : b0.getLsbD 3 = decide (fl = 0))
    (h : holdsAt s p (trafficInline tc fl)) : (decTf s b0 p).1 = tc ∧ (decTf s b0 p).2.1 = fl := by
  have hecn : ∀ x : BitVec 4, ((0 : BitVec 4) ++ x) >>> 6 &&& 0x03 = (0 : Byte) := by decide
  rw [trafficInline_eq, flBytes] at h
  rw [decTf, flagSet_tcC, flagSet_flC, htc, hfl]
  by_cases ht : tc = 0 <;> by_cases hf : fl = 0
  all_goals
    simp only [ht, hf, if_true, if_false, List.nil_append, List.append_nil, List.cons_append,
      holdsAt_cons, decide_true, decide_false, Bool.false_eq_true] at h ⊢
  · exact ⟨trivial, trivial⟩
  · obtain ⟨h0, h1, h2, -⟩ := h
    rw [h0, h1, h2]
    exact ⟨hecn _, flOf_flBytes fl⟩
  · obtain ⟨h0, -⟩ := h
    rw [h0]
    exact ⟨modelTc_wireTc tc, trivial⟩
  · obtain ⟨h0, h1, h2, h3, -⟩ := h
    rw [h0, h1, h2, h3]
    exact ⟨modelTc_wireTc tc, flOf_flBytes fl⟩

/-- The hop limit (R66, R155, R194). -/
theorem decHlim_hlim {hlim : BitVec 8}
    (hmask : b0 &&& 0x03 =
      (if hlim = 1 then 1 else if hlim = 64 then 2 else if hlim = 255 then 3 else 0))
    (h : b0 &&& 0x03 = 0 → rdByte s p = hlim) : (decHlim s b0 p).1 = hlim := by
  rw [decHlim_eq, hmask]
  rw [hmask] at h
  by_cases h1 : hlim = 1
  · rw [if_pos h1]
    exact h1.symm
  rw [if_neg h1] at h ⊢
  by_cases h64 : hlim = 64
  · rw [if_pos h64]
    exact h64.symm
  rw [if_neg h64] at h ⊢
  by_cases h255 : hlim = 255
  · rw [if_pos h255]
    exact h255.symm
  rw [if_neg h255] at h ⊢
  exact h rfl

/-! ### Addresses (R68, R70, R156 to R162, R196 to R198) -/

section Addresses

variable {a : Addr} {la : LinkAttr}

/-- An IID in the mode that the encoder chose for it. -/
theorem decIid_iidMode (c : Bool)
    (h : holdsAt s p ((addrBytes a).drop (16 - addrLen c (iidMode a la)))) :
    decIid s a.pfx (iidMode a la) la base p = .ok (a, addrLen c (iidMode a la)) := by
  obtain ⟨pfx, iid⟩ := a
  unfold iidMode at h ⊢
  cases hm : macDerived ⟨pfx, iid⟩ la with
  | true =>
    obtain ⟨hv, rfl⟩ : la.valid = true ∧ iid = iidFromLink la.addr := by
      simpa [macDerived] using hm
    simp only [decIid, linkIid, hv]
    cases c <;> rfl
  | false =>
    rw [hm] at h
    cases hi : iid16 ⟨pfx, iid⟩ with
    | true =>
      rw [hi] at h
      have hiid : iidOf16 iid.b6 iid.b7 = iid := (iid_of_iid16 hi).symm
      have hbytes : holdsAt s p [iid.b6, iid.b7] := by cases c <;> exact h
      simp only [holdsAt_cons] at hbytes
      simp only [decIid, hbytes, hiid]
      cases c <;> rfl
    | false =>
      rw [hi] at h
      have hbytes : holdsAt s p (octBytes iid) := by cases c <;> exact h
      simp only [decIid, rdOct_of_holdsAt hbytes]
      cases c <;> rfl

/-- The context that the encoder found for an address gives its first half (R131, R193). -/
theorem addrPrefix_of_elided {c : Option Nat} {i : BitVec 4} (pos : Nat)
    (hc : ctxFind s.ctx a.pfx = c) (hi : i.toNat = c.getD 0)
    (h : (c.isSome || a.pfx == Config.linkLocal) = true) :
    addrPrefix s c.isSome i pos = .ok a.pfx := by
  cases c with
  | none =>
    have hp : a.pfx = Config.linkLocal := by simpa using h
    rw [hp]
    rfl
  | some k =>
    obtain ⟨-, ⟨hv, hp⟩, -⟩ := ctxFind_some.1 hc
    have hk : i.toNat = k := hi
    simp only [addrPrefix, ctxPrefix, hk, hv, hp, Option.isSome_some, if_true]

/-- The bits and inline bytes of a unicast address, and how they are read back: whole, or by its
first half and the mode of its IID. -/
theorem uni_readsBack {c : Option Nat} (hc : ctxFind s.ctx a.pfx = c) :
    ∃ (bit : Bool) (mode : BitVec 2),
      uni a c la = (bit, mode, (addrBytes a).drop (16 - addrLen bit mode)) ∧
      (mode = 0 → bit = false) ∧
      ∀ (i : BitVec 4) (base p : Nat), i.toNat = c.getD 0 → mode ≠ 0 →
        holdsAt s p ((addrBytes a).drop (16 - addrLen bit mode)) →
        decPrefixed s bit i mode la base p = .ok (a, addrLen bit mode) := by
  by_cases h : (c.isSome || a.pfx == Config.linkLocal) = true
  · refine ⟨c.isSome, iidMode a la, uni_elided h, fun h0 => absurd h0 (iidMode_ne_zero a la),
      fun i base p hi _ hbytes => ?_⟩
    rw [decPrefixed, addrPrefix_of_elided _ hc hi h]
    exact decIid_iidMode _ hbytes
  · exact ⟨false, 0, uni_full h, fun _ => rfl, fun _ _ _ _ h0 => absurd rfl h0⟩

/-- Step 5 and its reading: the source address (R156, R196). -/
theorem stepSrc_readsBack {c : Option Nat} (hc : ctxFind s.ctx a.pfx = c) :
    ∃ (sac : Bool) (sam : BitVec 2),
      stepSrc a c s.linkSrc = (iphcByte1 false sac sam false false 0,
        (addrBytes a).drop (16 - addrLen sac sam)) ∧
      ∀ (b1 : Byte) (i : BitVec 4) (base p : Nat), b1.getLsbD 6 = sac → b1.extractLsb' 4 2 = sam →
        i.toNat = c.getD 0 → holdsAt s p ((addrBytes a).drop (16 - addrLen sac sam)) →
        decSrc s b1 i base p = .ok (a, srcLen b1) := by
  by_cases ha : a = Addr.zero
  · refine ⟨true, 0, if_pos ha, fun b1 i base p hsac hsam _ _ => ?_⟩
    simp only [decSrc, srcLen, hsac, hsam, ha]
    rfl
  · obtain ⟨bit, mode, huni, hbit, hread⟩ := uni_readsBack (la := s.linkSrc) hc
    refine ⟨bit, mode, by rw [stepSrc, if_neg ha, huni, ← srcBits],
      fun b1 i base p hsac hsam hi hbytes => ?_⟩
    simp only [decSrc, srcLen, hsac, hsam]
    by_cases hmode : mode = 0
    · obtain rfl := hmode
      obtain rfl := hbit rfl
      simp only [rdAddr_of_holdsAt hbytes]
      rfl
    · rw [if_neg hmode]
      exact hread i base p hi hmode hbytes

/-- A multicast destination and its reading (R162, R198). -/
theorem mcast_readsBack (h : a.pfx.b0 = 0xFF) : ∃ mode : BitVec 2,
    mcast a = (mode, multicastInline mode (addrBytes a)) ∧
      ∀ (base p : Nat), holdsAt s p (multicastInline mode (addrBytes a)) →
        decMcast s false mode base p = .ok (a, mcastLen mode) := by
  obtain ⟨x, ha, hm⟩ | ⟨x0, x1, x2, x3, ha, hm⟩ | ⟨x0, x1, x2, x3, x4, x5, ha, hm⟩ | hm :=
    mcast_cases a
  · subst ha
    refine ⟨3, hm, fun base p hbytes => ?_⟩
    have hbytes : holdsAt s p [x] := hbytes
    simp only [holdsAt_cons] at hbytes
    simp only [decMcast, hbytes]
    rfl
  · subst ha
    refine ⟨2, hm, fun base p hbytes => ?_⟩
    have hbytes : holdsAt s p [x0, x1, x2, x3] := hbytes
    simp only [holdsAt_cons] at hbytes
    simp only [decMcast, hbytes]
    rfl
  · subst ha
    refine ⟨1, hm, fun base p hbytes => ?_⟩
    have hbytes : holdsAt s p [x0, x1, x2, x3, x4, x5] := hbytes
    simp only [holdsAt_cons] at hbytes
    simp only [decMcast, hbytes]
    rfl
  · refine ⟨0, hm, fun base p hbytes => ?_⟩
    have hbytes : holdsAt s p (addrBytes a) := hbytes
    simp only [decMcast, rdAddr_of_holdsAt hbytes]
    rfl

/-- Step 6 and its reading: the destination address (R161, R197, R198). -/
theorem stepDst_readsBack {c : Option Nat} (hc : ctxFind s.ctx a.pfx = c) :
    ∃ (m dac : Bool) (dam : BitVec 2),
      stepDst a c s.linkDst = (iphcByte1 false false 0 m dac dam,
        if m then multicastInline dam (addrBytes a)
        else (addrBytes a).drop (16 - addrLen dac dam)) ∧
      ∀ (b1 : Byte) (i : BitVec 4) (base p : Nat), b1.getLsbD 3 = m → b1.getLsbD 2 = dac →
        b1.extractLsb' 0 2 = dam → i.toNat = c.getD 0 →
        holdsAt s p (if m then multicastInline dam (addrBytes a)
          else (addrBytes a).drop (16 - addrLen dac dam)) →
        decDst s b1 i base p = .ok (a, dstLen b1) := by
  by_cases ha : a.pfx.b0 = 0xFF
  · obtain ⟨mode, hmcast, hread⟩ := mcast_readsBack (s := s) ha
    refine ⟨true, false, mode, by rw [stepDst, if_pos ha, hmcast, ← multicastBits]; rfl,
      fun b1 i base p hm hdac hdam _ hbytes => ?_⟩
    simp only [decDst, dstLen, hm, hdac, hdam]
    exact hread base p hbytes
  · obtain ⟨bit, mode, huni, hbit, hread⟩ := uni_readsBack (la := s.linkDst) hc
    refine ⟨false, bit, mode, by rw [stepDst, if_neg ha, huni, ← unicastBits]; rfl,
      fun b1 i base p hm hdac hdam hi hbytes => ?_⟩
    simp only [decDst, dstLen, hm, hdac, hdam]
    by_cases hmode : mode = 0
    · obtain rfl := hmode
      obtain rfl := hbit rfl
      simp only [rdAddr_of_holdsAt hbytes]
      rfl
    · simp only [hmode, Bool.false_eq_true, if_false]
      exact hread i base p hi hmode hbytes

end Addresses

/-! ### The NHC header (R80, R81, R165, R200) -/

/-- A port in range is given back by its nibble (R81). -/
theorem nibblePort_of_inRange {v : BitVec 16} (h : portInRange v = true) :
    nibblePort ((v - Config.portBase).extractLsb' 0 4) = v := by
  obtain ⟨hlo, hhi⟩ := (portInRange_iff v).1 h
  have hnibble := portNibble_toNat h
  have hbase : Config.portBase.toNat = 0xF0B0 := rfl
  apply BitVec.eq_of_toNat_eq
  rw [nibblePort, BitVec.toNat_add, BitVec.toNat_setWidth]
  omega

theorem rd16_of_holdsAt {v : BitVec 16} (h : holdsAt s p (be16Bytes v)) : rd16 s p = v := by
  simp only [be16Bytes, holdsAt_cons] at h
  obtain ⟨hhi, hlo, -⟩ := h
  rw [rd16, hhi, hlo, be16_be16Bytes]

/-- The NHC header of a UDP model: both ports and the checksum. -/
theorem decNhc_udpHeaderBytes {m : HM} (h : holdsAt s p (udpHeaderBytes m)) :
    decNhc s p = some ⟨m.sport, m.dport, some m.csum, (udpHeaderBytes m).length⟩ := by
  rw [← stepUdp_eq, stepUdp] at h ⊢
  by_cases hports : (portInRange m.sport && portInRange m.dport) = true
  · rw [if_pos hports] at h ⊢
    obtain ⟨hs, hd⟩ := Bool.and_eq_true_iff.1 hports
    obtain ⟨hn, hw, hcsum⟩ := holdsAt_cons.1 h |>.imp_right holdsAt_cons.1
    simp only [decNhc, hn, hw, decCsum, BitVec.extractLsb'_append_eq_left,
      BitVec.extractLsb'_append_eq_right, nibblePort_of_inRange hs, nibblePort_of_inRange hd,
      rd16_of_holdsAt hcsum]
    rfl
  · rw [if_neg hports] at h ⊢
    obtain ⟨hn, hrest⟩ := holdsAt_cons.1 h
    simp only [List.append_assoc, holdsAt_append, be16Bytes_length, Nat.add_assoc] at hrest
    obtain ⟨hs, hd, hcsum⟩ := hrest
    simp only [decNhc, hn, decCsum, rd16_of_holdsAt hs, rd16_of_holdsAt hd, rd16_of_holdsAt hcsum]
    rfl

/-! ### The whole header (R150, R213) -/

/-- Each piece of an encoded header stands where the decoder reads it. -/
structure HeaderBytes (s : State) (base : Nat) (b0 b1 cid : Byte) (m : HM) : Prop where
  byte0 : rdByte s base = b0
  byte1 : rdByte s (base + 1) = b1
  cidByte : b1.getLsbD 7 = true → rdByte s (base + 2) = cid
  traffic : holdsAt s (tfAt s base) (trafficInline m.tc m.fl)
  nh : b0.getLsbD 2 = false → rdByte s (nhAt s base) = m.nh
  hlim : b0 &&& 0x03 = 0 → rdByte s (hlimAt s base) = m.hlim
  src : holdsAt s (srcAt s base)
    ((addrBytes m.src).drop (16 - addrLen (b1.getLsbD 6) (b1.extractLsb' 4 2)))
  dst : holdsAt s (dstAt s base)
    (if b1.getLsbD 3 then multicastInline (b1.extractLsb' 0 2) (addrBytes m.dst)
      else (addrBytes m.dst).drop (16 - addrLen (b1.getLsbD 2) (b1.extractLsb' 0 2)))

theorem headerBytes_of_holdsAt {cid : Byte} {m : HM} (htc : b0.getLsbD 4 = decide (m.tc = 0))
    (hfl : b0.getLsbD 3 = decide (m.fl = 0)) (h : holdsAt s base (iphcBytes b0 b1 cid m)) :
    HeaderBytes s base b0 b1 cid m := by
  simp only [iphcBytes, holdsAt_cons, holdsAt_append, List.length_append,
    trafficInline_length htc hfl, addrInline_length, apply_ite List.length, List.length_cons,
    List.length_nil, Nat.zero_add, ← Nat.add_assoc] at h
  obtain ⟨rfl, rfl, ⟨⟨⟨⟨hcid, htraffic⟩, hnh⟩, hhlim⟩, hsrc⟩, hdst⟩ := h
  refine ⟨rfl, rfl, fun hc => ?_, htraffic, fun hc => ?_, fun hc => ?_, hsrc, hdst⟩
  · rw [if_pos hc] at hcid
    exact rdByte_of_holdsAt hcid
  · rw [hc] at hnh
    exact rdByte_of_holdsAt hnh
  · rw [if_pos hc] at hhlim
    exact rdByte_of_holdsAt hhlim

/-- The two context indices are the nibbles of the CID byte, if there is one (R67). -/
theorem HeaderBytes.indices {cid : Byte} {m : HM} (h : HeaderBytes s base b0 b1 cid m) :
    srcIndex s base = (if b1.getLsbD 7 then cid.toNat / 16 else 0) ∧
      dstIndex s base = (if b1.getLsbD 7 then cid.toNat % 16 else 0) := by
  rw [srcIndex, dstIndex, h.byte1]
  cases hc : b1.getLsbD 7 with
  | false => exact ⟨rfl, rfl⟩
  | true =>
    rw [h.cidByte hc]
    exact ⟨rfl, rfl⟩

/-- The header that the encoder writes: its bytes, what its bits say, and that the decoder reads its
addresses back. -/
structure EncodedForm (s : State) (b0 b1 cid : Byte) : Prop where
  header : encodedHeader s =
    iphcBytes b0 b1 cid s.hm ++ (if b0.getLsbD 2 then udpHeaderBytes s.hm else [])
  iphc : b0 &&& 0xE0 = 0x60
  tc : b0.getLsbD 4 = decide (s.hm.tc = 0)
  fl : b0.getLsbD 3 = decide (s.hm.fl = 0)
  nh : b0.getLsbD 2 = decide (s.hm.pkind = .udp)
  hlim : b0 &&& 0x03 = (if s.hm.hlim = 1 then 1 else if s.hm.hlim = 64 then 2
    else if s.hm.hlim = 255 then 3 else 0)
  srcIndex : (if b1.getLsbD 7 then cid.toNat / 16 else 0) =
    (ctxFind s.ctx s.hm.src.pfx).getD 0
  dstIndex : (if b1.getLsbD 7 then cid.toNat % 16 else 0) =
    (ctxFind s.ctx s.hm.dst.pfx).getD 0
  src : ∀ (i : BitVec 4) (base p : Nat), i.toNat = (ctxFind s.ctx s.hm.src.pfx).getD 0 →
    holdsAt s p ((addrBytes s.hm.src).drop (16 - addrLen (b1.getLsbD 6) (b1.extractLsb' 4 2))) →
    decSrc s b1 i base p = .ok (s.hm.src, srcLen b1)
  dst : ∀ (i : BitVec 4) (base p : Nat), i.toNat = (ctxFind s.ctx s.hm.dst.pfx).getD 0 →
    holdsAt s p (if b1.getLsbD 3 then multicastInline (b1.extractLsb' 0 2) (addrBytes s.hm.dst)
      else (addrBytes s.hm.dst).drop (16 - addrLen (b1.getLsbD 2) (b1.extractLsb' 0 2))) →
    decDst s b1 i base p = .ok (s.hm.dst, dstLen b1)

theorem ctxFind_getD_lt (ctx : Vector CtxSlot Config.nCtx) (o : Oct) :
    (ctxFind ctx o).getD 0 < 16 := by
  cases h : ctxFind ctx o with
  | none => decide
  | some i => exact (ctxFind_some.1 h).1

/-- The nibbles of the CID byte are the indices of the two sides; without a CID byte both are 0
(R67, R152). -/
theorem cidIndices {c d : Option Nat} (hc : c.getD 0 < 16) (hd : d.getD 0 < 16) {cidp : Bool}
    (h : cidp = (c.isSome || d.isSome)) {cid : Byte}
    (hcid : cid = BitVec.ofNat 8 (c.getD 0 * 16 + d.getD 0)) :
    (if cidp then cid.toNat / 16 else 0) = c.getD 0 ∧
      (if cidp then cid.toNat % 16 else 0) = d.getD 0 := by
  subst h hcid
  cases hp : c.isSome || d.isSome with
  | false =>
    obtain ⟨hc, hd⟩ := Bool.or_eq_false_iff.1 hp
    rw [Option.isSome_eq_false_iff, Option.isNone_iff_eq_none] at hc hd
    rw [hc, hd]
    exact ⟨rfl, rfl⟩
  | true =>
    simp only [BitVec.toNat_ofNat, if_true]
    omega

theorem encodedForm (s : State) : ∃ b0 b1 cid, EncodedForm s b0 b1 cid := by
  have hsc := ctxFind_getD_lt s.ctx s.hm.src.pfx
  have hdc := ctxFind_getD_lt s.ctx s.hm.dst.pfx
  obtain ⟨hlim, hhlim, hhlimForm⟩ := stepHlim_form s.hm.hlim
  obtain ⟨sac, sam, hsrc, hreadSrc⟩ := stepSrc_readsBack (s := s) (a := s.hm.src) rfl
  obtain ⟨mc, dac, dam, hdst, hreadDst⟩ := stepDst_readsBack (s := s) (a := s.hm.dst) rfl
  obtain ⟨-, htcBit, hflBit, hnhBit, -⟩ := iphcByte0_bits (decide (s.hm.tc = 0))
    (decide (s.hm.fl = 0)) (decide (s.hm.pkind = .udp)) hlim rfl
  obtain ⟨hclass, hhlimMask⟩ := iphcByte0_masks (decide (s.hm.tc = 0))
    (decide (s.hm.fl = 0)) (decide (s.hm.pkind = .udp)) hlim rfl
  obtain ⟨hcidBit, hsac, hsam, hmc, hdac, hdam⟩ := iphcByte1_bits
    ((ctxFind s.ctx s.hm.src.pfx).isSome || (ctxFind s.ctx s.hm.dst.pfx).isSome)
    sac sam mc dac dam rfl
  obtain ⟨hsrcIndex, hdstIndex⟩ := cidIndices hsc hdc hcidBit rfl
  exact ⟨_, _, _, {
    header := compressHeader_eq hsc hdc rfl rfl hhlim hsrc hdst
    iphc := hclass
    tc := htcBit
    fl := hflBit
    nh := hnhBit
    hlim := hhlimMask.trans hhlimForm
    srcIndex := hsrcIndex
    dstIndex := hdstIndex
    src := fun i base p hi hbytes =>
      hreadSrc _ i base p hsac hsam hi (by rwa [hsac, hsam] at hbytes)
    dst := fun i base p hi hbytes =>
      hreadDst _ i base p hmc hdac hdam hi (by rwa [hmc, hdac, hdam] at hbytes) }⟩

/-- The fields before the addresses are those of the model that was sent (R191, R192, R194). -/
theorem fixedFields_of_headerBytes {cid : Byte} (hm : accepted s.hm) (hf : EncodedForm s b0 b1 cid)
    (h : HeaderBytes s base b0 b1 cid s.hm) :
    fixedFields s base =
      { HM.reset with tc := s.hm.tc, fl := s.hm.fl, nh := s.hm.nh, hlim := s.hm.hlim } := by
  obtain ⟨htc, hfl⟩ := decTf_trafficInline hf.tc hf.fl h.traffic
  have hnh : (decNh s b0 (nhAt s base)).1 = s.hm.nh := by
    obtain ⟨-, hudp, -⟩ := hm
    rw [decNh_eq]
    cases hbit : b0.getLsbD 2 with
    | true => exact (hudp (of_decide_eq_true (hf.nh.symm.trans hbit))).symm
    | false => exact h.nh hbit
  rw [fixedFields, h.byte0, htc, hfl, hnh, decHlim_hlim hf.hlim h.hlim]

/-- The model that DECODE answers for a model that was sent: a payload that is not UDP reads back as
none (R213). -/
def readBack (m : HM) : HM :=
  if m.pkind = .udp then withShell m m.sport m.dport (some m.csum) else noShell m

theorem readBack_fields (m : HM) :
    (readBack m).tc = m.tc ∧ (readBack m).fl = m.fl ∧ (readBack m).nh = m.nh ∧
      (readBack m).hlim = m.hlim ∧ (readBack m).src = m.src ∧ (readBack m).dst = m.dst := by
  unfold readBack
  split <;> exact ⟨rfl, rfl, rfl, rfl, rfl, rfl⟩

theorem readBack_udp {m : HM} (h : m.pkind = .udp) :
    (readBack m).pkind = .udp ∧ (readBack m).sport = m.sport ∧ (readBack m).dport = m.dport ∧
      (readBack m).csum = m.csum ∧ (readBack m).csumInline = true := by
  rw [readBack, if_pos h]
  exact ⟨rfl, rfl, rfl, rfl, rfl⟩

theorem readBack_notUdp {m : HM} (h : m.pkind ≠ .udp) : (readBack m).pkind = .none := by
  rw [readBack, if_neg h]
  rfl

/-- A header that is read without an advisory for its NHC byte. -/
theorem HeaderRead.eq_of_not_missing {m : HM} {d : Decoded} (h : HeaderRead s base m d)
    (hmissing : nhcMissing s base = false) :
    d = ⟨d.hm, headerLen s base, if hasShell s base then 48 else 40, false,
      past s base (headerLen s base)⟩ := by
  have hread : bytesRead s base = headerLen s base := by rw [bytesRead, hmissing]; rfl
  rw [← hmissing, ← h.uhs, ← h.unsup, ← hread, ← h.trunc, hread, ← h.chs]

/-- The IPv6 header of an encoded model is read back, whatever follows it (R213). -/
theorem headerRead_of_headerBytes {cid : Byte} (hm : accepted s.hm) (hf : EncodedForm s b0 b1 cid)
    (hb : HeaderBytes s base b0 b1 cid s.hm) :
    ∃ d, decodeAt s base = .ok d ∧ HeaderRead s base (noShell s.hm) d := by
  obtain ⟨hsrcIndex, hdstIndex⟩ := hb.indices
  have hsrcSel := (srcSel_toNat s base).trans (hsrcIndex.trans hf.srcIndex)
  have hdstSel := (dstSel_toNat s base).trans (hdstIndex.trans hf.dstIndex)
  obtain ⟨d, hd, hread⟩ := decodeAt_of_addrs (base := base) (by rw [hb.byte0]; exact hf.iphc)
    (by rw [hb.byte1]; exact hf.src _ _ _ hsrcSel hb.src)
    (by rw [hb.byte1]; exact hf.dst _ _ _ hdstSel hb.dst)
  rw [fixedFields_of_headerBytes hm hf hb] at hread
  exact ⟨d, hd, hread⟩

/-- A header that the encoder wrote is read back (R213). -/
theorem decodeAt_encodedHeader (hm : accepted s.hm) (h : holdsAt s base (encodedHeader s)) :
    decodeAt s base = .ok ⟨readBack s.hm, (encodedHeader s).length,
      if s.hm.pkind = .udp then 48 else 40, false, past s base (encodedHeader s).length⟩ := by
  obtain ⟨b0, b1, cid, hf⟩ := encodedForm s
  obtain ⟨hbytes, hnhc⟩ := holdsAt_append.1 (hf.header ▸ h)
  have hb := headerBytes_of_holdsAt hf.tc hf.fl hbytes
  have hlen : (iphcBytes b0 b1 cid s.hm).length = iphcLen b0 b1 := iphcBytes_length cid hf.tc hf.fl
  have hat : nhcAt s base = base + iphcLen b0 b1 := by rw [nhcAt, hb.byte0, hb.byte1]
  obtain ⟨d, hd, hread⟩ := headerRead_of_headerBytes hm hf hb
  have hshell := hasShell_eq s base
  have hheaderLen := headerLen_eq s base
  rw [hb.byte0, hf.nh] at hshell
  rw [hat] at hheaderLen
  rw [hf.header, hf.nh, List.length_append, hlen]
  rw [hf.nh, hlen, ← hat] at hnhc
  by_cases hk : s.hm.pkind = .udp
  · simp only [hk, decide_true, if_true, readBack] at hnhc ⊢
    have hu := decNhc_udpHeaderBytes hnhc
    obtain ⟨hsupported, hn⟩ := nhcSupported_of_decNhc s _ hu
    rw [decide_eq_true hk, hsupported] at hshell
    rw [hshell, Bool.true_and, if_pos rfl, ← hat, ← hn, hat, Nat.add_assoc,
      Nat.add_sub_cancel_left] at hheaderLen
    have hmissing : nhcMissing s base = false := by rw [nhcMissing, hshell]; exact Bool.and_false _
    obtain ⟨u, hu', hhm⟩ := hread.shell hshell
    cases hu.symm.trans hu'
    rw [hd, hread.eq_of_not_missing hmissing, hheaderLen, hshell, hhm]
    rfl
  · simp only [hk, decide_false, Bool.false_eq_true, if_false, readBack]
    rw [decide_eq_false hk] at hshell
    rw [hshell, Bool.false_and, if_neg Bool.false_ne_true, Nat.add_zero, Nat.add_sub_cancel_left]
      at hheaderLen
    have hmissing : nhcMissing s base = false := by
      rw [nhcMissing, hb.byte0, hf.nh, decide_eq_false hk]
      rfl
    rw [hd, hread.eq_of_not_missing hmissing, hheaderLen, hshell, hread.noShell hshell]
    rfl

/-- ENCODE and then SETBYTES of OB put the header and the payload into FB, and keep what a decode of
the header looks at. -/
theorem encode_setbytes (hm : accepted s.hm)
    (hfits : (encodedHeader s).length + s.pb.len ≤ 2048) :
    ∃ t u, exec .encode s = .next t ∧ exec (.setbytes (bufBytes t.ob)) t = .next u ∧
      u.fb = bufOf (encodedHeader s ++ bufBytes s.pb) ∧ u.cur = 0 ∧ u.hm = s.hm ∧
      encodedHeader u = encodedHeader s := by
  have hencode := exec_encode_fits hm (Nat.le_trans hfits (by decide))
  obtain ⟨t, ht, hob, hcongr⟩ : ∃ t, exec .encode s = .next t ∧
      bufBytes t.ob = encodedHeader s ++ bufBytes s.pb ∧
      t.hm = s.hm ∧ encodedHeader t = encodedHeader s := ⟨_, hencode, bufBytes_bufOf _, rfl, rfl⟩
  have hlen : (bufBytes t.ob).length ≤ 2048 := by
    rwa [hob, List.length_append, bufBytes_length]
  refine ⟨t, _, ht, exec_setbytes_fits hlen, ?_, rfl, hcongr⟩
  rw [hob]
  rfl

end ReadBack

end Sys2Proof.Machine

namespace Sys2Proof.Proofs

open Sys2Proof Sys2Proof.Machine

/-- Settles O24: CLASSIFY is the class of the byte at offset 0, with the truncation of its read. -/
theorem classifyNamesTheDispatchByte : Obligations.ClassifyNamesTheDispatchByte := by
  rintro s d rfl
  have hends := endClassify_ends (s := s) (dispatchClass (rdByte s 0)) (past s 0 1)
  have hpast : past s 0 1 = decide (s.fb.len ≤ s.cur.toNat) := by
    simp only [past_eq, Nat.lt_add_one_iff, Nat.add_zero, Nat.zero_le, true_and]
  rw [ofNat_dispatchClass, hpast] at hends
  refine ⟨_, rfl, ?_⟩
  rw [hpast]
  exact hends

/-- Settles O22: the frame that SETBYTES takes holds the header, which is read back, and then the
payload. -/
theorem decodeRestoresWhatEncodeSent : Obligations.DecodeRestoresWhatEncodeSent := by
  intro s hm hfits
  obtain ⟨t, u, ht, hu, hfb, hcur, hhm, hheader⟩ := encode_setbytes hm hfits
  have hlen : u.fb.len = (encodedHeader s).length + s.pb.len := by
    rw [hfb, bufOf_len, List.length_append, bufBytes_length]
  have hzero : u.cur.toNat = 0 := by rw [hcur]; rfl
  have hdecode := decodeAt_encodedHeader (s := u) (hhm ▸ hm) (hheader ▸ holdsAt_bufOf hfb hcur)
  have hpast : past u 0 (encodedHeader s).length = false := by
    rw [past_eq, hlen, hzero]
    exact decide_eq_false (by omega)
  rw [hheader, hpast, hhm] at hdecode
  have hwithin : u.cur.toNat + (encodedHeader s).length ≤ 0xFFFF := by omega
  obtain ⟨v, hv, hanswer, hvhm, hvcur, -⟩ := exec_decode_commits hdecode hwithin
  have hvfb : v.fb = u.fb := everyInstructionKeepsTheRest _ _ _ hv .fb (by decide)
  replace hvcur : v.cur.toNat = (encodedHeader s).length := by rw [hvcur, hzero, Nat.zero_add]
  rw [apply_ite (BitVec.ofNat 32)] at hanswer
  obtain ⟨htc, hfl, hnh, hhlim, hsrc, hdst⟩ := readBack_fields s.hm
  have hpayload : bufRange u.fb (encodedHeader s).length s.pb.len = bufBytes s.pb := by
    rw [hfb, bufRange_bufOf _ _ _ (by rw [List.length_append, bufBytes_length]), List.drop_left,
      List.take_of_length_le (Nat.le_of_eq (bufBytes_length _))]
  refine ⟨t, u, v, ht, hu, hv, hanswer, ?_⟩
  rw [hvhm, hvcur, hvfb, hlen, Nat.add_sub_cancel_left]
  exact ⟨htc, hfl, hnh, hhlim, hsrc, hdst, readBack_udp, readBack_notUdp, rfl, hpayload, rfl⟩

/-- Settles O25: what a header that is not refused is read as is what DECODE commits. -/
theorem decodeCommitsOrRefuses : Obligations.DecodeCommitsOrRefuses := by
  intro s
  refine ⟨fun st pos h => ⟨_, exec_decode_refused (decodeAt_refuses h), refuses_hardError ..⟩,
    fun h hcur => ?_, fun h hcur trunc htrunc => ?_⟩
  all_goals
    obtain ⟨src, dst, d, hd, hread⟩ := decodeAt_reads h
    rw [← hread.chs] at hcur
  · exact ⟨_, exec_decode_read hd, commitDecode_refuses hcur⟩
  · obtain ⟨t, ht, hanswer, hhm, hcur, hflags, -⟩ := exec_decode_commits hd hcur
    obtain rfl : d.trunc = trunc := hread.trunc.trans ((past_bytesRead s 0).trans htrunc.symm)
    rw [hread.unsup, hread.uhs, apply_ite (BitVec.ofNat 32), hread.chs] at hanswer
    rw [hread.unsup] at hflags
    rw [hread.chs] at hcur
    refine ⟨t, ht, hanswer, hflags, hcur, by rw [hhm, hread.pkind], fun hs => ?_,
      everyInstructionKeepsTheRest _ _ _ ht⟩
    rw [hhm, hread.noShell hs]
    exact ⟨rfl, rfl, rfl, rfl⟩

/-- Settles O26: each field is read at the place that the lengths of the fields before it give. -/
theorem decodeRestoresTheFixedFields : Obligations.DecodeRestoresTheFixedFields := by
  rintro s b0 p q r h hcur rfl hp rfl rfl
  obtain rfl : p = tfAt s 0 := hp.trans (by rw [tfAt]; split_ifs <;> rfl)
  obtain ⟨src, dst, d, hd, hread⟩ := decodeAt_reads h
  rw [← hread.chs] at hcur
  obtain ⟨t, ht, -, hhm, -⟩ := exec_decode_commits hd hcur
  obtain ⟨htc, hfl, hnh, hhlim⟩ := hread.fields
  rw [← hhm] at htc hfl hnh hhlim
  exact ⟨t, ht, hnh.trans (congrArg Prod.fst (decNh_eq ..)),
    hhlim.trans (congrArg Prod.fst (decHlim_eq ..)), htc.trans (decTf_tc ..),
    (congrArg BitVec.toNat hfl).trans (decTf_fl ..)⟩

end Sys2Proof.Proofs

/-! # Fragment reassembly (45_fragment_reassembly.md)

What SWEEP, FRAG_STAT and REASM answer. A frame that is a whole fragment is said to carry a piece
(`carries`); REASM then is the storing of that piece, and each of its outcomes is an outcome of
`storeFragment`. The statements follow at the end. -/

namespace Sys2Proof.Machine

/-! ## The sweep (R240, R241) -/

section Sweep

variable {now : BitVec 32} {s : State} {j : Nat}

theorem toList_frag (s : State) : s.frag.toList = (List.range 4).map (slotAt s) := by
  refine List.ext_getElem (by simp [Config.fragSlots]) fun i hi _ => ?_
  rw [List.getElem_map, List.getElem_range, slotAt_eq s i (by simpa [Config.fragSlots] using hi)]

/-- The slots that a sweep evicts. -/
def evicted (now : BitVec 32) (s : State) : List Nat :=
  (List.range 4).filter (fun j => expired now (slotAt s j))

theorem length_evicted (now : BitVec 32) (s : State) :
    (evicted now s).length = expiredCount now s := by
  rw [expiredCount, slotsUsed_params, toList_frag, List.countP_map, List.countP_eq_length_filter]
  rfl

/-- A slot beyond the last is absent, so the evicted slots are the expired ones. -/
theorem mem_evicted : j ∈ evicted now s ↔ expired now (slotAt s j) = true := by
  rw [evicted, List.mem_filter, List.mem_range]
  refine and_iff_right_of_imp fun h => Nat.lt_of_not_le fun hj => ?_
  rw [slotAt_beyond s j hj] at h
  cases h

theorem slotAt_sweep_expired (h : expired now (slotAt s j) = true) :
    slotAt (sweepState now s) j = { slotAt s j with valid := false } := by
  rw [slotAt_sweep, h, Bool.not_true, Bool.and_false]

theorem slotAt_sweep_kept (h : expired now (slotAt s j) = false) :
    slotAt (sweepState now s) j = slotAt s j := by
  rw [slotAt_sweep, h, Bool.not_false, Bool.and_true]

/-- A slot that is valid after a sweep was valid before it. -/
theorem valid_of_sweep (h : (slotAt (sweepState now s) j).valid = true) :
    (slotAt s j).valid = true := by
  rw [slotAt_sweep] at h
  exact (Bool.and_eq_true_iff.1 h).1

theorem exec_sweep (now : BitVec 32) (s : State) :
    exec (.sweep now) s =
      .next (done (BitVec.ofNat 32 (expiredCount now s)) 0 [] (sweepState now s)) := by
  simp only [exec, execSweep, sweepAnswer, timeOf_params]

end Sweep

/-! ## FRAG_STAT (R243) -/

section FragStat

theorem toNat_append_word {w : Nat} (x : BitVec w) (y : BitVec 16) :
    (x ++ y).toNat = x.toNat * 65536 + y.toNat := by
  rw [BitVec.toNat_append, Nat.shiftLeft_eq, Nat.mul_comm, Nat.two_pow_add_eq_or_of_lt y.isLt]

variable {j : BitVec 32} {s : State}

theorem exec_fragStat_valid (hj : j.toNat < 4) {f : FragSlot} (hf : slotAt s j.toNat = f)
    (hv : f.valid = true) :
    exec (.fragStat j) s =
      .next (done (f.tag ++ f.adj ++ (1 : BitVec 8)) (f.recvd ++ f.total.zeroExtend 16)
        (octBytes f.key ++ be32Bytes (f.created.zeroExtend 32) ++
          be16Bytes (BitVec.ofNat 16 f.ranges.length)) s) := by
  subst hf
  exact congrArg _ ((if_pos hj).trans (if_pos hv))

theorem exec_fragStat_absent (hj : j.toNat < 4) (hv : (slotAt s j.toNat).valid = false) :
    exec (.fragStat j) s = .next (done 0 0 (List.replicate 14 0) s) :=
  congrArg _ ((if_pos hj).trans (if_neg (Bool.eq_false_iff.1 hv)))

theorem exec_fragStat_beyond (hj : ¬ j.toNat < 4) :
    exec (.fragStat j) s = .next (hardError badIndex s) := congrArg _ (if_neg hj)

end FragStat

/-! ## REASM after its sweep (R220, R238) -/

section Swept

variable {now : BitVec 32} {s : State}

theorem exec_reasm (now : BitVec 32) (s : State) :
    exec (.reasm now) s = .next (reasmSwept now (sweepState now s)) := by
  simp only [exec, execReasm, reasmState, timeOf_params]

theorem rdByte_of_empty (h : payloadLen s < 1) : rdByte s 0 = 0 :=
  byteAt_beyond s _ (by rw [payloadLen] at h; omega)

/-- The class of the first byte decides alone: where there is none, it reads 0, which no fragment
starts with. -/
theorem reasmSwept_eq (now : BitVec 32) (s : State) :
    reasmSwept now s =
      if rdByte s 0 &&& 0xF8 = 0xC0 then reasmFirst now s
      else if rdByte s 0 &&& 0xF8 = 0xE0 then reasmNext now s
      else passFrame s := by
  unfold reasmSwept
  by_cases h : payloadLen s < 1
  · rw [if_pos h, rdByte_of_empty h]
    rfl
  · rw [if_neg h]

theorem reasmSwept_first (h : rdByte s 0 &&& 0xF8 = 0xC0) :
    reasmSwept now s = reasmFirst now s := by
  rw [reasmSwept_eq, if_pos h]

theorem reasmSwept_next (h : rdByte s 0 &&& 0xF8 = 0xE0) :
    reasmSwept now s = reasmNext now s := by
  rw [reasmSwept_eq, h, if_neg (by decide), if_pos rfl]

theorem reasmSwept_other (h3 : rdByte s 0 &&& 0xF8 ≠ 0xC0) (h4 : rdByte s 0 &&& 0xF8 ≠ 0xE0) :
    reasmSwept now s = passFrame s := by
  rw [reasmSwept_eq, if_neg h3, if_neg h4]

theorem reasmFirst_refused {r : Raise} (h : fragHeaderCheck 4 s = some r) :
    reasmFirst now s = hardError r s := by
  simp only [reasmFirst, h]

theorem reasmNext_refused {r : Raise} (h : fragHeaderCheck 5 s = some r) :
    reasmNext now s = hardError r s := by
  simp only [reasmNext, h]

theorem reasmFirst_probe_refused {r : Raise} (h : fragHeaderCheck 4 s = none)
    (hd : decodeAt s 4 = .error r) : reasmFirst now s = hardError r s := by
  simp only [reasmFirst, h, hd]

theorem reasmFirst_probed {d : Decoded} (h : fragHeaderCheck 4 s = none)
    (hd : decodeAt s 4 = .ok d) :
    reasmFirst now s = storeFirst now (fragSize s) (rd16 s 2) d s := by
  simp only [reasmFirst, h, hd]

theorem reasmNext_whole (h : fragHeaderCheck 5 s = none) :
    reasmNext now s = storeNext now (fragSize s) (rd16 s 2) (rdByte s 4) s := by
  simp only [reasmNext, h]

/-- A hard error that REASM ends in after its sweep (R290). -/
theorem reasm_refuses {w : State} {st : Status} {pos : Nat} (hw : w = sweepState now s)
    (h : reasmSwept now w = hardError ⟨st, pos⟩ w) :
    ∃ t, exec (.reasm now) s = .next t ∧ refuses st pos w t := by
  subst hw
  exact ⟨_, exec_reasm now s, h ▸ refuses_hardError ..⟩

end Swept

/-! ## The probe of a first fragment (R226, R227) -/

section Probe

variable {now : BitVec 32} {size : BitVec 11} {tag : BitVec 16} {d : Decoded} {s : State}

theorem storeFirst_truncated (h : d.trunc = true) :
    storeFirst now size tag d s = hardError ⟨.fragHeaderUndecodable, 4⟩ s := if_pos h

theorem storeFirst_expanding (ht : d.trunc = false) (h : d.uhs < d.chs) :
    storeFirst now size tag d s = hardError ⟨.fragInconsistent, 4⟩ s :=
  (if_neg (Bool.eq_false_iff.1 ht)).trans (if_pos h)

theorem storeFirst_probed (ht : d.trunc = false) (h : d.chs ≤ d.uhs) :
    storeFirst now size tag d s =
      storeFragment now size tag ⟨true, 0, restOfFrame s 4, d.uhs - d.chs⟩ s :=
  (if_neg (Bool.eq_false_iff.1 ht)).trans (if_neg (Nat.not_lt.2 h))

/-- The frame is a whole fragment, whose piece is `x`: a continuation, or a first fragment whose
header the probe reads (R220, R226, R235). -/
def carries (s : State) (x : Piece) : Prop :=
  (rdByte s 0 &&& 0xF8 = 0xE0 ∧ 5 ≤ payloadLen s ∧
      x = ⟨false, (rdByte s 4).toNat * 8, restOfFrame s 5, 0⟩) ∨
    (rdByte s 0 &&& 0xF8 = 0xC0 ∧ 4 ≤ payloadLen s ∧
      ∃ d, decodeAt s 4 = .ok d ∧ d.trunc = false ∧ d.chs ≤ d.uhs ∧
        x = ⟨true, 0, restOfFrame s 4, d.uhs - d.chs⟩)

variable {x : Piece}

/-- REASM stores the piece that its frame carries (R220). -/
theorem reasmSwept_of_carries (hl : s.linkSrc.valid = true) (hx : carries s x) :
    reasmSwept now s =
      storeFragment now ((rd16 s 0).extractLsb' 0 11) (rd16 s 2) x s := by
  rcases hx with ⟨h, hlen, rfl⟩ | ⟨h, hlen, d, hd, ht, hle, rfl⟩
  · rw [reasmSwept_next h, reasmNext_whole (fragHeaderCheck_whole hlen hl)]
    rfl
  · rw [reasmSwept_first h, reasmFirst_probed (fragHeaderCheck_whole hlen hl) hd,
      storeFirst_probed ht hle]
    rfl

variable {j n : Nat} {c : FragSlot}

/-- The piece goes into the context that is its target (R222, R223, R228). -/
theorem reasmSwept_into (hl : s.linkSrc.valid = true) (hx : carries s x)
    (htarget : target s now ((rd16 s 0).extractLsb' 0 11) (rd16 s 2) = some (j, c, n)) :
    reasmSwept now s = storeInto j c n x s := by
  rw [reasmSwept_of_carries hl hx, storeFragment_of_target htarget]

end Probe

/-! ## What a context answers to a piece (R230 to R237, R239) -/

section Pieces

variable {s : State} {x : Piece} {j n : Nat} {c : FragSlot}

theorem pieceCheck_outside
    (h : x.place c < 0 ∨ (c.total.toNat : Int) < x.place c + (x.payload.length : Int)) :
    pieceCheck x c = some ⟨.fragOverflow, 0⟩ :=
  if_pos (h.imp_right Or.inl)

/-- A piece inside the declared size is inside the buffer, which holds every size (R231). -/
theorem pieceCheck_inside (h0 : 0 ≤ x.place c)
    (h1 : x.place c + (x.payload.length : Int) ≤ (c.total.toNat : Int)) :
    pieceCheck x c =
      if c.total.toNat < c.recvd.toNat + x.added then some ⟨.fragInconsistent, 0⟩
      else if c.ranges.length = 256 then some ⟨.fragRangeFull, 0⟩
      else none := by
  have hcap : c.total.toNat ≤ 2047 := total_le_fragBufCap c
  refine if_neg ?_
  rw [params_fragBufCap]
  omega

theorem storeInto_duplicate (h : x.range ∈ c.ranges) :
    storeInto j c n x s = finish noAdv .duplicate (BitVec.ofNat 32 j) 0 [] s := if_pos h

theorem storeInto_refused {r : Raise} (hx : x.range ∉ c.ranges) (h : pieceCheck x c = some r) :
    storeInto j c n x s = hardError r s := by
  simp only [storeInto, if_neg hx, h]

theorem storeInto_waits (hx : fits x c) (hopen : completes x (storePiece x c) = false) :
    storeInto j c n x s = finish noAdv .incomplete (BitVec.ofNat 32 j) 0 []
      { s with frag := setSlot j (storePiece x c) s, draws := n } := by
  simp only [storeInto, if_neg hx.1, pieceCheck_of_fits hx, hopen, Bool.false_eq_true, if_false]

/-- A first fragment never completes its datagram (R237). -/
theorem storeInto_first (hx : fits x c) (hfirst : x.first = true) :
    storeInto j c n x s = finish noAdv .incomplete (BitVec.ofNat 32 j) 0 []
      { s with frag := setSlot j (storePiece x c) s, draws := n } :=
  storeInto_waits hx (by rw [completes, hfirst]; rfl)

end Pieces

/-! ## The run of the rows (R220, R226, R61) -/

section Rows

variable {now : BitVec 32} {s : State}

theorem fragmentStart_eq (d : Byte) (s : State) :
    fragmentStart (dispatchClass d) s =
      if d &&& 0xF8 = 0xC0 then walkOn .frag1Hdr 0 id s
      else if d &&& 0xF8 = 0xE0 then walkOn .fragnHdr 0 id s
      else passFrame s := by
  have h3 : dispatchClass d = 3 ↔ d &&& 0xF8 = 0xC0 := by revert d; decide
  have h4 : dispatchClass d = 4 ↔ d &&& 0xF8 = 0xE0 := by revert d; decide
  simp only [fragmentStart, h3, h4]

/-- The temporaries of a REASM whose dispatch byte has been read: a fragment header is next. -/
def fragWalk (now : BitVec 32) (s : State) (slot : Slot) : Walk :=
  { (startWalk .reasm now s).walk.read s 1 with slot := some slot }

/-- The first byte of the frame: a fragment header follows, or the frame passes. -/
theorem step_startWalk_reasm (now : BitVec 32) (s : State) :
    step (startWalk .reasm now s) = .next (
      if rdByte s 0 &&& 0xF8 = 0xC0 then s.reading (fragWalk now s .frag1Hdr)
      else if rdByte s 0 &&& 0xF8 = 0xE0 then s.reading (fragWalk now s .fragnHdr)
      else passFrame s) := by
  have hstep : step (startWalk .reasm now s) =
      .next (fragmentStart (dispatchClass (rdByte s 0))
        (s.reading ((startWalk .reasm now s).walk.read s 1))) := step_dispatch rfl
  rw [hstep, fragmentStart_eq]
  rfl

/-- The temporaries of a REASM whose first fragment's header has been read: the probe starts behind
it. -/
def probeWalk (now : BitVec 32) (s : State) : Walk :=
  { (fragWalk now s .frag1Hdr).read s 4 with
    slot := some .dispatch, base := 4, pos := 4, size := fragSize s, tag := rd16 s 2 }

/-- The end of the probe is the end of REASM (R226). -/
theorem headerOutcome_probe (h : fragHeaderCheck 4 s = none) :
    headerOutcome s (probeWalk now s) (decodeAt s 4) = reasmFirst now s := by
  cases hd : decodeAt s 4 with
  | error r => exact (reasmFirst_probe_refused h hd).symm
  | ok d => exact (storeFirst_walk ..).trans (reasmFirst_probed h hd).symm

/-- No byte of a whole fragment header lies beyond the data. -/
theorem past_fragHeader (h : fragHeaderCheck 4 s = none) {n : Nat} (hn : n ≤ 4) :
    past s 0 n = false := by
  have hlen : 4 ≤ payloadLen s :=
    Int.not_lt.1 fun hlt => nomatch (fragHeaderCheck_cut hlt).symm.trans h
  rw [payloadLen] at hlen
  rw [past_eq]
  exact decide_eq_false (by omega)

/-- The first fragment's header: refused, or the probe reads on behind it. -/
theorem within_frag1Hdr (now : BitVec 32) (s : State) :
    Within 10 (s.reading (fragWalk now s .frag1Hdr)) (.next (reasmFirst now s)) := by
  have hstep : step (s.reading (fragWalk now s .frag1Hdr)) =
      exec (.frag1Hdr (fragSize s) (rd16 s 2))
        (s.reading ((fragWalk now s .frag1Hdr).read s 4)) := step_wire rfl rfl
  have hcheck (w : Walk) : fragHeaderCheck 4 (s.reading w) = fragHeaderCheck 4 s := rfl
  simp only [exec, execFrag1Hdr, hcheck] at hstep
  cases h : fragHeaderCheck 4 s with
  | some r =>
    rw [h] at hstep
    rw [reasmFirst_refused h]
    exact .last hstep
  | none =>
    rw [h] at hstep
    have htrunc : (false || past s 0 1 || past s 0 4) = false := by
      rw [past_fragHeader h (by decide), past_fragHeader h (by decide)]
      rfl
    have hprobe : Within 9 (s.reading (probeWalk now s))
        (.next (headerOutcome s (probeWalk now s) (decodeAt s 4))) :=
      within_header rfl (.inr ⟨rfl, Nat.succ_ne_zero 3⟩) rfl rfl htrunc
    rw [headerOutcome_probe h] at hprobe
    exact .step hstep hprobe

/-- A continuation's header: refused, or the fragment is stored. -/
theorem step_fragnHdr (now : BitVec 32) (s : State) :
    step (s.reading (fragWalk now s .fragnHdr)) = .next (reasmNext now s) := by
  have hstep : step (s.reading (fragWalk now s .fragnHdr)) =
      exec (.fragnHdr (fragSize s) (rd16 s 2) (rdByte s 4))
        (s.reading ((fragWalk now s .fragnHdr).read s 5)) := step_wire rfl rfl
  have hcheck (w : Walk) : fragHeaderCheck 5 (s.reading w) = fragHeaderCheck 5 s := rfl
  simp only [exec, execFragnHdr, hcheck] at hstep
  rw [hstep]
  cases h : fragHeaderCheck 5 s with
  | some r => rw [reasmNext_refused h]; rfl
  | none =>
    rw [reasmNext_whole h]
    exact congrArg _ (storeFragment_walk ..)

/-- The rows from the dispatch byte on end as REASM does. -/
theorem within_reasm (now : BitVec 32) (s : State) :
    Within 11 (startWalk .reasm now s) (.next (reasmSwept now s)) := by
  have hstep := step_startWalk_reasm now s
  rw [reasmSwept_eq]
  by_cases h3 : rdByte s 0 &&& 0xF8 = 0xC0
  · rw [if_pos h3] at hstep ⊢
    exact .step hstep (within_frag1Hdr now s)
  · rw [if_neg h3] at hstep ⊢
    by_cases h4 : rdByte s 0 &&& 0xF8 = 0xE0
    · rw [if_pos h4] at hstep ⊢
      exact .step hstep ((Within.last (n := 0) (step_fragnHdr now s)).mono (by decide))
    · rw [if_neg h4] at hstep ⊢
      exact .last hstep

end Rows

/-! ## A frame cut in two (R234 to R237, R245) -/

section Cut

variable {s : State} {v tag : BitVec 16} {l : List Byte}

/-- The word of a fragment header whose dispatch byte is `b` (R60, R90, R91): its class, and the
size in its low bits. -/
theorem fragWord_fields {b : Byte} (hb : b = 0xC0 ∨ b = 0xE0) {size : Nat} (hsize : size ≤ 2047)
    (hv : v = be16 b 0 + BitVec.ofNat 16 size) :
    v.extractLsb' 8 8 &&& 0xF8 = b ∧ v.extractLsb' 0 11 = BitVec.ofNat 11 size := by
  have hclass : ∀ q < 8, (b + BitVec.ofNat 8 q) &&& 0xF8 = b := by
    rcases hb with rfl | rfl <;> decide
  have hbits : b.toNat ≤ 0xE0 ∧ b.toNat % 8 = 0 := by
    rcases hb with rfl | rfl <;> decide
  have hval : v.toNat = b.toNat * 256 + size := by
    have hbe : (be16 b 0).toNat = b.toNat * 256 + 0 := be16_toNat b 0
    rw [hv, BitVec.toNat_add, hbe, BitVec.toNat_ofNat]
    omega
  have hhigh : v.extractLsb' 8 8 = b + BitVec.ofNat 8 (size / 256) := by
    apply BitVec.eq_of_toNat_eq
    rw [BitVec.extractLsb'_toNat, BitVec.toNat_add, BitVec.toNat_ofNat, hval,
      Nat.shiftRight_eq_div_pow]
    omega
  refine ⟨?_, ?_⟩
  · rw [hhigh]
    exact hclass (size / 256) (by omega)
  · apply BitVec.eq_of_toNat_eq
    rw [BitVec.extractLsb'_toNat, BitVec.toNat_ofNat, hval, Nat.shiftRight_zero]
    omega

/-- The bytes of a fragment: the word with its class and size, its tag, and what follows (R90,
R91). -/
def fragBytes (v tag : BitVec 16) (l : List Byte) : List Byte := be16Bytes v ++ be16Bytes tag ++ l

theorem length_fragBytes : (fragBytes v tag l).length = 4 + l.length := by
  simp only [fragBytes, List.length_append, be16Bytes_length]

/-- FB holds these bytes, with the cursor at 0 (R111). -/
structure Loaded (s : State) (l : List Byte) : Prop where
  fb : s.fb = bufOf l
  cur : s.cur = 0

theorem Loaded.payloadLen (h : Loaded s l) : payloadLen s = l.length := by
  rw [Machine.payloadLen, h.fb, h.cur, bufOf_len]
  exact Int.sub_zero _

theorem Loaded.restOfFrame (h : Loaded s l) {n : Nat} (hn : n ≤ l.length) :
    restOfFrame s n = l.drop n := by
  have hzero : s.cur.toNat + n = n := by rw [h.cur]; exact Nat.zero_add n
  rw [Machine.restOfFrame, h.fb, hzero, bufOf_len, bufRange_bufOf _ _ _ (by omega)]
  exact List.take_of_length_le (Nat.le_of_eq List.length_drop)

/-- What is read of a loaded fragment's header. -/
theorem Loaded.header (h : Loaded s (fragBytes v tag l)) :
    rd16 s 0 = v ∧ rd16 s 2 = tag ∧ rdByte s 0 = v.extractLsb' 8 8 := by
  have hword : holdsAt s 0 (be16Bytes v) :=
    (holdsAt_append.1 (holdsAt_bufOf h.fb h.cur)).1
  have htag : holdsAt s 2 (be16Bytes tag) :=
    (holdsAt_append.1 (holdsAt_bufOf h.fb h.cur)).2
  exact ⟨rd16_of_holdsAt hword, rd16_of_holdsAt htag, (holdsAt_cons.1 hword).1⟩

theorem Loaded.target (h : Loaded s (fragBytes v tag l)) {now : BitVec 32} {size : BitVec 11}
    {r : Option (Nat × FragSlot × Nat)} (hsize : v.extractLsb' 0 11 = size)
    (ht : target s now size tag = r) :
    Machine.target s now ((rd16 s 0).extractLsb' 0 11) (rd16 s 2) = r := by
  obtain ⟨hv, htag, -⟩ := h.header
  rw [hv, htag, hsize, ht]

/-- A loaded first fragment carries the bytes behind its header (R90, R226). -/
theorem Loaded.carries_first (h : Loaded s (fragBytes v tag l))
    (hv : v.extractLsb' 8 8 &&& 0xF8 = 0xC0) {d : Decoded} (hd : decodeAt s 4 = .ok d)
    (ht : d.trunc = false) (hle : d.chs ≤ d.uhs) : carries s ⟨true, 0, l, d.uhs - d.chs⟩ := by
  obtain ⟨-, -, hbyte⟩ := h.header
  have hlen := h.payloadLen
  have hrest := h.restOfFrame (n := 4) (by rw [length_fragBytes]; omega)
  rw [length_fragBytes] at hlen
  exact .inr ⟨hbyte ▸ hv, by omega, d, hd, ht, hle, by rw [hrest]; rfl⟩

/-- A loaded continuation carries the bytes behind its offset (R91, R92, R235). -/
theorem Loaded.carries_next {off : Byte} (h : Loaded s (fragBytes v tag (off :: l)))
    (hv : v.extractLsb' 8 8 &&& 0xF8 = 0xE0) : carries s ⟨false, off.toNat * 8, l, 0⟩ := by
  obtain ⟨-, -, hbyte⟩ := h.header
  have hlen := h.payloadLen
  have hrest := h.restOfFrame (n := 5) (by rw [length_fragBytes, List.length_cons]; omega)
  have hoff : rdByte s 4 = off := by
    have hfb : s.fb = bufOf ((be16Bytes v ++ be16Bytes tag ++ [off]) ++ l) := by
      rw [h.fb, fragBytes, List.append_assoc _ [off], List.singleton_append]
    exact rdByte_of_holdsAt (p := 4) (holdsAt_append.1 (holdsAt_bufOf hfb h.cur)).2
  rw [length_fragBytes, List.length_cons] at hlen
  exact .inl ⟨hbyte ▸ hv, by omega, by rw [hrest, hoff]; rfl⟩

/-- A header of no bytes at all is no IPHC header (R190). -/
theorem Loaded.ne_nil_of_decodeAt (h : Loaded s (fragBytes v tag l)) {d : Decoded}
    (hd : decodeAt s 4 = .ok d) : l ≠ [] := by
  rintro rfl
  have hbyte : rdByte s 4 = 0 := byteAt_beyond s _ (by
    rw [h.fb, h.cur, bufOf_len, length_fragBytes]
    exact Nat.le_refl 4)
  rw [decodeAt_of_not_iphc (hbyte ▸ by decide)] at hd
  cases hd

end Cut

section TwoFragments

variable {s : State} {now : BitVec 32} {tag : BitVec 16} {j : Nat} {c : FragSlot}

/-- No slot has the key of a context that was made because none had it (R223, R229). -/
theorem keyFree_of_findSlot_none (h : findSlot s c.key c.tag = none) : keyFree s j c :=
  fun k hk _ hv hkey => findSlot_none.1 h k hk ⟨hv, hkey⟩

/-- A context keeps its key to itself when the fragment that made it is stored (R229). -/
theorem keyFree_setSlot {t : State} {c' : FragSlot} (hj : j < 4) (h : keyFree s j c)
    (ht : t.frag = setSlot j c' s) : keyFree t j c := by
  intro k hk hkj hv
  rw [slotAt_of_setSlot_ne hj ht hkj] at hv ⊢
  exact h k hk hkj hv

/-- Slot `j` holds the context `c`, which waits for the fragments of its link source and tag: no
other slot has its key. -/
structure Waiting (s : State) (j : Nat) (c : FragSlot) : Prop where
  index : j < 4
  slot : slotAt s j = c
  valid : c.valid = true
  key : c.key = s.linkSrc.addr
  alone : keyFree s j c

/-- After a sweep that keeps it, such a context is the target of its fragments (R222, R228). -/
theorem Waiting.target (h : Waiting s j c) (hage : expired now c = false) :
    target (sweepState now s) now c.total c.tag = some (j, c, s.draws) := by
  have hslot : slotAt (sweepState now s) j = c :=
    (slotAt_sweep_kept (h.slot ▸ hage)).trans h.slot
  have hfind : findSlot (sweepState now s) s.linkSrc.addr c.tag = some j := by
    refine findSlot_some.2 ⟨h.index, hslot.symm ▸ ⟨h.valid, h.key, rfl⟩,
      fun i hi ⟨hvi, hki, hti⟩ => ?_⟩
    rw [slotAt_sweep] at hki hti
    exact h.alone i (Nat.lt_trans hi h.index) (Nat.ne_of_lt hi) (valid_of_sweep hvi)
      ⟨hki.trans h.key.symm, hti⟩
  simp only [Machine.target, sweepState_linkSrc, hfind, hslot, if_true, sweepState_draws]

/-- Of two pieces that are put one behind the other into a buffer, every byte is in its place
(R234, R235). -/
theorem placedByte_cut {f : List Byte} {k a adj : Nat} (hk : k ≤ f.length) (ha : a < f.length) :
    placedByte (storePiece ⟨true, 0, f.take k, adj⟩ c) k (f.drop k) a = byteOf f a := by
  have hsplit : byteOf f a = byteOf (f.take k ++ f.drop k) a := by rw [List.take_append_drop]
  have hlen : (f.take k).length = k := List.length_take_of_le hk
  rw [placedByte, List.length_drop, hsplit]
  by_cases hka : k ≤ a
  · rw [if_pos (by omega), byteOf_append_right (by omega), hlen]
  · have hplace : Piece.place ⟨true, 0, f.take k, adj⟩ c = 0 := rfl
    rw [if_neg (by omega), byteOf_append_left (by omega), memByte_storePiece, hplace]
    exact if_pos ⟨Nat.zero_le a, by dsimp only [Int.toNat_zero]; omega⟩

theorem bufBytes_eq {b : Buf} {l : List Byte} (hlen : b.len = l.length)
    (h : ∀ a, a < l.length → memByte 0 b.mem a = byteOf l a) : bufBytes b = l :=
  memRange_eq hlen.symm fun a ha => by rw [Nat.zero_add]; exact h a (hlen ▸ ha)

/-- A new context takes a first fragment that counts at most the declared size (R223, R232). -/
theorem fits_newContext {x : Piece} (hfirst : x.first = true) {key : Oct} {size : BitVec 11}
    {draw : Nat} (h : x.payload.length + x.adj ≤ size.toNat) :
    fits x (newContext key tag size now draw) := by
  have hplace : x.place (newContext key tag size now draw) = 0 := if_pos hfirst
  have hadded : x.added = x.payload.length + x.adj := if_pos hfirst
  have hrecvd : (newContext key tag size now draw).recvd.toNat = 0 := rfl
  have htotal : (newContext key tag size now draw).total.toNat = size.toNat := rfl
  have hranges : (newContext key tag size now draw).ranges.length < 256 := Nat.zero_lt_succ 255
  exact ⟨List.not_mem_nil, by omega, by omega, by omega, hranges⟩

/-- A context that has one first fragment takes the continuation that its count leads to. -/
theorem fits_next {o adj : Nat} {l : List Byte} {r : BitVec 16} (hr : c.ranges = [⟨0, r⟩])
    (ho : 0 < o) (ho16 : o < 65536) (hadj : c.adj.toNat ≤ o) (hrecvd : c.recvd.toNat = o)
    (htotal : o + l.length = c.total.toNat) : fits ⟨false, o, l, adj⟩ c := by
  have hnew : (⟨false, o, l, adj⟩ : Piece).range ∉ c.ranges := by
    rw [hr, List.mem_singleton]
    intro h
    have hoff : (BitVec.ofNat 16 o).toNat = 0 := congrArg (fun x : Range => x.off.toNat) h
    rw [BitVec.toNat_ofNat] at hoff
    omega
  refine ⟨hnew, ?_⟩
  simp only [Piece.place, Piece.added, Bool.false_eq_true, if_false, hr, List.length_singleton]
  omega

/-- What SETBYTES answers and a sweep do not matter to a decode. -/
theorem decodeAt_sweep_done (now : BitVec 32) (s : State) (base : Nat) :
    decodeAt (sweepState now (done 0 0 [] s)) base = decodeAt s base :=
  decodeAt_congr (s := s) (t := sweepState now (done 0 0 [] s)) rfl rfl rfl rfl rfl base

/-- The context that a first fragment with the payload `l` and the adjustment `adj` leaves in a free
slot (R223, R234). -/
def firstContext (s : State) (now : BitVec 32) (size : BitVec 11) (tag : BitVec 16) (l : List Byte)
    (adj : Nat) : FragSlot :=
  storePiece ⟨true, 0, l, adj⟩ (newContext s.linkSrc.addr tag size now s.draws)

/-- What a first fragment's context counts (R232, R234). -/
theorem firstContext_counts {size : BitVec 11} {l : List Byte} {adj : Nat} (hadj : adj ≤ 44)
    (h : l.length + adj ≤ size.toNat) :
    (firstContext s now size tag l adj).adj.toNat = adj ∧
      (firstContext s now size tag l adj).recvd.toNat = l.length + adj := by
  have hsize := size.isLt
  refine ⟨Nat.mod_eq_of_lt (show adj < 256 by omega), ?_⟩
  exact (recvd_storePiece (fits_newContext rfl h)).trans (Nat.zero_add _)

/-- A first fragment's context is as old as the first fragment (R223, R240). -/
theorem expired_firstContext {now' : BitVec 32} {size : BitVec 11} {l : List Byte} {adj : Nat}
    (h : (now' - now).toNat ≤ 2000) : expired now' (firstContext s now size tag l adj) = false := by
  rw [expired_params]
  exact decide_eq_false (Nat.not_lt.2 h)

/-- A loaded first fragment of a datagram that has no context yet waits in the free slot (R223,
R234, R237). -/
theorem reasmSwept_first_loaded {v : BitVec 16} {l : List Byte} {size : BitVec 11} {d : Decoded}
    (h : Loaded s (fragBytes v tag l)) (hv : v.extractLsb' 8 8 &&& 0xF8 = 0xC0)
    (hsize : v.extractLsb' 0 11 = size) (hl : s.linkSrc.valid = true)
    (hd : decodeAt s 4 = .ok d) (ht : d.trunc = false) (hle : d.chs ≤ d.uhs)
    (hfind : findSlot s s.linkSrc.addr tag = none) (hfree : freeSlot s = some j)
    (hfits : l.length + (d.uhs - d.chs) ≤ size.toNat) :
    reasmSwept now s = finish noAdv .incomplete (BitVec.ofNat 32 j) 0 []
      { s with
        frag := setSlot j (firstContext s now size tag l (d.uhs - d.chs)) s
        draws := s.draws + 1 } := by
  have htarget : target s now size tag =
      some (j, newContext s.linkSrc.addr tag size now s.draws, s.draws + 1) := by
    simp only [target, hfind, hfree]
  rw [reasmSwept_into hl (h.carries_first hv hd ht hle) (h.target hsize htarget)]
  exact storeInto_first (fits_newContext rfl hfits) rfl

/-- SETBYTES and REASM of the first fragment make a context that waits for the rest. -/
theorem setbytes_reasm_first {v : BitVec 16} {l : List Byte} {size : BitVec 11} {d : Decoded}
    (hlen : l.length ≤ 2044) (hv : v.extractLsb' 8 8 &&& 0xF8 = 0xC0)
    (hsize : v.extractLsb' 0 11 = size) (hl : s.linkSrc.valid = true)
    (hd : decodeAt { s with fb := bufOf (fragBytes v tag l), cur := 0 } 4 = .ok d)
    (ht : d.trunc = false) (hle : d.chs ≤ d.uhs)
    (hfind : findSlot (sweepState now s) s.linkSrc.addr tag = none)
    (hfree : freeSlot (sweepState now s) = some j)
    (hfits : l.length + (d.uhs - d.chs) ≤ size.toNat) :
    ∃ t u, exec (.setbytes (fragBytes v tag l)) s = .next t ∧ exec (.reasm now) t = .next u ∧
      u.status = statusCode .incomplete ∧ u.linkSrc = s.linkSrc ∧
      Waiting u j (firstContext s now size tag l (d.uhs - d.chs)) := by
  obtain ⟨hj, -⟩ := freeSlot_some.1 hfree
  have hwait := reasmSwept_first_loaded (now := now)
    (s := sweepState now (done 0 0 [] { s with fb := bufOf (fragBytes v tag l), cur := 0 }))
    ⟨rfl, rfl⟩ hv hsize hl ((decodeAt_sweep_done ..).trans hd) ht hle hfind hfree hfits
  refine ⟨_, _, exec_setbytes_fits (by rw [length_fragBytes]; omega),
    (exec_reasm ..).trans (congrArg _ hwait), rfl, rfl, ?_⟩
  exact {
    index := hj
    slot := slotAt_of_setSlot_same hj rfl
    valid := rfl
    key := rfl
    alone := keyFree_setSlot hj (keyFree_of_findSlot_none hfind) rfl }

/-- A loaded continuation goes to the context that waits for it, if the sweep keeps it (R222, R235,
R236, R240). -/
theorem Waiting.continued {v : BitVec 16} {off : Byte} {l : List Byte} (h : Waiting s j c)
    (hload : Loaded s (fragBytes v c.tag (off :: l))) (hv : v.extractLsb' 8 8 &&& 0xF8 = 0xE0)
    (hsize : v.extractLsb' 0 11 = c.total) (hl : s.linkSrc.valid = true)
    (hage : expired now c = false) (hfits : fits ⟨false, off.toNat * 8, l, 0⟩ c) :
    continued ⟨false, off.toNat * 8, l, 0⟩ j c (sweepState now s)
      (reasmSwept now (sweepState now s)) := by
  have hswept : Loaded (sweepState now s) (fragBytes v c.tag (off :: l)) := ⟨hload.fb, hload.cur⟩
  rw [reasmSwept_into (s := sweepState now s) hl (hswept.carries_next hv)
    (hswept.target hsize (h.target hage))]
  exact continued_storeInto h.index h.valid rfl hfits

/-- SETBYTES and REASM of that continuation. -/
theorem setbytes_reasm_next {v : BitVec 16} {off : Byte} {l : List Byte} (h : Waiting s j c)
    (hlen : l.length ≤ 2043) (hv : v.extractLsb' 8 8 &&& 0xF8 = 0xE0)
    (hsize : v.extractLsb' 0 11 = c.total) (hl : s.linkSrc.valid = true)
    (hage : expired now c = false) (hfits : fits ⟨false, off.toNat * 8, l, 0⟩ c) :
    ∃ t u, exec (.setbytes (fragBytes v c.tag (off :: l))) s = .next t ∧
      exec (.reasm now) t = .next u ∧
      continued ⟨false, off.toNat * 8, l, 0⟩ j c (sweepState now t) u := by
  have hset := exec_setbytes_fits (s := s) (data := fragBytes v c.tag (off :: l))
    (by rw [length_fragBytes, List.length_cons]; omega)
  have hwaiting : Waiting (done 0 0 []
      { s with fb := bufOf (fragBytes v c.tag (off :: l)), cur := 0 }) j c :=
    ⟨h.index, h.slot, h.valid, h.key, h.alone⟩
  exact ⟨_, _, hset, exec_reasm .., hwaiting.continued ⟨rfl, rfl⟩ hv hsize hl hage hfits⟩

/-- The continuation that a first fragment's context waits for completes the frame that was cut
(R236, R245). -/
theorem completes_cut {t w : State} {size : BitVec 11} {f : List Byte} {k o adj : Nat}
    (hk : k ≤ f.length) (hadj : adj ≤ 44) (ho : o = k + adj) (hsize : size.toNat = f.length + adj)
    (h : continued ⟨false, o, f.drop k, 0⟩ j (firstContext s now size tag (f.take k) adj) w t) :
    answered .complete 0 (BitVec.ofNat 32 j) 0 [] t ∧ t.fb.len = f.length ∧ bufBytes t.fb = f ∧
      t.cur = 0 ∧ (slotAt t j).valid = false := by
  have htake : (f.take k).length = k := List.length_take_of_le hk
  have hdrop : (f.drop k).length = f.length - k := List.length_drop
  have htotal : (firstContext s now size tag (f.take k) adj).total.toNat = f.length + adj := hsize
  obtain ⟨hadjusted, hrecvd⟩ := firstContext_counts (s := s) (now := now) (tag := tag)
    (size := size) (l := f.take k) hadj (by omega)
  have hplace : (Piece.place ⟨false, o, f.drop k, 0⟩
      (firstContext s now size tag (f.take k) adj)).toNat = k := by
    simp only [Piece.place, hadjusted, Bool.false_eq_true, if_false]
    omega
  have hcount : (firstContext s now size tag (f.take k) adj).recvd.toNat + (f.drop k).length =
      (firstContext s now size tag (f.take k) adj).total.toNat := by omega
  obtain ⟨hanswer, hgone, -, hlen, hbytes, hcur, -⟩ := h.2 hcount
  rw [htotal, hadjusted, Nat.add_sub_cancel] at hlen hbytes
  rw [hplace] at hbytes
  exact ⟨hanswer, hlen, bufBytes_eq hlen fun a ha => (hbytes a ha).trans (placedByte_cut hk ha),
    hcur, hgone⟩

end TwoFragments

end Sys2Proof.Machine

namespace Sys2Proof.Proofs

open Sys2Proof Sys2Proof.Machine

/-- Settles O28: the rows read a fragment header, and of a first fragment the header behind it, as
REASM does after its sweep. -/
theorem reasmIsItsWireSteps : Obligations.ReasmIsItsWireSteps := by
  intro now s
  have hrun := within_reasm now (sweepState now s)
  rw [← exec_reasm] at hrun
  exact hrun

/-- Settles O37: the class of the first byte decides, and a byte beyond the data reads 0. -/
theorem reasmPassesOtherFrames : Obligations.ReasmPassesOtherFrames := by
  rintro now s w rfl h
  have hpass : reasmSwept now (sweepState now s) = passFrame (sweepState now s) := by
    rcases h with hempty | ⟨h3, h4⟩
    · have hbyte : rdByte (sweepState now s) 0 = 0 := byteAt_beyond _ _ hempty
      exact reasmSwept_other (hbyte ▸ by decide) (hbyte ▸ by decide)
    · exact reasmSwept_other h3 h4
  refine ⟨_, exec_reasm now s, ?_⟩
  rw [hpass]
  exact ⟨answered_finish_noAdv .., keepsBut_finish_noAdv _ _ _ _ _⟩

/-- Settles O38: a first fragment that its context takes waits. -/
theorem firstFragmentIsStored : Obligations.FirstFragmentIsStored := by
  rintro now s w d j n c x rfl h hlen hl hd ht hle htarget rfl hfits
  obtain ⟨hj, hv⟩ := target_valid htarget
  have hcarries : carries (sweepState now s) _ := .inr ⟨h, hlen, d, hd, ht, hle, rfl⟩
  refine ⟨_, exec_reasm now s, ?_⟩
  rw [reasmSwept_into hl hcarries htarget, storeInto_first hfits rfl]
  refine ⟨answered_finish_noAdv .., storedAt_of_setSlot hj hfits rfl, ?_,
    keepsBut_finish_of keepsBut_of_parts⟩
  rw [slotAt_of_setSlot_same hj rfl]
  exact hv

/-- Settles O39, from what a context does with a continuation that it takes. -/
theorem continuationIsStoredOrCompletes : Obligations.ContinuationIsStoredOrCompletes := by
  rintro now s w j n c x rfl h hlen hl htarget rfl hfits
  obtain ⟨hj, hv⟩ := target_valid htarget
  refine ⟨_, exec_reasm now s, ?_⟩
  rw [reasmSwept_into hl (.inl ⟨h, hlen, rfl⟩) htarget]
  exact continued_storeInto hj hv rfl hfits

/-- Settles O40: the pair is that of the piece which the frame carries. -/
theorem recordedRangeIsDuplicate : Obligations.RecordedRangeIsDuplicate := by
  rintro now s w j n c off hdr rfl hl htarget hfrag hdup
  obtain ⟨x, hx, hrange⟩ : ∃ x, carries (sweepState now s) x ∧ x.range ∈ c.ranges := by
    rcases hfrag with ⟨h, rfl, rfl, hlen⟩ | ⟨h, rfl, rfl, hlen, d, hd, ht, hle⟩
    · refine ⟨_, .inl ⟨h, hlen, rfl⟩, ?_⟩
      rwa [Piece.range, restOfFrame, bufRange_length]
    · refine ⟨_, .inr ⟨h, hlen, d, hd, ht, hle, rfl⟩, ?_⟩
      rwa [Piece.range, restOfFrame, bufRange_length]
  refine ⟨_, exec_reasm now s, ?_⟩
  rw [reasmSwept_into hl hx htarget, storeInto_duplicate hrange]
  exact ⟨answered_finish_noAdv .., keepsBut_finish_noAdv _ _ _ _ _⟩

/-- Settles O41: the checks on the fragment header, then what the probe reads. -/
theorem fragmentHeaderRefusals : Obligations.FragmentHeaderRefusals := by
  intro now s w hw _
  refine ⟨fun h => reasm_refuses hw ?_, fun hl h => reasm_refuses hw ?_, fun hl h hlen => ?_⟩
  · rcases h with ⟨h, hlen⟩ | ⟨h, hlen⟩
    · rw [reasmSwept_first h, reasmFirst_refused (fragHeaderCheck_cut hlen)]
    · rw [reasmSwept_next h, reasmNext_refused (fragHeaderCheck_cut hlen)]
  · rcases h with ⟨h, hlen⟩ | ⟨h, hlen⟩
    · rw [reasmSwept_first h, reasmFirst_refused (fragHeaderCheck_noLink hlen hl)]
    · rw [reasmSwept_next h, reasmNext_refused (fragHeaderCheck_noLink hlen hl)]
  · have hcheck := fragHeaderCheck_whole hlen hl
    refine ⟨fun st pos hr => reasm_refuses hw ?_, fun hr hcut => ?_, fun hr hwhole hlong => ?_⟩
    · rw [reasmSwept_first h, reasmFirst_probe_refused hcheck (decodeAt_refuses hr)]
    all_goals
      obtain ⟨src, dst, d, hd, hread⟩ := decodeAt_reads hr
      have htrunc := hread.trunc.trans (past_bytesRead w 4)
      refine reasm_refuses hw ?_
      rw [reasmSwept_first h, reasmFirst_probed hcheck hd]
    · exact storeFirst_truncated (htrunc.trans (decide_eq_true hcut))
    · rw [← hread.uhs, ← hread.chs] at hlong
      exact storeFirst_expanding (htrunc.trans (decide_eq_false (Nat.not_lt.2 hwhole))) hlong

/-- Settles O42: the table, the context's size, then the checks of the context in their order. -/
theorem fragmentStoreRefusals : Obligations.FragmentStoreRefusals := by
  rintro now s w size tag x hw hl rfl rfl hx
  have hstore := reasmSwept_of_carries (now := now) hl hx
  refine ⟨fun hfind hfree => reasm_refuses hw ?_, fun j hfind hsize => reasm_refuses hw ?_,
    fun j c n htarget hnew => ?_⟩
  · simp only [hstore, storeFragment, hfind, hfree]
  · simp only [hstore, storeFragment, hfind]
    exact if_pos hsize
  · have hrefused {st : Status} (h : pieceCheck x c = some ⟨st, 0⟩) :
        ∃ t, exec (.reasm now) s = .next t ∧ refuses st 0 w t :=
      reasm_refuses hw ((reasmSwept_into hl hx htarget).trans (storeInto_refused hnew h))
    refine ⟨fun h => hrefused (pieceCheck_outside h), fun h0 h1 => ?_⟩
    have hcheck := pieceCheck_inside h0 h1
    refine ⟨fun hcount => hrefused ?_, fun hcount hfull => hrefused ?_⟩
    · rw [hcheck, if_pos hcount]
    · rw [hcheck, if_neg (Nat.not_lt.2 hcount), if_pos hfull]

/-- Settles O43: the old slots are those that the sweep evicts. -/
theorem sweepEvictsTheOld : Obligations.SweepEvictsTheOld := by
  intro now s old hold
  obtain rfl : old = evicted now s := by simp only [hold, evicted, expired_params]
  refine ⟨_, exec_sweep now s, ?_⟩
  rw [length_evicted]
  refine ⟨answered_done .., rfl, ?_, fun j hj => slotAt_sweep_expired (mem_evicted.1 hj),
    fun j hj => slotAt_sweep_kept (Bool.eq_false_iff.2 fun h => hj (mem_evicted.2 h)),
    keepsBut_finish_of keepsBut_of_parts⟩
  rw [done_eq, finish_noAdv_flags, sweepState_flags, ← length_evicted]
  simp only [List.length_pos_iff, ite_not]
  rfl

/-- Settles O44: what stands in each field of the packed words and bytes. -/
theorem fragStatPacksTheSlot : Obligations.FragStatPacksTheSlot := by
  intro j s
  refine ⟨fun hj hv => ?_, fun hj hv => ?_, fun hj => ?_⟩
  · generalize hf : slotAt s j.toNat = f at hv
    refine ⟨_, _, exec_fragStat_valid (Nat.lt_succ_of_le hj) hf hv, answered_done .., ?_, ?_, rfl,
      rfl, ?_, ?_, keepsBut_done _ _ _ _⟩
    · rw [done_eq, finish_res0, toNat_append_byte, toNat_append_byte]
      have hone : (1 : BitVec 8).toNat = 1 := rfl
      omega
    · rw [done_eq, finish_res1, toNat_append_word, BitVec.toNat_setWidth_of_le (by decide)]
      omega
    · exact (beNat_be32Bytes _).trans (BitVec.toNat_setWidth_of_le (by decide))
    · exact (beNat_be16Bytes _).trans (BitVec.toNat_ofNat ..)
  · exact ⟨_, exec_fragStat_absent (Nat.lt_succ_of_le hj) hv, answered_done ..,
      keepsBut_done _ _ _ _⟩
  · exact ⟨_, exec_fragStat_beyond (Nat.not_lt.2 hj), refuses_hardError ..⟩

/-- Settles O45: the first fragment makes a context that no other has the key of, and the
continuation, whose sweep keeps it, completes it. -/
theorem twoFragmentsReassemble : Obligations.TwoFragmentsReassemble := by
  intro s f f1 f2 k size j tag off d now1 now2 hl hk hsize hsize' hf1 hf2 hd ht hle hoff hfind hfree
    hage
  obtain ⟨hclass1, hsize1⟩ := fragWord_fields (.inl rfl) hsize' rfl
  obtain ⟨hclass2, hsize2⟩ := fragWord_fields (.inr rfl) hsize' rfl
  obtain rfl : f1 = fragBytes (be16 0xC0 0 + BitVec.ofNat 16 size) tag (f.take k) := hf1
  replace hf2 : f2 = fragBytes (be16 0xE0 0 + BitVec.ofNat 16 size) tag (off :: f.drop k) := by
    rw [hf2, fragBytes, List.append_assoc _ [off], List.singleton_append]
    rfl
  have hadj44 : d.uhs - d.chs ≤ 44 := Nat.sub_le_iff_le_add'.2 (decodeAt_uhs_le hd)
  have hk0 : k ≠ 0 := fun hz =>
    Loaded.ne_nil_of_decodeAt ⟨rfl, rfl⟩ hd (by rw [hz, List.take_zero])
  have htake : (f.take k).length = k := List.length_take_of_le hk
  have hdrop : (f.drop k).length = f.length - k := List.length_drop
  have hoff8 : off.toNat < 256 := off.isLt
  have hsizeNat : (BitVec.ofNat 11 size).toNat = size := Nat.mod_eq_of_lt (Nat.lt_succ_of_le hsize')
  obtain ⟨hadj, hrecvd⟩ := firstContext_counts (s := s) (now := now1) (tag := tag)
    (size := BitVec.ofNat 11 size) (l := f.take k) hadj44 (by omega)
  obtain ⟨t1, t2, hset1, hreasm1, hstatus, hlink, hwaiting⟩ := setbytes_reasm_first (by omega)
    hclass1 hsize1 hl hd ht hle hfind hfree (by omega)
  obtain ⟨t3, t4, hset2, hreasm2, hcontinued⟩ := setbytes_reasm_next hwaiting (by omega) hclass2
    hsize2 (hlink ▸ hl) (expired_firstContext hage)
    (fits_next rfl (by omega) (by omega) (by omega) (by omega)
      (show off.toNat * 8 + (f.drop k).length = (BitVec.ofNat 11 size).toNat by omega))
  exact ⟨t1, t2, t3, t4, hset1, hreasm1, hstatus, hf2 ▸ hset2, hreasm2,
    completes_cut hk hadj44 hoff (hsizeNat.trans hsize) hcontinued⟩

end Sys2Proof.Proofs

/-! # The checksum unit (46_checksum.md)

Ones'-complement addition as an operation on numbers, the fold as a sum that any word may be taken
out of, the pseudo-header and the UDP sum as one fold, and what each of the five commands answers. The
statements follow at the end. -/

namespace Sys2Proof.Machine

/-! ## Ones'-complement addition (R250) -/

section Addition

variable (a b c : BitVec 16)

theorem ocAdd_toNat : (ocAdd a b).toNat =
    if 0xFFFF < a.toNat + b.toNat then a.toNat + b.toNat - 0xFFFF else a.toNat + b.toNat := by
  unfold ocAdd
  split <;> rw [BitVec.toNat_ofNat, Nat.mod_eq_of_lt (by omega)]

/-- The two cases of the end-around carry, as facts about numbers. -/
theorem ocAdd_cases :
    (a.toNat + b.toNat ≤ 0xFFFF ∧ (ocAdd a b).toNat = a.toNat + b.toNat) ∨
      (0xFFFF < a.toNat + b.toNat ∧ (ocAdd a b).toNat + 0xFFFF = a.toNat + b.toNat) := by
  rw [ocAdd_toNat]
  split <;> omega

theorem ocAdd_comm : ocAdd a b = ocAdd b a := by
  unfold ocAdd
  rw [Nat.add_comm]

theorem ocAdd_assoc : ocAdd (ocAdd a b) c = ocAdd a (ocAdd b c) := by
  apply BitVec.eq_of_toNat_eq
  have hab := ocAdd_cases a b
  have hbc := ocAdd_cases b c
  have hab_c := ocAdd_cases (ocAdd a b) c
  have ha_bc := ocAdd_cases a (ocAdd b c)
  omega

theorem ocAdd_zero : ocAdd a 0 = a := by
  apply BitVec.eq_of_toNat_eq
  have hzero : (0 : BitVec 16).toNat = 0 := rfl
  have hcases := ocAdd_cases a 0
  omega

theorem zero_ocAdd : ocAdd 0 a = a := by rw [ocAdd_comm, ocAdd_zero]

theorem ocAdd_eq_zero : ocAdd a b = 0 ↔ a = 0 ∧ b = 0 := by
  have hcases := ocAdd_cases a b
  simp only [← BitVec.toNat_inj, BitVec.ofNat_eq_ofNat, BitVec.toNat_zero]
  omega

/-- A word and its complement add up to all ones (R255). -/
theorem not_ocAdd : ocAdd (~~~ a) a = 0xFFFF := by
  apply BitVec.eq_of_toNat_eq
  have hones : (0xFFFF : BitVec 16).toNat = 0xFFFF := rfl
  have hnot : (~~~ a).toNat = 2 ^ 16 - 1 - a.toNat := BitVec.toNat_not
  have hcases := ocAdd_cases (~~~ a) a
  omega

/-- The end-around carry keeps the sum modulo 0xFFFF. -/
theorem ocAdd_toNat_mod : (ocAdd a b).toNat % 65535 = (a.toNat + b.toNat) % 65535 := by
  have hcases := ocAdd_cases a b
  omega

end Addition

/-! ## The fold (R251) -/

section Fold

variable (v w : BitVec 16) (l m : List Byte)

theorem be16_eq_zero {x y : Byte} : be16 x y = 0 ↔ x = 0 ∧ y = 0 := by
  simp only [← BitVec.toNat_inj, be16_toNat, BitVec.ofNat_eq_ofNat, BitVec.toNat_zero]
  omega

theorem foldSum_toNat_mod : (foldSum v l).toNat % 65535 = (v.toNat + wordSum l) % 65535 := by
  induction v, l using foldSum.induct with
  | case1 v => rfl
  | case2 v x =>
    rw [foldSum_one, ocAdd_toNat_mod, be16_toNat, wordSum, BitVec.ofNat_eq_ofNat,
      BitVec.toNat_zero, Nat.add_zero]
  | case3 v x y l ih =>
    rw [foldSum_two, ih, ← Nat.mod_add_mod, ocAdd_toNat_mod, Nat.mod_add_mod, be16_toNat, wordSum,
      Nat.add_assoc]

theorem foldSum_eq_zero : foldSum v l = 0 ↔ v = 0 ∧ ∀ b ∈ l, b = 0 := by
  induction v, l using foldSum.induct with
  | case1 v => simp
  | case2 v x =>
    simp only [foldSum_one, ocAdd_eq_zero, be16_eq_zero, and_true, List.mem_singleton, forall_eq]
  | case3 v x y l ih =>
    simp only [foldSum_two, ih, ocAdd_eq_zero, be16_eq_zero, List.forall_mem_cons, and_assoc]

/-- What is added before a fold may as well be added after it. -/
theorem foldSum_ocAdd : foldSum (ocAdd w v) l = ocAdd w (foldSum v l) := by
  induction v, l using foldSum.induct with
  | case1 v => rfl
  | case2 v x => exact ocAdd_assoc w v _
  | case3 v x y l ih => rw [foldSum_two, ocAdd_assoc, ih, foldSum_two]

/-- A word between the bytes adds to the sum of the others, wherever it stands at an even place. -/
theorem foldSum_be16Bytes_between (h : l.length % 2 = 0) :
    foldSum v (l ++ be16Bytes w ++ m) = ocAdd w (foldSum v (l ++ m)) := by
  rw [List.append_assoc, foldSum_append _ _ _ h, foldSum_be16Bytes, ocAdd_comm, foldSum_ocAdd,
    ← foldSum_append _ _ _ h]

end Fold

/-! ## The pseudo-header and the UDP sum (R252, R256) -/

/-- A word whose high half is 0 is its low half (R252). -/
theorem be16_zero_left (x : Byte) : be16 0 x = x.zeroExtend 16 := by
  apply BitVec.eq_of_toNat_eq
  rw [be16_toNat, BitVec.toNat_setWidth_of_le (by decide)]
  exact Nat.zero_add _

/-- A 32-bit word is folded as its two halves (R252). -/
theorem foldSum_be32Bytes (v : BitVec 16) (w : BitVec 32) (l : List Byte) :
    foldSum v (be32Bytes w ++ l) =
      foldSum (ocAdd (ocAdd v (w.extractLsb' 16 16)) (w.extractLsb' 0 16)) l := by
  have hhigh : be16 (w.extractLsb' 24 8) (w.extractLsb' 16 8) = w.extractLsb' 16 16 :=
    BitVec.extractLsb'_append_extractLsb'_eq_extractLsb' rfl
  have hlow : be16 (w.extractLsb' 8 8) (w.extractLsb' 0 8) = w.extractLsb' 0 16 :=
    BitVec.extractLsb'_append_extractLsb'_eq_extractLsb' rfl
  rw [← hhigh, ← hlow]
  rfl

/-- The pseudo-header sum is the fold of the pseudo-header's 40 bytes. -/
theorem pseudoSum_eq_foldSum (nh : Byte) (plen : BitVec 32) (src dst : Addr) :
    pseudoSum nh plen src dst =
      foldSum 0 (be32Bytes plen ++ [0, nh] ++ addrBytes src ++ addrBytes dst) := by
  rw [foldSum_append _ _ _ (by simp), foldSum_append _ _ _ (by simp), foldSum_be32Bytes,
    foldSum_two, be16_zero_left, foldSum_nil, pseudoSum]

/-- Of a UDP packet, the pseudo-header and the UDP header up to its checksum field. -/
def udpPrefix (m : HM) (ulen : Nat) : List Byte :=
  be32Bytes (BitVec.ofNat 32 ulen) ++ [0, 17] ++ addrBytes m.src ++ addrBytes m.dst ++
    be16Bytes m.sport ++ be16Bytes m.dport ++ be16Bytes (BitVec.ofNat 16 ulen)

@[simp] theorem udpPrefix_length (m : HM) (ulen : Nat) : (udpPrefix m ulen).length = 44 := rfl

/-- The UDP sum is the fold of the packet without its checksum field. -/
theorem udpSumOf_eq_foldSum (m : HM) (payload : List Byte) :
    udpSumOf m payload = foldSum 0 (udpPrefix m (payload.length + 8) ++ payload) := by
  calc udpSumOf m payload
    _ = foldSum 0 (udpPrefix m (payload.length + 8) ++ be16Bytes 0 ++ payload) := by
      rw [foldSum_append _ _ _ (by simp), udpPrefix, List.append_assoc, List.append_assoc,
        List.append_assoc, foldSum_append _ _ _ (by simp), ← pseudoSum_eq_foldSum,
        ← List.append_assoc, ← List.append_assoc]
      rfl
    _ = ocAdd 0 (foldSum 0 (udpPrefix m (payload.length + 8) ++ payload)) :=
      foldSum_be16Bytes_between 0 0 _ payload (by simp)
    _ = foldSum 0 (udpPrefix m (payload.length + 8) ++ payload) := zero_ocAdd _

/-- The sum that `udpChecksum` leaves in SUM is the complement of what it answers (R256). -/
theorem udpSumOf_eq_not (m : HM) (payload : List Byte) :
    udpSumOf m payload = ~~~ udpChecksum m payload := BitVec.not_not.symm

/-! ## CSUM_PSEUDO, CSUM_FOLD and CSUM_FINAL (R253 to R255) -/

section Primitives

variable {s : State}

/-- A command that writes SUM and answers it. -/
def sumAnswered (v : BitVec 16) (s : State) : State :=
  done (v.zeroExtend 32) 0 [] { s with sum := v }

theorem sumAnswered_ends (v : BitVec 16) (s : State) :
    (sumAnswered v s).sum = v ∧
      answered .ok 0 ((sumAnswered v s).sum.zeroExtend 32) 0 [] (sumAnswered v s) ∧
      keepsBut [.sum] s (sumAnswered v s) :=
  ⟨rfl, answered_done .., keepsBut_finish_of keepsBut_of_parts⟩

/-- A byte sequence of length 32 is that of its two addresses. -/
theorem addrBytes_addrAt_pair {l : List Byte} (h : l.length = 32) :
    addrBytes (addrAt l 0) ++ addrBytes (addrAt l 16) = l := by
  have htake : addrBytes (addrAt (l.take 16) 0) = l.take 16 := addrBytes_addrAt (by simp [h])
  have hdrop : addrBytes (addrAt (l.drop 16) 0) = l.drop 16 := addrBytes_addrAt (by simp [h])
  rw [← List.take_append_drop 16 l, ← htake, ← hdrop]
  rfl

theorem exec_csumPseudo_inRange {nh : BitVec 32} (plen : BitVec 32) {addrs : List Byte}
    (hnh : nh.toNat ≤ 0xFF) (hlen : addrs.length = 32) :
    exec (.csumPseudo nh plen addrs) s =
      .next (sumAnswered (foldSum 0 (be32Bytes plen ++ [0, nh.truncate 8] ++ addrs)) s) := by
  have hin : ¬ (inRange nh 0xFF = false ∨ addrs.length ≠ 32) := by simp [inRange, hnh, hlen]
  have hsum := pseudoSum_eq_foldSum (nh.truncate 8) plen (addrAt addrs 0) (addrAt addrs 16)
  rw [List.append_assoc _ (addrBytes _), addrBytes_addrAt_pair hlen] at hsum
  rw [← hsum]
  exact if_neg hin

theorem exec_csumPseudo_outOfRange {nh : BitVec 32} (plen : BitVec 32) {addrs : List Byte}
    (h : 0xFF < nh.toNat ∨ addrs.length ≠ 32) :
    exec (.csumPseudo nh plen addrs) s = .next (hardError badOperand s) :=
  if_pos (by simpa [inRange] using h)

theorem exec_csumFold_within {off length : BitVec 32} (h : off.toNat + length.toNat ≤ s.pb.len) :
    exec (.csumFold off length) s =
      .next (sumAnswered (foldSum s.sum (bufRange s.pb off.toNat length.toNat)) s) :=
  if_neg (Nat.not_lt.2 h)

theorem exec_csumFold_beyond {off length : BitVec 32} (h : s.pb.len < off.toNat + length.toNat) :
    exec (.csumFold off length) s = .next (hardError badOperand s) := if_pos h

/-- The fold over a range of a buffer in two pieces, the first of even length (R251, R328). -/
theorem foldSum_bufRange_add (v : BitVec 16) (b : Buf) (off n k : Nat) (h : n % 2 = 0) :
    foldSum (foldSum v (bufRange b off n)) (bufRange b (off + n) k) =
      foldSum v (bufRange b off (n + k)) := by
  rw [← foldSum_append _ _ _ (by rwa [bufRange_length]), bufRange, bufRange, bufRange,
    memRange_append]

end Primitives

/-! ## UDP_CSUM and UDP_VERIFY (R257, R258) -/

section UdpCommands

variable {s : State}

theorem exec_udp_badModel (h : s.hm.pkind ≠ .udp) {i : Instr}
    (hi : i ∈ [Instr.udpCsum, Instr.udpVerify]) : exec i s = .next (hardError badModel s) := by
  obtain rfl | rfl : i = .udpCsum ∨ i = .udpVerify := by simpa using hi
  · exact if_pos h
  · exact if_pos h

theorem exec_udpCsum_shell (h : s.hm.pkind = .udp) :
    exec .udpCsum s = .next (done ((udpChecksum s.hm (bufBytes s.pb)).zeroExtend 32) 0 []
      { s with
        sum := udpSumOf s.hm (bufBytes s.pb)
        hm := { s.hm with csum := udpChecksum s.hm (bufBytes s.pb), csumInline := true } }) :=
  if_neg (not_not_intro h)

/-- HM after UDP_VERIFY has computed `v`: a carried checksum stays, an elided one is stored. -/
def verified (v : BitVec 16) (m : HM) : HM := if m.csumInline then m else { m with csum := v }

theorem verified_eq (v : BitVec 16) (m : HM) :
    verified v m = { m with csum := if m.csumInline then m.csum else v } := by
  rw [verified]
  split <;> rfl

/-- UDP_VERIFY stores what it keeps, which differs from what it computed only where a checksum was
carried. -/
theorem exec_udpVerify_shell (h : s.hm.pkind = .udp) {v : BitVec 16}
    (hv : v = udpChecksum s.hm (restOfFrame s 0)) :
    exec .udpVerify s = .next (finish
      ⟨decide (s.fb.len < s.cur.toNat), false, s.hm.csumInline && decide (v ≠ s.hm.csum)⟩ .ok
      (v.zeroExtend 32) ((verified v s.hm).csum.zeroExtend 32) []
      { s with sum := udpSumOf s.hm (restOfFrame s 0), hm := verified v s.hm }) := by
  have hbad : (s.hm.csumInline && decide (v ≠ s.hm.csum)) =
      decide (v ≠ if s.hm.csumInline then s.hm.csum else v) := by
    cases s.hm.csumInline <;> simp
  rw [hbad, verified_eq, hv]
  exact if_neg (not_not_intro h)

/-- The flags of UDP_VERIFY: each advisory sets its own (R288). -/
theorem or_advFlags_trunc_csum (trunc bad : Bool) (s : State) :
    s.flags ||| advFlags ⟨trunc, false, bad⟩ = truncFlags trunc s ||| (if bad then 2 else 0) := by
  cases trunc with
  | false => simp [advFlags, truncFlags, fCsumBad]
  | true => simp [advFlags, truncFlags, fCsumBad, fTrunc, BitVec.or_assoc]

end UdpCommands

/-! ## ENCODE after UDP_CSUM (R170, R257) -/

/-- What the lookup finds is the first match. -/
theorem firstMatch_ctxFind (s : State) (a : Addr) :
    firstMatch s (addrBytes a) (ctxFind s.ctx a.pfx) := by
  cases h : ctxFind s.ctx a.pfx with
  | none => exact ctxFind_eq_none_iff_ctxMatches.1 h
  | some i => exact ctxFind_eq_some_iff_ctxMatches.1 h

/-- A compressed header has at most 48 bytes, so that it fits into OB before a full PB (R7). -/
theorem encodedHeader_length_le (s : State) : (encodedHeader s).length ≤ 48 := by
  obtain ⟨-, -, -, -, -, -, -, -, -, -, -, -, hmax, -⟩ :=
    Proofs.encodedHeaderSaysWhatItCarries s _ _ _ _ _ _ _ rfl rfl rfl rfl rfl
      (firstMatch_ctxFind s s.hm.src) (firstMatch_ctxFind s s.hm.dst)
  exact hmax

end Sys2Proof.Machine

namespace Sys2Proof.Proofs

open Sys2Proof Sys2Proof.Machine

/-- Settles O46, from the two cases of the end-around carry. -/
theorem onesComplementAddition : Obligations.OnesComplementAddition := fun a b c =>
  ⟨ocAdd_toNat a b, ocAdd_comm a b, ocAdd_assoc a b c, ocAdd_zero a, ocAdd_eq_zero a b⟩

/-- Settles O47, by induction on the words. -/
theorem foldIsTheModularSum : Obligations.FoldIsTheModularSum := fun v l =>
  ⟨foldSum_toNat_mod v l, foldSum_eq_zero v l⟩

/-- Settles O48: the two ranges adjoin, since within PB_CAP the operands do not wrap. -/
theorem csumFoldInPieces : Obligations.CsumFoldInPieces := by
  intro s off n1 n2 heven hrange hcap
  have hoff : (off + n1).toNat = off.toNat + n1.toNat := BitVec.toNat_add_of_lt (by omega)
  have hlen : (n1 + n2).toNat = n1.toNat + n2.toNat := BitVec.toNat_add_of_lt (by omega)
  have hfirst := exec_csumFold_within (s := s) (off := off) (length := n1) (by omega)
  have hsecond := exec_csumFold_within (off := off + n1) (length := n2)
    (s := sumAnswered (foldSum s.sum (bufRange s.pb off.toNat n1.toNat)) s)
    (by rw [hoff]; exact hrange)
  have hwhole := exec_csumFold_within (s := s) (off := off) (length := n1 + n2) (by omega)
  have hsum := foldSum_bufRange_add s.sum s.pb off.toNat n1.toNat n2.toNat heven
  rw [← hoff, ← hlen] at hsum
  exact ⟨_, _, _, hfirst, hsecond, hwhole, hsum, congrArg (BitVec.zeroExtend 32) hsum, rfl, rfl⟩

/-- Settles O49: CSUM_PSEUDO's sum is one fold over the pseudo-header. -/
theorem checksumPrimitives : Obligations.ChecksumPrimitives := fun _ b _ s =>
  ⟨fun hnh hlen => ⟨_, exec_csumPseudo_inRange b hnh hlen, sumAnswered_ends ..⟩,
    fun h => refused_of_badOperand (exec_csumPseudo_outOfRange b h),
    fun h => ⟨_, exec_csumFold_within h, sumAnswered_ends ..⟩,
    fun h => refused_of_badOperand (exec_csumFold_beyond h),
    ⟨_, rfl, answered_done .., keepsBut_done s _ _ _⟩⟩

/-- Settles O50: the checksum adds to the sum of the rest, whose complement it is. -/
theorem udpChecksumSumsToAllOnes : Obligations.UdpChecksumSumsToAllOnes := by
  rintro m payload ulen rfl
  calc foldSum 0 (udpPrefix m (payload.length + 8) ++ be16Bytes (udpChecksum m payload) ++ payload)
    _ = ocAdd (udpChecksum m payload) (udpSumOf m payload) := by
      rw [foldSum_be16Bytes_between _ _ _ _ (by simp), udpSumOf_eq_foldSum]
    _ = 0xFFFF := not_ocAdd (udpSumOf m payload)

/-- Settles O51: without a shell both commands refuse; with one, UDP_VERIFY notes its two advisories
and keeps a carried checksum. -/
theorem udpCommandsComputeTheChecksum : Obligations.UdpCommandsComputeTheChecksum := by
  rintro s c v payload rfl rfl hv
  refine ⟨fun h => ⟨?_, ?_⟩, fun h i hi => ⟨_, exec_udp_badModel h hi, refuses_hardError ..⟩⟩
  · exact ⟨_, exec_udpCsum_shell h, rfl, udpSumOf_eq_not .., answered_done ..,
      keepsBut_finish_of keepsBut_of_parts⟩
  · rintro trunc bad rfl rfl
    have hexec := exec_udpVerify_shell h hv
    have hkeeps := keepsBut_mono (everyInstructionKeepsTheRest _ _ _ hexec)
      (m := [.hm, .sum, .flags]) (by decide)
    exact ⟨_, hexec, hv ▸ udpSumOf_eq_not .., rfl, answered_finish .., or_advFlags_trunc_csum ..,
      hkeeps⟩

/-- Settles O23: the checksum does not depend on the field that UDP_CSUM writes it to, so ENCODE
computes it again. -/
theorem encodeAfterUdpCsumIsOk : Obligations.EncodeAfterUdpCsumIsOk := by
  intro s hudp hnh hpb
  obtain ⟨hshell, -⟩ := udpCommandsComputeTheChecksum s _ _ _ rfl rfl rfl
  obtain ⟨⟨t, ht, hhm, htsum, -, hkept⟩, -⟩ := hshell hudp
  have hpbKept : t.pb = s.pb := hkept .pb (by decide)
  have hflagsKept : t.flags = s.flags := hkept .flags (by decide)
  have hright : udpChecksum t.hm (bufBytes t.pb) = t.hm.csum := by
    rw [hhm, hpbKept]
    rfl
  have hkind : t.hm.pkind = .udp := by rw [hhm, hudp]
  have haccepted : accepted t.hm := by simp [accepted, hhm, hudp, hnh]
  have hfits : (encodedHeader t).length + t.pb.len ≤ 2096 := by
    rw [hpbKept]
    exact Nat.add_le_add (encodedHeader_length_le t) hpb
  obtain ⟨hencode, -⟩ := encodeWritesHeaderThenPayload t
  obtain ⟨u, hu, ⟨hstatus, -⟩, hflags, -, -, husum, -⟩ :=
    hencode haccepted hfits false (decide_eq_false fun h => h.2 hright).symm
  refine ⟨t, u, ht, hu, hstatus, hflags.trans hflagsKept, ?_⟩
  rw [husum, if_pos hkind, udpSumOf_eq_not, hright, htsum, hhm]

end Sys2Proof.Proofs

/-! # The system commands and the step (47_system_ops.md)

What RESET, CLRFLAGS and RDSTATUS answer, and what a step fetches inside a header; the statements
follow at the end. -/

namespace Sys2Proof.Machine

/-! ## RESET (R271) -/

/-- RESET leaves every part but the slots, the draws and the port as after power-on (R35). -/
theorem keepsBut_resetState (s : State) :
    keepsBut [.frag, .draws, .host] State.reset (resetState s) := keepsBut_of_parts

/-! ## CLRFLAGS (R272) -/

section Clrflags

variable {mask : BitVec 32} {s : State}

/-- The flags that stay set are the ones that the mask does not name. -/
theorem getLsbD_and_not_truncate (f : BitVec 4) (m : BitVec 32) {k : Nat} (hk : k < 4) :
    (f &&& ~~~ m.truncate 4).getLsbD k = (f.getLsbD k && !m.getLsbD k) := by
  simp [BitVec.truncate, hk]

theorem exec_clrflags_inRange (h : mask.toNat ≤ 0xF) :
    exec (.clrflags mask) s =
      .next (done ((s.flags &&& ~~~ mask.truncate 4).zeroExtend 32) 0 []
        { s with flags := s.flags &&& ~~~ mask.truncate 4 }) :=
  if_pos (decide_eq_true h)

theorem exec_clrflags_outOfRange (h : 0xF < mask.toNat) :
    exec (.clrflags mask) s = .next (hardError badOperand s) :=
  if_neg (by simpa [inRange] using h)

end Clrflags

/-! ## RDSTATUS (R273) -/

/-- The lower piece of a word takes its own bits, the upper one stands above them. -/
theorem toNat_append_eq_add {n m : Nat} (x : BitVec n) (y : BitVec m) :
    (x ++ y).toNat = x.toNat * 2 ^ m + y.toNat := by
  rw [BitVec.toNat_append, ← Nat.shiftLeft_add_eq_or_of_lt y.isLt, Nat.shiftLeft_eq]

/-- The places of the three registers in the packed status. -/
theorem packedStatus_toNat (s : State) :
    (packedStatus s).toNat = s.status.toNat + s.flags.toNat * 2 ^ 8 + s.errpos.toNat * 2 ^ 16 := by
  simp only [packedStatus, toNat_append_eq_add, BitVec.ofNat_eq_ofNat, BitVec.toNat_zero]
  omega

/-! ## What a step fetches inside a header (R270, 30_encoding.md R61) -/

theorem fetchCode_wire {s : State} {slot : Slot} (h : s.walk.slot = some slot) :
    fetchCode s = some (.wire slot s.walk.w (rdb s s.walk.pos wireWindow)) := by
  simp only [fetchCode, h]

theorem fetchCode_none {s : State} (hslot : s.walk.slot = none) (hhost : s.host = []) :
    fetchCode s = none := by
  simp only [fetchCode, hslot, hhost]

end Sys2Proof.Machine

/-! # The obligations about the system commands and the step -/

namespace Sys2Proof.Proofs

open Sys2Proof Sys2Proof.Machine

/-- Settles O53: what RESET answers keeps the state that it sets, and that state's slots are
absent. -/
theorem resetCommandRestoresResetState : Obligations.ResetCommandRestoresResetState := fun s =>
  ⟨_, (exec_reset_keeps s).1, answered_done .., keepsBut_finish_of (keepsBut_resetState s), rfl, rfl,
    fun j => congrArg FragSlot.valid (slotAt_resetState s j)⟩

/-- Settles O54: in range the commit notes no advisory, so that the flags after it are the masked
ones, bit by bit. -/
theorem clrflagsClearsTheMasked : Obligations.ClrflagsClearsTheMasked := by
  refine fun mask s => ⟨fun h => ?_, fun h => refused_of_badOperand (exec_clrflags_outOfRange h)⟩
  refine ⟨_, exec_clrflags_inRange h, ?_⟩
  rw [done_eq, finish_noAdv_flags]
  exact ⟨fun _ hk => getLsbD_and_not_truncate s.flags mask hk, answered_finish_noAdv ..,
    keepsBut_finish_of keepsBut_of_parts⟩

/-- Settles O55: the registers are packed as they stand, and only the results are written. -/
theorem rdstatusReportsThePrevious : Obligations.RdstatusReportsThePrevious := fun s =>
  ⟨_, rfl, packedStatus_toNat s, rfl, rfl, rfl, rfl, keepsBut_of_parts⟩

/-- Settles O1: a step runs what it fetches, and the three situations are those of the fetch. -/
theorem stepRunsTheInstructionAtHand : Obligations.StepRunsTheInstructionAtHand := by
  refine fun s i => ⟨?command, ?piece, ?idle⟩
  case command =>
    intro tup rest hslot hhost hdec
    have hstep := step_decoded (fetchCode_command hslot hhost) hdec
    rwa [afterFetch, hhost] at hstep
  case piece =>
    exact fun slot hslot hdec => step_decoded (fetchCode_wire hslot) hdec
  case idle =>
    exact fun hslot hhost => step_idle (fetchCode_none hslot hhost)

end Sys2Proof.Proofs

/-! # A hard error changes nothing (60_exceptions.md R290)

Every command ends in one of two ways: it is refused, which changes nothing, or it answers a status
below the hard errors. The statement follows at the end. -/

namespace Sys2Proof.Machine

/-! ## The two ways to end -/

/-- A status below 0x20: a success or an advisory, no hard error (R281). -/
abbrev belowHard (st : Status) : Prop := (statusCode st).toNat < 0x20

/-- The status that R288 chooses is an advisory or the command's own success. -/
theorem belowHard_advStatus {a : Adv} {st : Status} (h : belowHard st) :
    belowHard (advStatus a st) := by
  unfold advStatus
  split
  · decide
  split
  · decide
  split
  · decide
  · exact h

/-- How a command whose rule starts from `s` ends: it is refused and nothing else has changed, or it
answers a status below the hard errors. -/
inductive Ends (s : State) : State → Prop
  | refused (r : Raise) : Ends s (hardError r s)
  | commits {t : State} {r : Response} (resp : t.resp = some r) (below : r.status.toNat < 0x20) :
    Ends s t

/-- An outcome is a next state in which the command has ended. -/
def EndsTo (s : State) (o : Host.Outcome State Fault Refusal) : Prop :=
  ∃ t, o = .next t ∧ Ends s t

section Rules

variable {s t u : State} {o o' : Host.Outcome State Fault Refusal} {c : Prop} [Decidable c]

theorem Ends.next (h : Ends s t) : EndsTo s (.next t) := ⟨t, rfl, h⟩

theorem endsTo_refused (r : Raise) : EndsTo s (.next (hardError r s)) := (Ends.refused r).next

theorem ends_finish {a : Adv} {st : Status} {r0 r1 : BitVec 32} {out : List Byte}
    (h : belowHard st) : Ends s (finish a st r0 r1 out t) :=
  .commits (finish_resp ..) (belowHard_advStatus h)

theorem ends_finish_ok {a : Adv} {r0 r1 : BitVec 32} {out : List Byte} :
    Ends s (finish a .ok r0 r1 out t) :=
  ends_finish (by decide)

theorem endsTo_ok {a : Adv} {r0 r1 : BitVec 32} {out : List Byte} :
    EndsTo s (.next (finish a .ok r0 r1 out t)) := ends_finish_ok.next

/-- A check that chooses between two ends. -/
theorem ends_ite (ht : Ends s t) (hu : Ends s u) : Ends s (if c then t else u) := by
  split
  · exact ht
  · exact hu

/-- A check that chooses between two outcomes. -/
theorem endsTo_ite (ho : EndsTo s o) (ho' : EndsTo s o') : EndsTo s (if c then o else o') := by
  split
  · exact ho
  · exact ho'

/-- A command that ends with a hard error was refused: the other end has a status below. -/
theorem Ends.eq_hardError (h : Ends s t) {r : Response} (hresp : t.resp = some r)
    (hhard : 0x20 ≤ r.status.toNat) : ∃ e, t = hardError e s := by
  cases h with
  | refused e => exact ⟨e, rfl⟩
  | commits hresp' hbelow =>
    obtain rfl := Option.some.inj (hresp'.symm.trans hresp)
    exact absurd hbelow (Nat.not_lt.2 hhard)

end Rules

/-! ## The commands whose operands choose among several cases -/

section Commands

variable {s : State}

theorem endsTo_setattr (att valid value : BitVec 32) (addr : List Byte) :
    EndsTo s (execSetattr att valid value addr s) := by
  refine endsTo_ite (endsTo_refused _) (endsTo_ite endsTo_ok (endsTo_ite ?valid ?invalid))
  case valid =>
    cases linkOperand addr with
    | none => exact endsTo_refused _
    | some a => exact endsTo_ite endsTo_ok endsTo_ok
  case invalid => exact endsTo_ite endsTo_ok endsTo_ok

theorem endsTo_getattr (att : BitVec 32) : EndsTo s (execGetattr att s) := by
  unfold execGetattr
  split
  iterate 3 exact endsTo_ok
  exact endsTo_refused _

theorem endsTo_rdbuf (space off length : BitVec 32) :
    EndsTo s (execRdbuf space off length s) := by
  unfold execRdbuf
  cases spaceOperand s space with
  | none => exact endsTo_refused _
  | some b => exact endsTo_ite (endsTo_refused _) endsTo_ok

theorem endsTo_ctxSet (idx : BitVec 32) (pfx : List Byte) : EndsTo s (execCtxSet idx pfx s) := by
  unfold execCtxSet
  cases octOperand pfx with
  | none => exact endsTo_refused _
  | some p =>
    dsimp only
    split
    · exact endsTo_ok
    · exact endsTo_refused _

theorem endsTo_ctxLookup (addr : List Byte) : EndsTo s (execCtxLookup addr s) := by
  unfold execCtxLookup
  cases addrOperand addr with
  | none => exact endsTo_refused _
  | some a =>
    dsimp only
    cases ctxFind s.ctx a.pfx with
    | none => exact endsTo_ok
    | some i => exact endsTo_ok

theorem endsTo_hmWr (fld value : BitVec 32) (addr : List Byte) :
    EndsTo s (exec (.hmWr fld value addr) s) := by
  cases h : hmStore s.hm fld value addr with
  | none => exact exec_hmWr_refused h ▸ endsTo_refused _
  | some m => exact exec_hmWr_stored h ▸ endsTo_ok

theorem endsTo_setpayload (kind : BitVec 32) : EndsTo s (execSetpayload kind s) := by
  unfold execSetpayload
  cases kindOperand kind with
  | none => exact endsTo_refused _
  | some k => exact endsTo_ok

/-- DECODE is refused by the header, or by a cursor that would pass its bound (R181, R182). -/
theorem endsTo_decode : EndsTo s (exec .decode s) := by
  cases h : decodeAt s 0 with
  | error r => exact exec_decode_refused h ▸ endsTo_refused r
  | ok d => exact exec_decode_read h ▸ (ends_ite (.refused _) ends_finish_ok).next

/-! ## Reassembly, after its sweep (45_fragment_reassembly.md R220) -/

theorem ends_storeInto (j : Nat) (c : FragSlot) (n : Nat) (x : Piece) :
    Ends s (storeInto j c n x s) := by
  rcases storeInto_cases j c n x s with ⟨-, h⟩ | ⟨r, -, -, h⟩ | ⟨-, -, -, h⟩ | ⟨-, -, -, h⟩
  · rw [h]
    exact ends_finish (by decide)
  · rw [h]
    exact .refused r
  · rw [h]
    exact ends_finish (by decide)
  · rw [h]
    exact ends_finish (by decide)

theorem ends_storeFragment (now : BitVec 32) (size : BitVec 11) (tag : BitVec 16) (x : Piece) :
    Ends s (storeFragment now size tag x s) := by
  rcases storeFragment_cases now size tag x s with ⟨-, -, -, h⟩ | ⟨j, -, -, -, h⟩ | ⟨j, c, n, -, h⟩
  · rw [h]
    exact .refused _
  · rw [h]
    exact .refused _
  · rw [h]
    exact ends_storeInto j c n x

theorem ends_storeFirst (now : BitVec 32) (size : BitVec 11) (tag : BitVec 16) (d : Decoded) :
    Ends s (storeFirst now size tag d s) :=
  ends_ite (.refused _) (ends_ite (.refused _) (ends_storeFragment ..))

theorem ends_reasmFirst (now : BitVec 32) : Ends s (reasmFirst now s) := by
  cases h : fragHeaderCheck 4 s with
  | some r => exact reasmFirst_refused h ▸ .refused r
  | none =>
    cases hd : decodeAt s 4 with
    | error r => exact reasmFirst_probe_refused h hd ▸ .refused r
    | ok d => exact reasmFirst_probed h hd ▸ ends_storeFirst ..

theorem ends_reasmNext (now : BitVec 32) : Ends s (reasmNext now s) := by
  cases h : fragHeaderCheck 5 s with
  | some r => exact reasmNext_refused h ▸ .refused r
  | none => exact reasmNext_whole h ▸ ends_storeFragment ..

theorem ends_reasmSwept (now : BitVec 32) : Ends s (reasmSwept now s) := by
  have hpass : Ends s (passFrame s) := ends_finish (by decide)
  rw [reasmSwept_eq]
  exact ends_ite (ends_reasmFirst now) (ends_ite (ends_reasmNext now) hpass)

end Commands

/-! ## Every command -/

/-- Every command ends in one of the two ways, REASM as seen from its sweep. -/
theorem exec_endsTo (i : Instr) (s : State) (h : isCommand i = true) :
    EndsTo (startsFrom i s) (exec i s) := by
  cases i with
  | setbytes | pbLoad | copyout | incpos => exact (ends_ite (.refused _) ends_finish_ok).next
  | getbyte | get16 | get24 => exact (ends_ite ends_finish_ok (.refused _)).next
  | csumPseudo | csumFold | udpCsum | udpVerify => exact endsTo_ite (endsTo_refused _) endsTo_ok
  | ctxGet | hmRd | clrflags => exact endsTo_ite endsTo_ok (endsTo_refused _)
  | payloadlen | classify | csumFinal | sweep | reset => exact endsTo_ok
  | setattr att valid value addr => exact endsTo_setattr att valid value addr
  | getattr att => exact endsTo_getattr att
  | rdbuf space off length => exact endsTo_rdbuf space off length
  | ctxSet idx pfx => exact endsTo_ctxSet idx pfx
  | ctxLookup addr => exact endsTo_ctxLookup addr
  | hmWr fld value addr => exact endsTo_hmWr fld value addr
  | setpayload kind => exact endsTo_setpayload kind
  | encode => exact (ends_ite (.refused _) (ends_ite (.refused _) ends_finish_ok)).next
  | decode => exact endsTo_decode
  | reasm now =>
    rw [exec_reasm]
    exact (ends_reasmSwept now).next
  | fragStat j =>
    exact (ends_ite (ends_ite ends_finish_ok ends_finish_ok) (.refused _)).next
  | rdstatus => exact Ends.next (.commits rfl (by decide : belowHard .ok))
  | _ => exact nomatch h

end Sys2Proof.Machine

/-! # The obligation about hard errors -/

namespace Sys2Proof.Proofs

open Sys2Proof Sys2Proof.Machine

/-- Settles O3: of the two ends of a command only the refusal answers 0x20 or more, and a refusal
changes nothing. -/
theorem hardErrorsChangeNothing : Obligations.HardErrorsChangeNothing := by
  intro i s t r hcommand hexec hresp hhard
  obtain ⟨u, hu, hends⟩ := exec_endsTo i s hcommand
  obtain rfl := Host.Outcome.next.inj (hu.symm.trans hexec)
  obtain ⟨e, rfl⟩ := hends.eq_hardError hresp hhard
  obtain rfl := Option.some.inj ((hardError_resp ..).symm.trans hresp)
  exact ⟨rfl, rfl, rfl, (refuses_hardError_raise _ e).2⟩

end Sys2Proof.Proofs

/-! # The decoder inverts the encoder (30_encoding.md R60 to R102)

The encoder writes all of a row's bytes, so what remains is that the row of the slot, read from
them, is the instruction: one fact per row, by the fields of its bytes. -/

namespace Sys2Proof.Machine

/-! ## The pieces of a header -/

/-- The encoder writes the bytes that the decoder reads for the row, and no more (R61). -/
theorem length_of_encode {i : Instr} {slot : Slot} {w : BitVec 16} {l : List Byte}
    (h : encode i = .wire slot w l) : l.length = i.wireLen := by
  cases i with
  | udpNhcFullPorts s d k | udpNhcNibblePorts s d k => cases k <;> cases h <;> rfl
  | _ => cases h <;> rfl

/-! ## The dispatch byte and the IPHC word (R60, R62) -/

theorem iphcByte0_class (tc fl nh : Bool) (hlim : BitVec 2) :
    iphcByte0 tc fl nh hlim &&& 0xE0 = 0x60 := by
  revert tc fl nh hlim; decide

theorem dispatchRow_iphcByte0 (tc fl nh : Bool) (hlim : BitVec 2) :
    dispatchRow (iphcByte0 tc fl nh hlim) = .iphc tc fl nh hlim := by
  obtain ⟨-, htc, hfl, hnh, hhlim⟩ := iphcByte0_bits tc fl nh hlim rfl
  have hclass := iphcByte0_class tc fl nh hlim
  have hne : iphcByte0 tc fl nh hlim ≠ 0x41 := fun h => absurd (h ▸ hclass) (by decide)
  rw [dispatchRow, if_neg hne, if_pos hclass, flagSet_tcC, flagSet_flC, flagSet_nhC, htc, hfl, hnh,
    hhlim]

theorem dispatchRow_frag1 (size : BitVec 3) :
    dispatchRow ((0b11000 : BitVec 5) ++ size) = .frag1 size := by
  revert size; decide

theorem dispatchRow_fragn (size : BitVec 3) :
    dispatchRow ((0b11100 : BitVec 5) ++ size) = .fragn size := by
  revert size; decide

/-- A byte that matches none of the four patterns is the row of itself (R60). -/
theorem dispatchRow_of_class_zero {b : Byte} (h : dispatchClass b = 0) :
    dispatchRow b = .other b := by
  unfold dispatchClass at h
  unfold dispatchRow
  split_ifs at h ⊢
  rfl

theorem wordRow_iphcBytes (tc fl nh : Bool) (hlim : BitVec 2) (cid sac : Bool) (sam : BitVec 2)
    (m dac : Bool) (dam : BitVec 2) :
    wordRow (be16 (iphcByte0 tc fl nh hlim) (iphcByte1 cid sac sam m dac dam)) =
      .ok (.iphcWord tc fl nh hlim cid sac sam m dac dam) := by
  obtain ⟨-, htc, hfl, hnh, hhlim⟩ := iphcByte0_bits tc fl nh hlim rfl
  obtain ⟨hcid, hsac, hsam, hm, hdac, hdam⟩ := iphcByte1_bits cid sac sam m dac dam rfl
  rw [wordRow_be16 (iphcByte0_class tc fl nh hlim), flagSet_tcC, flagSet_flC, flagSet_nhC, htc, hfl,
    hnh, hhlim, hcid, hsac, hsam, hm, hdac, hdam]

/-! ## Traffic class and flow label (R63, R64) -/

/-- The flow label is read back whatever the bits above it in its first byte (R191). -/
theorem flOf_append (hi : BitVec 4) (fl : BitVec 20) :
    flOf (hi ++ fl.extractLsb' 16 4) (fl.extractLsb' 8 8) (fl.extractLsb' 0 8) = fl := by
  simpa only [flOf, BitVec.extractLsb'_append_eq_right] using flOf_flBytes fl

theorem tfRow_tcOnly (ecn : BitVec 2) (dscp : BitVec 6) :
    tfRow (wordOf Config.flC) [ecn ++ dscp] = .tfTcOnly ecn dscp :=
  congrArg₂ Instr.tfTcOnly BitVec.extractLsb'_append_eq_left BitVec.extractLsb'_append_eq_right

theorem tfRow_flOnly (ecn pad : BitVec 2) (fl : BitVec 20) :
    tfRow (wordOf Config.tcC)
      [ecn ++ pad ++ fl.extractLsb' 16 4, fl.extractLsb' 8 8, fl.extractLsb' 0 8] =
      .tfFlOnly ecn pad fl := by
  have hfields : ∀ (e p : BitVec 2) (x : BitVec 4),
      (e ++ p ++ x).extractLsb' 6 2 = e ∧ (e ++ p ++ x).extractLsb' 4 2 = p := by decide
  obtain ⟨hecn, hpad⟩ := hfields ecn pad (fl.extractLsb' 16 4)
  exact congr (congrArg₂ Instr.tfFlOnly hecn hpad) (flOf_append (ecn ++ pad) fl)

theorem tfRow_full (ecn : BitVec 2) (dscp : BitVec 6) (pad : BitVec 4) (fl : BitVec 20) :
    tfRow 0x0000
      [ecn ++ dscp, pad ++ fl.extractLsb' 16 4, fl.extractLsb' 8 8, fl.extractLsb' 0 8] =
      .tfFull ecn dscp pad fl :=
  congr (congr (congrArg₂ Instr.tfFull BitVec.extractLsb'_append_eq_left
    BitVec.extractLsb'_append_eq_right) BitVec.extractLsb'_append_eq_left) (flOf_append pad fl)

/-! ## The reserved multicast forms (R70) -/

theorem dstRow_reservedM1Dac1 (dam : BitVec 2) :
    dstRow (0x000C + dam.zeroExtend 16) [] = .dstReservedM1Dac1 dam := by
  revert dam; decide

/-! ## The NHC header (R80 to R82) -/

/-- The fields of the byte `11110cpp` (R80). -/
theorem nhcByte_fields (c : Bool) (p : BitVec 2) :
    nhcByte c p &&& 0xF8 = 0xF0 ∧ (nhcByte c p).getLsbD 2 = c ∧
      (nhcByte c p).getLsbD 1 = p.getLsbD 1 ∧ (nhcByte c p).getLsbD 0 = p.getLsbD 0 := by
  revert c p; decide

theorem byteOf_cons_zero (b : Byte) (l : List Byte) : byteOf (b :: l) 0 = b := rfl

/-- The checksum field is read back, whether it is carried or elided (R82). -/
theorem nhcCsum_csumBytes (csum : Option (BitVec 16)) (p : BitVec 2) :
    nhcCsum (nhcByte (!csum.isSome) p) (byteOf (csumBytes csum) 0) (byteOf (csumBytes csum) 1) =
      csum := by
  obtain ⟨-, hc, -, -⟩ := nhcByte_fields (!csum.isSome) p
  rw [nhcCsum, hc]
  cases csum with
  | none => rfl
  | some v => exact congrArg some (be16_be16Bytes v)

theorem nhcRow_fullPorts (sport dport : BitVec 16) (csum : Option (BitVec 16)) :
    nhcRow (nhcByte (!csum.isSome) 0b00 :: (be16Bytes sport ++ be16Bytes dport ++ csumBytes csum)) =
      .udpNhcFullPorts sport dport csum := by
  obtain ⟨hclass, -, h1, h0⟩ := nhcByte_fields (!csum.isSome) 0b00
  simp only [nhcRow, byteOf_cons_zero, hclass, h1, h0, if_true]
  exact congr (congrArg₂ Instr.udpNhcFullPorts (be16_be16Bytes sport) (be16_be16Bytes dport))
    (nhcCsum_csumBytes csum 0b00)

theorem nhcRow_nibblePorts (s d : BitVec 4) (csum : Option (BitVec 16)) :
    nhcRow (nhcByte (!csum.isSome) 0b11 :: ((s ++ d) :: csumBytes csum)) =
      .udpNhcNibblePorts s d csum := by
  obtain ⟨hclass, -, h1, h0⟩ := nhcByte_fields (!csum.isSome) 0b11
  simp only [nhcRow, byteOf_cons_zero, hclass, h1, h0, if_true]
  exact congr (congrArg₂ Instr.udpNhcNibblePorts BitVec.extractLsb'_append_eq_left
    BitVec.extractLsb'_append_eq_right) (nhcCsum_csumBytes csum 0b11)

theorem nhcRow_p01 (c : Bool) : nhcRow [nhcByte c 0b01] = .udpNhcP01 c := by
  cases c <;> rfl

theorem nhcRow_p10 (c : Bool) : nhcRow [nhcByte c 0b10] = .udpNhcP10 c := by
  cases c <;> rfl

/-- A byte that is not `11110xxx` is the row of itself (R95). -/
theorem nhcRow_of_other {b : Byte} (h : b &&& 0xF8 ≠ 0xF0) : nhcRow [b] = .nhcOther b :=
  if_neg h

/-! ## The fragment headers (R90, R91) -/

/-- The size field stands below the five bits of the dispatch pattern. -/
theorem size_of_be16Bytes (kind : BitVec 5) (size : BitVec 11) :
    (be16 ((kind ++ size).extractLsb' 8 8) ((kind ++ size).extractLsb' 0 8)).extractLsb' 0 11 =
      size := by
  rw [be16_be16Bytes, BitVec.extractLsb'_append_eq_right]

theorem frag1HdrRow_be16Bytes (kind : BitVec 5) (size : BitVec 11) (tag : BitVec 16) :
    frag1HdrRow (be16Bytes (kind ++ size) ++ be16Bytes tag) = .frag1Hdr size tag :=
  congrArg₂ Instr.frag1Hdr (size_of_be16Bytes kind size) (be16_be16Bytes tag)

theorem fragnHdrRow_be16Bytes (kind : BitVec 5) (size : BitVec 11) (tag : BitVec 16)
    (offset : BitVec 8) :
    fragnHdrRow (be16Bytes (kind ++ size) ++ be16Bytes tag ++ [offset]) =
      .fragnHdr size tag offset :=
  congrFun (congrArg₂ Instr.fragnHdr (size_of_be16Bytes kind size) (be16_be16Bytes tag)) offset

/-! ## The row of every piece -/

/-- The row of the slot, read from the bytes of a well-formed instruction, is that instruction. The
forms that the IPHC word's bits choose alone, and those whose bytes are whole operands, evaluate. -/
theorem slotRow_encode {i : Instr} {slot : Slot} {w : BitVec 16} {l : List Byte}
    (h : encode i = .wire slot w l) (hwf : i.wellFormed = true) : slotRow slot w l = .ok i := by
  cases i with
  | iphc tc fl nh hlim => cases h; exact congrArg _ (dispatchRow_iphcByte0 tc fl nh hlim)
  | frag1 size => cases h; exact congrArg _ (dispatchRow_frag1 size)
  | fragn size => cases h; exact congrArg _ (dispatchRow_fragn size)
  | other b => cases h; exact congrArg _ (dispatchRow_of_class_zero (beq_iff_eq.1 hwf))
  | iphcWord tc fl nh hlim cid sac sam m dac dam => cases h; exact wordRow_iphcBytes ..
  | cidByte sci dci =>
    cases h
    exact congrArg _ (congrArg₂ Instr.cidByte BitVec.extractLsb'_append_eq_left
      BitVec.extractLsb'_append_eq_right)
  | frag1Hdr size tag => cases h; exact congrArg _ (frag1HdrRow_be16Bytes _ size tag)
  | fragnHdr size tag off => cases h; exact congrArg _ (fragnHdrRow_be16Bytes _ size tag off)
  | tfTcOnly ecn dscp => cases h; exact congrArg _ (tfRow_tcOnly ecn dscp)
  | tfFlOnly ecn pad fl => cases h; exact congrArg _ (tfRow_flOnly ecn pad fl)
  | tfFull ecn dscp pad fl => cases h; exact congrArg _ (tfRow_full ecn dscp pad fl)
  | dstReservedM1Dac1 dam => cases h; exact congrArg _ (dstRow_reservedM1Dac1 dam)
  | udpNhcFullPorts sport dport csum =>
    cases h; exact congrArg _ (nhcRow_fullPorts sport dport csum)
  | udpNhcNibblePorts s d csum => cases h; exact congrArg _ (nhcRow_nibblePorts s d csum)
  | udpNhcP01 c => cases h; exact congrArg _ (nhcRow_p01 c)
  | udpNhcP10 c => cases h; exact congrArg _ (nhcRow_p10 c)
  | nhcOther b => cases h; exact congrArg _ (nhcRow_of_other (bne_iff_ne.1 hwf))
  | _ => cases h <;> rfl

/-! ## The commands (R100) -/

/-- The opcode table is read back, and each command has its own operands alone. -/
theorem decodeCommand_encode {i : Instr} {t : CmdTuple} (h : encode i = .command t) :
    decodeCommand t = .ok i := by
  cases i <;> cases h <;> rfl

end Sys2Proof.Machine

/-! # The obligation about the decoder and the encoder -/

namespace Sys2Proof.Proofs

open Sys2Proof Sys2Proof.Machine

/-- Settles O57: a command by the opcode table, a piece of a header by the row of its slot, of which
the encoder writes every byte. -/
theorem decodeInvertsTheEncoder : Obligations.DecodeInvertsTheEncoder := by
  intro i hwf
  cases h : encode i with
  | command t => exact decodeCommand_encode h
  | wire slot w l =>
    exact decodeWire_eq_ok.2 ⟨slotRow_encode h hwf, (length_of_encode h).ge⟩

end Sys2Proof.Proofs
